-- ==== Sys2Proof/Word.lean ====
section
/-! DEFINITION. The bit-vector widths of CK16: bytes of buffers and frames, 16-bit frame fields, 32-bit registers
and bus words (00_scope.md R9, R11). -/

namespace Sys2Proof

/-- A byte of a buffer, a frame or a tag. -/
abbrev Byte := BitVec 8

/-- A 16-bit frame field: a length, a millivolt value, a raw fixed field. -/
abbrev Half := BitVec 16

/-- A 32-bit register or bus word. -/
abbrev Word := BitVec 32

end Sys2Proof
end

