-- ==== Sys2Proof/Config.lean ====
section
/-! DEFINITION. The implementation parameters of 00_scope.md R7 and their legality (R8), the constants R7 fixes, and
the one free value of the machine: what a buffer byte holds before the host writes it (70_reset_and_hazards.md R251). -/

namespace Sys2Proof

/-- How the value of an extra field is read (44_tagged_field.md R190). -/
inductive Kind where
  | numeric
  | text
deriving DecidableEq, Repr

/-- One row of the Field Code Table (10_state.md R47, 44_tagged_field.md R190). -/
structure FctRow where
  code : Byte
  width : Nat
  kind : Kind
deriving DecidableEq, Repr

/-- The two byte buffers of 10_state.md R45, R46. -/
inductive Buffer where
  | rxbuf
  | cmdbuf
deriving DecidableEq, Repr

/-- The parameters of 00_scope.md R7 that a configuration chooses (log 1). -/
structure Config where
  /-- BLOCK_BASE, the bus address of register offset 0. -/
  blockBase : Nat
  /-- RXBUF_SIZE. -/
  rxbufSize : Nat
  /-- MAX_CELLS. -/
  maxCells : Nat
  /-- MAX_EXTRA. -/
  maxExtra : Nat
  /-- TEXT_CAP. -/
  textCap : Nat
  /-- FCT, in table order. -/
  fct : List FctRow
  start0 : Byte
  start1 : Byte
  endMarker : Byte
  cellTag : Byte
  tagTmos : Byte
  tagTp1 : Byte
  tagTp2 : Byte
  tagVpack : Byte
  tagIpack : Byte
  tagSoc : Byte
deriving DecidableEq, Repr

/-- The sizes lie in their legal ranges (00_scope.md R7, R8). -/
def Config.sizesLegal (c : Config) : Bool :=
  decide (21 ≤ c.rxbufSize ∧ c.rxbufSize ≤ 131072) && decide (1 ≤ c.maxCells ∧ c.maxCells ≤ 255) &&
  decide (1 ≤ c.maxExtra ∧ c.maxExtra ≤ 32) && decide (1 ≤ c.textCap ∧ c.textCap ≤ 56)

/-- Every row's width is 1 to 24, codes are distinct, there are at most 256 rows (00_scope.md R8). -/
def Config.fctLegal (c : Config) : Bool :=
  decide (c.fct.length ≤ 256) && c.fct.all (fun r => decide (1 ≤ r.width ∧ r.width ≤ 24)) &&
  decide (c.fct.map (fun r => r.code)).Nodup

/-- A model refuses a configuration that is not legal (00_scope.md R8, S9). -/
def Config.legal (c : Config) : Bool := c.sizesLegal && c.fctLegal

/-- The default parameter values of 00_scope.md R7. The frame constants are the spec's general-knowledge defaults
(PRESUMED, log 2). The spec gives no row for the FCT and no BLOCK_BASE: none and 0 here (DESIGN CHOICE, unsafe if a
claim leans on them, log 1). -/
def Config.default : Config where
  blockBase := 0
  rxbufSize := 1024
  maxCells := 24
  maxExtra := 32
  textCap := 24
  fct := []
  start0 := 0x4E
  start1 := 0x57
  endMarker := 0x68
  cellTag := 0x79
  tagTmos := 0x80
  tagTp1 := 0x81
  tagTp2 := 0x82
  tagVpack := 0x83
  tagIpack := 0x84
  tagSoc := 0x85

/-- What byte `i` of a buffer holds before the host writes it, after the power-on or RESET numbered `epoch`: a draw,
independent for each byte, never assumed 0 (70_reset_and_hazards.md R251, S5). It has no body: nothing can be proved of
its value (DEDUCED, safe, log 3). -/
opaque Config.powerOnByte (epoch : Nat) (b : Buffer) (i : Nat) : Byte

/-- CMD_LEN, the bytes of CMDBUF (00_scope.md R7). -/
def cmdLen : Nat := 21

/-- MIN_FRAME, the smallest frame step 1 accepts (00_scope.md R7, 30_encoding.md R84). -/
def minFrame : Nat := 20

/-- PAYLOAD_START, the window offset of the first payload byte (00_scope.md R7). -/
def payloadStart : Nat := 11

/-- CUR_SPLIT, the length-field value that selects the current encoding (00_scope.md R7). -/
def curSplit : Nat := 260

/-- TEMP_SPLIT, the temperature sign threshold (00_scope.md R7). -/
def tempSplit : Nat := 100

/-- CUR_ZERO, the raw current that means zero in the offset encoding (00_scope.md R7). -/
def curZero : Nat := 10000

/-- VMIN_SENTINEL in millivolts (00_scope.md R7). -/
def vminSentinel : Half := 5000

end Sys2Proof
end

