-- ==== Sys2Proof/Syntax.lean ====
section
/-! DEFINITION. The instructions of CK16: the seven commands (format CMDW, 30_encoding.md R80, R81) and the eight
elements of a frame's payload (format TAG8, 30_encoding.md R86 to R89), one constructor per row of the opcode table. -/

namespace Sys2Proof

/-- An instruction. Commands are written to CMD by the host; elements are met by the engine at its read offset OFF.
An element carries the bytes of its encoding that lie inside the frame (log 13). -/
inductive Instr where
  /-- NOP (40_commands.md R104). -/
  | nop
  /-- EXTRACT (40_commands.md R105). -/
  | extract
  /-- DECODE (40_commands.md R106, R107). -/
  | decode
  /-- EXTRACT_DECODE (40_commands.md R108). -/
  | extractDecode
  /-- CSUM16 with its SRC bit: the buffer summed (40_commands.md R109). -/
  | csum16 (src : Buffer)
  /-- LOOKUP with its TAG field (40_commands.md R110). -/
  | lookup (tag : Byte)
  /-- SRESET (40_commands.md R111). -/
  | sreset
  /-- CELL_BLOCK: the section tag, the byte count and the entry bytes, all `bc` of them or, where the frame ends
  inside the block, those that lie below E (30_encoding.md R87, 43_fixed_field.md R160, R161). -/
  | cellBlock (tag bc : Byte) (entries : List Byte)
  /-- FIX_TMOS with its big-endian value (43_fixed_field.md R167). -/
  | fixTmos (raw : Half)
  /-- FIX_TP1 (43_fixed_field.md R168). -/
  | fixTp1 (raw : Half)
  /-- FIX_TP2 (43_fixed_field.md R169). -/
  | fixTp2 (raw : Half)
  /-- FIX_VPACK (43_fixed_field.md R170). -/
  | fixVpack (raw : Half)
  /-- FIX_IPACK (43_fixed_field.md R171). -/
  | fixIpack (raw : Half)
  /-- FIX_SOC (43_fixed_field.md R172). -/
  | fixSoc (raw : Byte)
  /-- XFIELD: the tag and its value bytes: WIDTH(tag) of them for a tag of the FCT or, where the frame ends inside
  the value, those below E; none for an unknown tag (30_encoding.md R89, 44_tagged_field.md R193). -/
  | xfield (tag : Byte) (value : List Byte)
deriving DecidableEq, Repr

/-- The six fixed single-tag fields in their order (30_encoding.md R88). -/
inductive FixedField where
  | tmos
  | tp1
  | tp2
  | vpack
  | ipack
  | soc
deriving DecidableEq, Repr

/-- Where in the payload an element stands: the place, not the byte, decides how it is read. -/
inductive Slot where
  /-- Window offset 11 (30_encoding.md R87). -/
  | cellBlock
  /-- The attempt at fixed field `k` (43_fixed_field.md R166). -/
  | fixed (k : FixedField)
  /-- The extra-field run (44_tagged_field.md R193). -/
  | extra
deriving DecidableEq, Repr

end Sys2Proof
end

