-- ==== Sys2Proof/WellFormed.lean ====
section
/-! DEFINITION. Which instructions stand for an encoding: an element carries no more bytes than its encoding has. -/

namespace Sys2Proof

/-- The width the Field Code Table gives a tag: 0 for a tag with no row (44_tagged_field.md R194: an unknown tag is
consumed as a single byte with no value). -/
def Config.valueWidth (c : Config) (t : Byte) : Nat :=
  match c.fct.find? (fun r => r.code = t) with
  | some r => r.width
  | none => 0

/-- An instruction is well-formed in a configuration when a cell block carries at most its declared number of entry
bytes (30_encoding.md R87) and an extra field at most the width of its tag (30_encoding.md R89); fewer only where the
frame ends inside it. The other operands are bit fields of their exact width, so every value is encodable. -/
def Instr.wf (c : Config) : Instr → Bool
  | .nop => true
  | .extract => true
  | .decode => true
  | .extractDecode => true
  | .csum16 _ => true
  | .lookup _ => true
  | .sreset => true
  | .cellBlock _ bc entries => decide (entries.length ≤ bc.toNat)
  | .fixTmos _ => true
  | .fixTp1 _ => true
  | .fixTp2 _ => true
  | .fixVpack _ => true
  | .fixIpack _ => true
  | .fixSoc _ => true
  | .xfield t value => decide (value.length ≤ c.valueWidth t)

/-- A well-formed instruction that carries every byte of its encoding, none cut off by the end of the frame. -/
def Instr.whole (c : Config) : Instr → Bool
  | .nop => true
  | .extract => true
  | .decode => true
  | .extractDecode => true
  | .csum16 _ => true
  | .lookup _ => true
  | .sreset => true
  | .cellBlock _ bc entries => decide (entries.length = bc.toNat)
  | .fixTmos _ => true
  | .fixTp1 _ => true
  | .fixTp2 _ => true
  | .fixVpack _ => true
  | .fixIpack _ => true
  | .fixSoc _ => true
  | .xfield t value => decide (value.length = c.valueWidth t)

end Sys2Proof
end

