-- ==== Sys2Proof/Decode.lean ====
section
/-! DEFINITION. Decoding command words (30_encoding.md R80 to R82) and payload elements (R86 to R89), total on any
bits and rejecting by name, and the encoder of the same tables. -/

namespace Sys2Proof

/-- Why bits are no instruction. -/
inductive Reject where
  /-- A command word not listed in 30_encoding.md R81 (R82). -/
  | illegalCommand (w : Word)
  /-- The byte at the place of a fixed field is not that field's tag (43_fixed_field.md R166). -/
  | tagMismatch (t : Byte)
  /-- The element's first bytes reach the end of the frame (41_frame_boundary.md R140). -/
  | outsideFrame
deriving DecidableEq, Repr

/-- The field of `n` bits of a word from bit `lo` up (00_scope.md R9). -/
def bitField (w : Word) (lo n : Nat) : BitVec n := w.extractLsb' lo n

/-- The decoder of command words, in the words of 30_encoding.md R81. -/
def decodeCommand (w : Word) : Except Reject Instr :=
  let op := bitField w 0 4
  if bitField w 17 15 ≠ 0 ∨ bitField w 4 4 ≠ 0 then .error (.illegalCommand w)
  else if op = 0x0 ∧ bitField w 8 9 = 0 then .ok .nop
  else if op = 0x1 ∧ bitField w 8 9 = 0 then .ok .extract
  else if op = 0x2 ∧ bitField w 8 9 = 0 then .ok .decode
  else if op = 0x3 ∧ bitField w 8 9 = 0 then .ok .extractDecode
  else if op = 0x4 ∧ bitField w 8 8 = 0 then
    .ok (.csum16 (if bitField w 16 1 = 0 then .rxbuf else .cmdbuf))
  else if op = 0x5 ∧ bitField w 16 1 = 0 then .ok (.lookup (bitField w 8 8))
  else if op = 0xF ∧ bitField w 8 9 = 0 then .ok .sreset
  else .error (.illegalCommand w)

/-- The scan of a code through FCT rows numbered from `k` (44_tagged_field.md R191). -/
def fctLookupFrom (t : Byte) : Nat → List FctRow → Option (Nat × FctRow)
  | _, [] => none
  | k, r :: rows => if r.code = t then some (k, r) else fctLookupFrom t (k + 1) rows

/-- `lookup(t)`: the first row whose code is `t`, with its index (44_tagged_field.md R191). -/
def fctLookup (c : Config) (t : Byte) : Option (Nat × FctRow) := fctLookupFrom t 0 c.fct

/-- WIDTH(t), the value bytes an extra field's tag announces; none for an unknown tag (30_encoding.md R89). -/
def elementWidth (c : Config) (t : Byte) : Nat :=
  match fctLookup c t with
  | some (_, row) => row.width
  | none => 0

/-- The tag parameter of a fixed field (30_encoding.md R88). -/
def Config.fixedTag (c : Config) : FixedField → Byte
  | .tmos => c.tagTmos
  | .tp1 => c.tagTp1
  | .tp2 => c.tagTp2
  | .vpack => c.tagVpack
  | .ipack => c.tagIpack
  | .soc => c.tagSoc

/-- The value bytes of a fixed field (30_encoding.md R88). -/
def FixedField.width : FixedField → Nat
  | .tmos => 2
  | .tp1 => 2
  | .tp2 => 2
  | .vpack => 2
  | .ipack => 2
  | .soc => 1

/-- A 16-bit frame field from its two bytes, most significant first (20_memory.md R64). -/
def be16Of (hi lo : Byte) : Half := hi ++ lo

/-- The instruction of fixed field `k` whose tag byte is followed by `value`; none where the value's bytes do not all
lie inside the frame (43_fixed_field.md R166: `OFF + w < E`). -/
def fixedInstr : FixedField → List Byte → Option Instr
  | .tmos, hi :: lo :: _ => some (.fixTmos (be16Of hi lo))
  | .tp1, hi :: lo :: _ => some (.fixTp1 (be16Of hi lo))
  | .tp2, hi :: lo :: _ => some (.fixTp2 (be16Of hi lo))
  | .vpack, hi :: lo :: _ => some (.fixVpack (be16Of hi lo))
  | .ipack, hi :: lo :: _ => some (.fixIpack (be16Of hi lo))
  | .soc, v :: _ => some (.fixSoc v)
  | _, _ => none

/-- The decoder of payload elements: `bytes` are the frame's bytes from the element's first one up to E, and the slot
says which element may stand there. -/
def decodeElement (c : Config) : Slot → List Byte → Except Reject Instr
  | .cellBlock, tag :: bc :: rest => .ok (.cellBlock tag bc (rest.take bc.toNat))
  | .cellBlock, _ => .error .outsideFrame
  | .fixed k, tag :: rest =>
    match fixedInstr k rest with
    | none => .error .outsideFrame
    | some i => if tag = c.fixedTag k then .ok i else .error (.tagMismatch tag)
  | .fixed _, [] => .error .outsideFrame
  | .extra, tag :: rest => .ok (.xfield tag (rest.take (elementWidth c tag)))
  | .extra, [] => .error .outsideFrame

/-- An encoding: one word of CMD, or the bytes of an element. -/
inductive Code where
  | word (w : Word)
  | bytes (bs : List Byte)
deriving DecidableEq, Repr

/-- The two bytes of a 16-bit frame field, most significant first (20_memory.md R64). -/
def be16Bytes (v : Half) : List Byte := [v.extractLsb' 8 8, v.extractLsb' 0 8]

/-- The command word of 30_encoding.md R80 with the given SRC, TAG and OP fields. -/
def cmdw (src : BitVec 1) (tag : Byte) (op : BitVec 4) : Word := 0#15 ++ src ++ tag ++ 0#4 ++ op

/-- The encoding of an instruction (30_encoding.md R81, R87 to R89). -/
def encode (c : Config) : Instr → Code
  | .nop => .word (cmdw 0 0 0x0)
  | .extract => .word (cmdw 0 0 0x1)
  | .decode => .word (cmdw 0 0 0x2)
  | .extractDecode => .word (cmdw 0 0 0x3)
  | .csum16 .rxbuf => .word (cmdw 0 0 0x4)
  | .csum16 .cmdbuf => .word (cmdw 1 0 0x4)
  | .lookup tag => .word (cmdw 0 tag 0x5)
  | .sreset => .word (cmdw 0 0 0xF)
  | .cellBlock tag bc entries => .bytes (tag :: bc :: entries)
  | .fixTmos raw => .bytes (c.tagTmos :: be16Bytes raw)
  | .fixTp1 raw => .bytes (c.tagTp1 :: be16Bytes raw)
  | .fixTp2 raw => .bytes (c.tagTp2 :: be16Bytes raw)
  | .fixVpack raw => .bytes (c.tagVpack :: be16Bytes raw)
  | .fixIpack raw => .bytes (c.tagIpack :: be16Bytes raw)
  | .fixSoc raw => .bytes [c.tagSoc, raw]
  | .xfield tag value => .bytes (tag :: value)

/-- Where an element may stand; none for a command. -/
def Instr.slot : Instr → Option Slot
  | .nop => none
  | .extract => none
  | .decode => none
  | .extractDecode => none
  | .csum16 _ => none
  | .lookup _ => none
  | .sreset => none
  | .cellBlock _ _ _ => some .cellBlock
  | .fixTmos _ => some (.fixed .tmos)
  | .fixTp1 _ => some (.fixed .tp1)
  | .fixTp2 _ => some (.fixed .tp2)
  | .fixVpack _ => some (.fixed .vpack)
  | .fixIpack _ => some (.fixed .ipack)
  | .fixSoc _ => some (.fixed .soc)
  | .xfield _ _ => some .extra

/-- The row of the opcode table a tag byte matches on its own, in the table's order: the place an element with that
tag is meant for (30_encoding.md R95: the last row matches any byte). -/
def slotOfTag (c : Config) (t : Byte) : Slot :=
  if t = c.cellTag then .cellBlock
  else if t = c.tagTmos then .fixed .tmos
  else if t = c.tagTp1 then .fixed .tp1
  else if t = c.tagTp2 then .fixed .tp2
  else if t = c.tagVpack then .fixed .vpack
  else if t = c.tagIpack then .fixed .ipack
  else if t = c.tagSoc then .fixed .soc
  else .extra

/-- The bytes a tag stands before when every further byte of its element is 0; a value has at most 24 of them, and a
cell block whose byte count is 0 has none. -/
def zeroPadded (t : Byte) : List Byte := t :: List.replicate 24 0

/-- What the decoder reads from the bits `w` of an opcode-table row of `nbits` bits: a command for a row of 32 bits,
the element of the row the byte matches, followed by zeros, for a row of 8 (log 12). -/
def decodeTableWord (nbits w : Nat) : Option Instr :=
  if nbits = 32 then (decodeCommand (BitVec.ofNat 32 w)).toOption
  else if nbits = 8 then
    (decodeElement Config.default (slotOfTag Config.default (BitVec.ofNat 8 w)) (zeroPadded (BitVec.ofNat 8 w))).toOption
  else none

end Sys2Proof
end

