-- ==== Sys2Proof/Machine/State.lean ====
section
/-! DEFINITION. The state of CK16 (10_state.md R20, exhaustive), the model's own fields beside it, the reasons a step
can stop, and the state after reset (70_reset_and_hazards.md R250). -/

namespace Sys2Proof.Machine

/-- CTRL's three defined bits; bits [31:3] are RAZ/WI (10_state.md R22). -/
structure Ctrl where
  irqEn : Bool
  csumStrict : Bool
  endCheck : Bool
deriving DecidableEq, Repr

/-- STATUS.ECODE (60_exceptions.md R223). Codes 5 to 15 are never written (S4) and have no constructor. -/
inductive Ecode where
  | none
  | illegalCmd
  | range
  | busy
  | busyWrite
deriving DecidableEq, Repr

/-- STATUS.RESULT (60_exceptions.md R220). Codes 9 to 15 are never written (S4) and have no constructor. -/
inductive ResultCode where
  | none
  | ok
  | short
  | badStart
  | incomplete
  | csumFatal
  | noPayload
  | badEnd
  | noCells
deriving DecidableEq, Repr

/-- The anomaly flags of a decode, STATUS bits [12] to [20] (10_state.md R24, R50, 60_exceptions.md R222). -/
structure Flags where
  csumBad : Bool
  celltagBad : Bool
  cellCap : Bool
  cellShort : Bool
  xcap : Bool
  xovr : Bool
  xunk : Bool
  xdup : Bool
  txtTrunc : Bool
deriving DecidableEq, Repr

/-- Every decode flag 0 (40_commands.md R112). -/
def Flags.clear : Flags where
  csumBad := false
  celltagBad := false
  cellCap := false
  cellShort := false
  xcap := false
  xovr := false
  xunk := false
  xdup := false
  txtTrunc := false

/-- One word of CELL: the info byte and the millivolt value (10_state.md R43). -/
structure CellEntry where
  info : Byte
  mv : Half
deriving DecidableEq, Repr

/-- One entry of XE (10_state.md R44). TEXT_LEN is the length of `text`; the bytes of XE_TEXT beyond it read 0. -/
structure XEntry where
  tag : Byte
  kind : Kind
  width : BitVec 5
  value : Word
  text : List Byte
deriving DecidableEq, Repr

/-- The registers of the Measurement Record (10_state.md R42), each of the width its row gives. -/
structure Record where
  ncells : BitVec 8
  vmin : Half
  vmax : Half
  vdelta : Half
  tmos : Word
  tp1 : Word
  tp2 : Word
  vpack : Half
  ipack : Word
  soc : BitVec 8
  fixvalid : BitVec 6
  nextra : BitVec 8
  cellhdr : Word
deriving DecidableEq, Repr

/-- The record before step 1 of a decode and after reset (40_commands.md R112, 70_reset_and_hazards.md R250). -/
def Record.default : Record where
  ncells := 0
  vmin := vminSentinel
  vmax := 0
  vdelta := 0
  tmos := 0
  tp1 := 0
  tp2 := 0
  vpack := 0
  ipack := 0
  soc := 0
  fixvalid := 0
  nextra := 0
  cellhdr := 0

/-- The DECODE result set (40_commands.md R103): what a decode commits, all at once. `cells` and `xe` are the decoded
entries of CELL and XE; every later entry of the arrays reads 0 (log 20). -/
structure DecodeSet where
  record : Record
  cells : List CellEntry
  xe : List XEntry
  frLen : Word
  frCsum : Word
  frPend : Word
  frXoff : Word
  frEoff : Word
  result : ResultCode
  flags : Flags
  valid : Bool
deriving DecidableEq, Repr

/-- DEFAULT (40_commands.md R112): what every decode starts from, and the result registers after reset. -/
def DecodeSet.default : DecodeSet where
  record := Record.default
  cells := []
  xe := []
  frLen := 0
  frCsum := 0
  frPend := 0
  frXoff := 0
  frEoff := 0
  result := .none
  flags := Flags.clear
  valid := false

/-- What the extractor gives (41_frame_boundary.md R130). -/
structure Extraction where
  base : Word
  len : Word
  echo : Bool
deriving DecidableEq, Repr

/-- The snapshot taken at issue (10_state.md R41). -/
structure Snapshot where
  ctrl : Ctrl
  rxLen : Word
  winBase : Word
  winLen : Word
  csStart : Word
  csCount : Word
deriving DecidableEq, Repr

/-- The engine's working registers while a decode runs on its window (10_state.md R39, R40) and the result set it has
built so far. Sizes and offsets are natural numbers: no rule lets one wrap (log 7). -/
structure Job where
  /-- The extractor's result, to be committed with an EXTRACT_DECODE (40_commands.md R108). -/
  extraction : Option Extraction
  /-- RXBUF index of window byte 0. -/
  base : Nat
  /-- LENF (41_frame_boundary.md R134). -/
  lenf : Half
  /-- ACC, the Checksum-16 accumulator (42_checksum16.md R150). -/
  acc : Word
  /-- T, the declared total (41_frame_boundary.md R134). -/
  total : Nat
  /-- E, the effective length (41_frame_boundary.md R135). -/
  eff : Nat
  /-- PE, the payload end (41_frame_boundary.md R136). -/
  pe : Nat
  /-- OFF, the read offset (10_state.md R40). -/
  off : Nat
  /-- n, the cells decoded (43_fixed_field.md R161). -/
  n : Nat
  /-- X, the extra fields recorded (44_tagged_field.md R192). -/
  x : Nat
  /-- The minimum tracker of the cell statistics, 0 while no cell above 0 was seen (43_fixed_field.md R164). -/
  trackMin : Half
  /-- The maximum tracker of the cell statistics (43_fixed_field.md R164). -/
  trackMax : Half
  /-- SEEN (44_tagged_field.md R192). -/
  seen : List Byte
  /-- The result set under construction (00_scope.md R12). -/
  set : DecodeSet
deriving DecidableEq, Repr

/-- How far the engine is with the command in flight (log 6). -/
inductive Phase where
  /-- Accepted at issue, nothing executed yet. -/
  | accepted
  /-- A decode whose frame checks passed stands before the cell block (40_commands.md R107 step 7). -/
  | cells (j : Job)
  /-- A decode stands before the attempt at fixed field `k` (step 8). -/
  | fixed (k : FixedField) (j : Job)
  /-- A decode stands at the loop test of the extra-field run (step 9). -/
  | extra (j : Job)
  /-- The extra-field run was left by its `break` (44_tagged_field.md R196). -/
  | finish (j : Job)
deriving DecidableEq, Repr

/-- The in-flight command (10_state.md R41). -/
structure InFlight where
  word : Word
  snap : Snapshot
  phase : Phase
deriving DecidableEq, Repr

/-- The STATUS fields written outside a decode's result set (10_state.md R24). BUSY is `State.busy` (log 16). -/
structure Status where
  done : Bool
  err : Bool
  ecode : Ecode
  echo : Bool
deriving DecidableEq, Repr

/-- One host bus access: a bus address, the number of bytes accessed and, for a write, the data, of which only a
32-bit write has a use (20_memory.md R62). -/
inductive Access where
  | read (addr bytes : Nat)
  | write (addr bytes : Nat) (value : Word)
deriving DecidableEq, Repr

/-- An event of the environment, or the engine's turn (log 5). -/
inductive Input where
  /-- One host bus access. -/
  | host (a : Access)
  /-- An assertion of RESET (70_reset_and_hazards.md R250, R253). -/
  | reset
  /-- The engine moves; the host does nothing. -/
  | tick
  /-- The host's WAIT loop (30_encoding.md R94): it polls STATUS, the engine moving between polls, until BUSY reads 0
  (log 15). -/
  | wait
deriving DecidableEq, Repr

/-- What the bus port answered to the last host access (log 8). -/
inductive Reply where
  /-- No access was answered yet. -/
  | idle
  /-- A read, with its data. -/
  | data (v : Word)
  /-- A write, done or refused: the port does not tell the two apart (STATUS does). -/
  | written
  /-- A bus error (60_exceptions.md R224), with the data a read returns beside it. -/
  | busError (v : Word)
deriving DecidableEq, Repr

/-- The bytes of a buffer that the host has written: index and byte, indexes strictly rising. An index that is not
listed holds no value the model knows (70_reset_and_hazards.md R251, log 3). -/
abbrev Memory := List Host.Cell

/-- The canonical form of a memory: indexes strictly rising. An unlisted index has no value, and a listed one has, so
no entry equals what an unlisted index reads as. -/
abbrev Memory.wf (m : Memory) : Prop := (m.map (fun cell => cell.1)).Pairwise (· < ·)

/-- The state of CK16 with its configuration and its environment. -/
structure State where
  /-- The parameters of 00_scope.md R7, fixed for the machine (log 1). -/
  cfg : Config
  ctrl : Ctrl
  cmd : Word
  status : Status
  rxLen : Word
  winBase : Word
  winLen : Word
  csStart : Word
  csCount : Word
  csum : Half
  csacc : Word
  lkres : Word
  /-- The result set of the last decode: the Measurement Record, CELL, XE, the FR registers and STATUS bits [8] to
  [20] and [22]. -/
  dec : DecodeSet
  rxbuf : Memory
  cmdbuf : Memory
  /-- The model's own: the number of RESETs so far, for which unwritten bytes are drawn (log 4). -/
  epoch : Nat
  /-- The engine: none when IDLE, the in-flight command when BUSY (10_state.md R41). -/
  inflight : Option InFlight
  /-- The model's own: the events still to come (log 5). -/
  inputs : List Input
  /-- The model's own: the bus port's last answer (log 8). -/
  reply : Reply
deriving DecidableEq, Repr

/-- Why a step stops with a fault. -/
inductive Fault where
  /-- A host access at a bus address outside the block's 0x40000 offsets: what stands there is not part of CK16
  (20_memory.md R61). Raised by `hostAccess`. Safe: the model says nothing where the platform's bus goes on (log 9). -/
  | outsideBlock (addr : Nat)
deriving DecidableEq, Repr

/-- Why a step has no meaning. -/
inductive Refusal where
  /-- An instruction without a meaning yet; raised by no arm of exec. Safe. -/
  | notModelled (mnemonic : String)
  /-- The configuration is not legal: a model refuses it (00_scope.md R8, S9). Raised by `step`. Safe (log 10). -/
  | illegalConfig
  /-- A command executed while the engine holds no accepted command (40_commands.md R101). Raised by the commands'
  meanings when they are called out of turn; `step` never does. Safe (log 11). -/
  | noAcceptedCommand
  /-- An element executed while the engine does not stand where that element is tried (40_commands.md R107). Raised by
  the elements' meanings when they are called out of turn; `step` never does. Safe (log 11). -/
  | notAtElement
  /-- The engine holds a word that is no command; issue accepts none (40_commands.md R100), so no run reaches it.
  Raised by `engineStep`. Safe (log 11). -/
  | illegalInFlight (r : Reject)
deriving DecidableEq, Repr

/-- CTRL after reset, 0x00000004 (10_state.md R22, 70_reset_and_hazards.md R250). -/
def Ctrl.reset : Ctrl where
  irqEn := false
  csumStrict := false
  endCheck := true

/-- STATUS after reset, 0 (70_reset_and_hazards.md R250). -/
def Status.reset : Status where
  done := false
  err := false
  ecode := .none
  echo := false

/-- The machine of a configuration right after power-on (70_reset_and_hazards.md R250), no event pending. The values of
the model's own fields `epoch`, `inputs` and `reply` are DESIGN CHOICE (log 4, 5, 8). -/
def State.resetOf (c : Config) : State where
  cfg := c
  ctrl := Ctrl.reset
  cmd := 0
  status := Status.reset
  rxLen := 0
  winBase := 0
  winLen := 0
  csStart := 0
  csCount := 0
  csum := 0
  csacc := 0
  lkres := 0
  dec := DecodeSet.default
  rxbuf := []
  cmdbuf := []
  epoch := 0
  inflight := none
  inputs := []
  reply := .idle

/-- The machine right after reset, in the default configuration (log 1). -/
def State.reset : State := State.resetOf Config.default

end Sys2Proof.Machine
end

