-- ==== Sys2Proof/Machine/Ops.lean ====
section
/-! DEFINITION. The named operations over buffers, registers and the engine: buffer bytes and words
(20_memory.md R65), the refusal, which is the block's only error entry, and its acknowledgement (60_exceptions.md R223,
R228), acceptance and commit of a command (40_commands.md R100, R102), soft and hard reset (70_reset_and_hazards.md
R250, R252). -/

namespace Sys2Proof.Machine

/-! ### Buffers -/

/-- The byte the host last wrote at index `i`; none if it wrote none. -/
def Memory.get? : Memory → Nat → Option Byte
  | [], _ => none
  | (b, v) :: m, i => if b = i then some v else Memory.get? m i

/-- The buffer after byte `v` is written at index `i`. -/
def Memory.set (i : Nat) (v : Byte) : Memory → Memory
  | [] => [(i, v)]
  | (b, u) :: m =>
    if i < b then (i, v) :: (b, u) :: m
    else if i = b then (i, v) :: m
    else (b, u) :: Memory.set i v m

/-- Byte lane `j` of a bus word (20_memory.md R65: little-endian lanes). -/
def laneOf (v : Word) (j : Nat) : Byte := v.extractLsb' (8 * j) 8

/-- Writes the lanes `j`, `j+1`, .. (`lanes` of them) of a bus word at indexes `k+j`, .. that lie inside a buffer of
`size` bytes; the other lanes are ignored (20_memory.md R61, R65). -/
def Memory.setLanes (size k : Nat) (v : Word) : Nat → Nat → Memory → Memory
  | _, 0, m => m
  | j, lanes + 1, m =>
    Memory.setLanes size k v (j + 1) lanes (if k + j < size then Memory.set (k + j) (laneOf v j) m else m)

/-- A word write at buffer index `k` (20_memory.md R65). -/
def Memory.setWord (size k : Nat) (v : Word) (m : Memory) : Memory := Memory.setLanes size k v 0 4 m

/-- The stored bytes of a buffer. -/
def State.bufferOf (s : State) : Buffer → Memory
  | .rxbuf => s.rxbuf
  | .cmdbuf => s.cmdbuf

/-- RXBUF_SIZE or 21 (10_state.md R45, R46). -/
def bufferSize (c : Config) : Buffer → Nat
  | .rxbuf => c.rxbufSize
  | .cmdbuf => cmdLen

/-- Byte `i` of a buffer: what the host last wrote there, else the draw of the last power-on or RESET
(70_reset_and_hazards.md R251). -/
def State.bufByte (s : State) (b : Buffer) (i : Nat) : Byte :=
  (Memory.get? (s.bufferOf b) i).getD (Config.powerOnByte s.epoch b i)

/-- `RX(i)` (00_scope.md R13). -/
def State.rx (s : State) (i : Nat) : Byte := s.bufByte .rxbuf i

/-- `CB(i)` (00_scope.md R13). -/
def State.cb (s : State) (i : Nat) : Byte := s.bufByte .cmdbuf i

/-- The `n` bytes of a buffer from index `i` up. -/
def State.bufBytes (s : State) (b : Buffer) (i : Nat) : Nat → List Byte
  | 0 => []
  | n + 1 => s.bufByte b i :: State.bufBytes s b (i + 1) n

/-- Byte `i` of a buffer as a bus word sees it: 0 beyond the buffer (20_memory.md R61, R63). -/
def State.laneByte (s : State) (b : Buffer) (i : Nat) : Byte :=
  if i < bufferSize s.cfg b then s.bufByte b i else 0

/-- The bus word at buffer index `k` (20_memory.md R65). -/
def State.bufWord (s : State) (b : Buffer) (k : Nat) : Word :=
  s.laneByte b (k + 3) ++ s.laneByte b (k + 2) ++ s.laneByte b (k + 1) ++ s.laneByte b k

/-- A bus word written at buffer index `k`. -/
def State.setBufWord (s : State) (b : Buffer) (k : Nat) (v : Word) : State :=
  match b with
  | .rxbuf => { s with rxbuf := Memory.setWord s.cfg.rxbufSize k v s.rxbuf }
  | .cmdbuf => { s with cmdbuf := Memory.setWord cmdLen k v s.cmdbuf }

/-! ### Refusal and acknowledgement -/

/-- STATUS.BUSY: a command is in flight (10_state.md R24, R41; log 16). -/
def State.busy (s : State) : Bool := s.inflight.isSome

/-- `refuse(code)`: ERR and ECODE, nothing else (60_exceptions.md R223). -/
def refuse (code : Ecode) (s : State) : State := { s with status := { s.status with err := true, ecode := code } }

/-- A write that BUSY refuses: `t` is the state it would leave (60_exceptions.md R223, BUSY_WRITE). -/
def refuseIfBusy (s t : State) : State := if s.busy then refuse .busyWrite s else t

/-- A host write of `v` to STATUS, the acknowledgement: bit 1 clears DONE, bit 2 clears ERR and ECODE, every other bit
is ignored, in every phase (10_state.md R24, 60_exceptions.md R228). -/
def acknowledge (v : Word) (s : State) : State :=
  { s with
    status :=
      { s.status with
        done := if v.getLsbD 1 then false else s.status.done
        err := if v.getLsbD 2 then false else s.status.err
        ecode := if v.getLsbD 2 then .none else s.status.ecode } }

/-! ### Acceptance and commit -/

/-- The snapshot an issue takes (10_state.md R41). -/
def State.snapshot (s : State) : Snapshot where
  ctrl := s.ctrl
  rxLen := s.rxLen
  winBase := s.winBase
  winLen := s.winLen
  csStart := s.csStart
  csCount := s.csCount

/-- The last two lines of 40_commands.md R100: DONE is cleared, BUSY set, and the engine holds the word and the
snapshot. -/
def accept (w : Word) (s : State) : State :=
  { s with
    status := { s.status with done := false }
    inflight := some { word := w, snap := s.snapshot, phase := .accepted } }

/-- What every commit does beside writing the result set: BUSY is cleared, DONE set (40_commands.md R102). -/
def commit (s : State) : State := { s with inflight := none, status := { s.status with done := true } }

/-- The registers an extraction writes at commit (40_commands.md R103, R105). -/
def installExtraction (e : Extraction) (s : State) : State :=
  { s with winBase := e.base, winLen := e.len, status := { s.status with echo := e.echo } }

/-- The commit of a decode with its result set, and with the extractor's for an EXTRACT_DECODE (40_commands.md R102,
R103, R108). -/
def commitDecode (e : Option Extraction) (set : DecodeSet) (s : State) : State :=
  match e with
  | none => commit { s with dec := set }
  | some e => commit (installExtraction e { s with dec := set })

/-- The engine moves on to a phase of the command in flight. -/
def State.withPhase (s : State) (f : InFlight) (p : Phase) : State := { s with inflight := some { f with phase := p } }

/-! ### Where the engine stands -/

/-- The command in flight, where it was accepted and nothing of it executed. -/
def State.acceptedCommand (s : State) : Option InFlight :=
  match s.inflight with
  | some f => if f.phase = .accepted then some f else none
  | none => none

/-- The decode that stands before its cell block. -/
def State.atCells (s : State) : Option (InFlight × Job) :=
  match s.inflight with
  | some { word := w, snap := p, phase := .cells j } => some ({ word := w, snap := p, phase := .cells j }, j)
  | _ => none

/-- The decode that stands before the attempt at fixed field `k`. -/
def State.atFixed (s : State) (k : FixedField) : Option (InFlight × Job) :=
  match s.inflight with
  | some { word := w, snap := p, phase := .fixed k' j } =>
    if k' = k then some ({ word := w, snap := p, phase := .fixed k' j }, j) else none
  | _ => none

/-- The decode that stands at the loop test of its extra-field run. -/
def State.atExtra (s : State) : Option (InFlight × Job) :=
  match s.inflight with
  | some { word := w, snap := p, phase := .extra j } => some ({ word := w, snap := p, phase := .extra j }, j)
  | _ => none

/-! ### Reset -/

/-- `soft_reset()`: every register takes its reset value; the buffers and the FCT keep theirs (70_reset_and_hazards.md
R252). -/
def softReset (s : State) : State :=
  { State.resetOf s.cfg with
    rxbuf := s.rxbuf
    cmdbuf := s.cmdbuf
    epoch := s.epoch
    inputs := s.inputs
    reply := s.reply }

/-- RESET: the state of 70_reset_and_hazards.md R250 in any phase, a command in flight abandoned (R253), every buffer
byte unspecified anew (R251). The environment's events and the port's last answer are not the block's (log 14). -/
def hardReset (s : State) : State :=
  { State.resetOf s.cfg with
    epoch := s.epoch + 1
    inputs := s.inputs
    reply := s.reply }

end Sys2Proof.Machine
end

