-- ==== Sys2Proof/Machine/Flags.lean ====
section
/-! DEFINITION. STATUS as the word the host reads (10_state.md R24), the codes of ECODE and RESULT (60_exceptions.md
R220, R223), the interrupt output (10_state.md R48), and the flag each stage of a decode sets (60_exceptions.md R222). -/

namespace Sys2Proof.Machine

/-- The code of an ECODE (60_exceptions.md R223). -/
def Ecode.code : Ecode → BitVec 4
  | .none => 0
  | .illegalCmd => 1
  | .range => 2
  | .busy => 3
  | .busyWrite => 4

/-- The code of a RESULT (60_exceptions.md R220). -/
def ResultCode.code : ResultCode → BitVec 4
  | .none => 0
  | .ok => 1
  | .short => 2
  | .badStart => 3
  | .incomplete => 4
  | .csumFatal => 5
  | .noPayload => 6
  | .badEnd => 7
  | .noCells => 8

/-- One bit of a register. -/
def bit (b : Bool) : BitVec 1 := BitVec.ofBool b

/-- STATUS bits [20:12], from the highest down (10_state.md R24). -/
def Flags.bits (f : Flags) : BitVec 9 :=
  bit f.txtTrunc ++ bit f.xdup ++ bit f.xunk ++ bit f.xovr ++ bit f.xcap ++ bit f.cellShort ++ bit f.cellCap ++
    bit f.celltagBad ++ bit f.csumBad

/-- STATUS as a host read returns it (10_state.md R24). -/
def State.statusWord (s : State) : Word :=
  0#9 ++ bit s.dec.valid ++ bit s.status.echo ++ s.dec.flags.bits ++ s.dec.result.code ++ s.status.ecode.code ++
    0#1 ++ bit s.status.err ++ bit s.status.done ++ bit s.busy

/-- CTRL as a host read returns it: bits [31:3] read 0 (10_state.md R22). -/
def Ctrl.toWord (c : Ctrl) : Word := 0#29 ++ bit c.endCheck ++ bit c.csumStrict ++ bit c.irqEn

/-- CTRL as a host write leaves it: bits [31:3] are ignored (10_state.md R22). -/
def Ctrl.ofWord (v : Word) : Ctrl where
  irqEn := v.getLsbD 0
  csumStrict := v.getLsbD 1
  endCheck := v.getLsbD 2

/-- The interrupt output, a level, a function of other state (10_state.md R48, 60_exceptions.md R229). -/
def State.irq (s : State) : Bool := s.ctrl.irqEn && (s.status.done || s.status.err)

/-- CELLTAG_BAD of 43_fixed_field.md R160. -/
def celltagBad (c : Config) (tag : Byte) : Bool := decide (tag ≠ c.cellTag)

/-- XCAP of 44_tagged_field.md R200: the capacity stopped the run with payload bytes left unread. -/
def xcapAtEnd (c : Config) (j : Job) : Bool := decide (j.x = c.maxExtra) && decide (j.off < j.pe)

/-- `set XUNK` (44_tagged_field.md R194). -/
def Flags.setXunk (f : Flags) : Flags := { f with xunk := true }

/-- `set XDUP` (44_tagged_field.md R195). -/
def Flags.setXdup (f : Flags) : Flags := { f with xdup := true }

/-- `set XOVR` (44_tagged_field.md R196). -/
def Flags.setXovr (f : Flags) : Flags := { f with xovr := true }

/-- TXT_TRUNC after a text field: set where the text was cut, else kept (44_tagged_field.md R199). -/
def Flags.orTxtTrunc (f : Flags) (cut : Bool) : Flags := { f with txtTrunc := f.txtTrunc || cut }

end Sys2Proof.Machine
end

