-- ==== Sys2Proof/Machine/Operands.lean ====
section
/-! DEFINITION. How frame bytes become values: the Checksum-16 adder (42_checksum16.md), the extractor
(41_frame_boundary.md R130), the cell loop and its statistics (43_fixed_field.md R161 to R165), the value decodes of the
fixed fields (R173 to R176), the numeric and text values of extra fields (44_tagged_field.md R198, R199), the result word
of LOOKUP (40_commands.md R110). -/

namespace Sys2Proof.Machine

/-! ### The adder -/

/-- The adder's accumulator over a list of bytes, 32 bits wide and unsigned (42_checksum16.md R150). -/
def ck16 (bytes : List Byte) : Word := bytes.foldl (fun acc v => acc + v.setWidth 32) 0

/-- `sum16`, the accumulator's low 16 bits (42_checksum16.md R150). -/
def sum16 (acc : Word) : Half := acc.setWidth 16

/-! ### The window -/

/-- `b(i)`, byte `i` of the window that starts at RXBUF index `base` (00_scope.md R13). -/
def State.windowByte (s : State) (base i : Nat) : Byte := s.rx (base + i)

/-- `be16(i)` of the window (00_scope.md R13, 20_memory.md R64). -/
def State.windowBe16 (s : State) (base i : Nat) : Half := be16Of (s.windowByte base i) (s.windowByte base (i + 1))

/-- The window's bytes from offset `i` up to, not including, offset `stop`. -/
def State.windowBytes (s : State) (base i stop : Nat) : List Byte := s.bufBytes .rxbuf (base + i) (stop - i)

/-! ### The extractor -/

/-- The first `n` bytes of RXBUF from index `i` up equal those of CMDBUF. -/
def State.echoMatches (s : State) (i : Nat) : Nat → Bool
  | 0 => true
  | n + 1 => decide (s.rx i = s.cb i) && State.echoMatches s (i + 1) n

/-- `extract(N)` (41_frame_boundary.md R130): one leading copy of the command is stripped, unless nothing would remain. -/
def State.extraction (s : State) (len : Word) : Extraction :=
  if cmdLen ≤ len.toNat && s.echoMatches 0 cmdLen && decide (0 < len.toNat - cmdLen) then
    { base := BitVec.ofNat 32 cmdLen, len := BitVec.ofNat 32 (len.toNat - cmdLen), echo := true }
  else { base := 0, len := len, echo := false }

/-! ### Cells -/

/-- What the cell loop leaves: the decoded cells and why it stopped early, if it did. -/
structure CellRun where
  cells : List CellEntry
  cap : Bool
  short : Bool
deriving DecidableEq, Repr

/-- One more cell before those of a run. -/
def CellRun.push (e : CellEntry) (r : CellRun) : CellRun := { r with cells := e :: r.cells }

/-- The cell loop (43_fixed_field.md R161, R162): `k` cells still to decode, `n` decoded, the entry bytes that are left
inside the frame. The capacity test comes before the length test. -/
def cellLoop (maxCells : Nat) : Nat → Nat → List Byte → CellRun
  | 0, _, _ => { cells := [], cap := false, short := false }
  | k + 1, n, bytes =>
    if n = maxCells then { cells := [], cap := true, short := false }
    else
      match bytes with
      | info :: hi :: lo :: rest =>
        (cellLoop maxCells k (n + 1) rest).push { info := info, mv := be16Of hi lo }
      | _ => { cells := [], cap := false, short := true }

/-- The minimum tracker after a cell: cells of 0 mV are ignored (43_fixed_field.md R164). -/
def trackMinStep (m mv : Half) : Half :=
  if mv = 0 then m else if m = 0 then mv else if mv.toNat < m.toNat then mv else m

/-- The maximum tracker after a cell (43_fixed_field.md R164). -/
def trackMaxStep (m mv : Half) : Half := if m.toNat < mv.toNat then mv else m

/-- The minimum over the cells above 0 mV, 0 where there is none (43_fixed_field.md R164). -/
def cellsMin (cells : List CellEntry) : Half := cells.foldl (fun m e => trackMinStep m e.mv) 0

/-- The maximum over the cells (43_fixed_field.md R164). -/
def cellsMax (cells : List CellEntry) : Half := cells.foldl (fun m e => trackMaxStep m e.mv) 0

/-- REC_CELLHDR (10_state.md R42, 43_fixed_field.md R160). -/
def cellHeader (tag bc : Byte) : Word := 0#15 ++ 1#1 ++ bc ++ tag

/-- The statistics registers after a cell loop: written only where a cell was decoded (43_fixed_field.md R164, R165). -/
def Record.withStats (r : Record) (n : Nat) (lo hi : Half) : Record :=
  if n = 0 then r else { r with vmin := lo, vmax := hi, vdelta := hi - lo }

/-! ### Fixed-field values -/

/-- `temp(raw)` in degrees Celsius (43_fixed_field.md R173). -/
def temp (raw : Half) : Int :=
  if tempSplit < raw.toNat then -((raw.toNat : Int) - (tempSplit : Int)) else (raw.toNat : Int)

/-- `vpack(raw)` in centivolts (43_fixed_field.md R174). -/
def vpack (raw : Half) : Half := raw

/-- `current(raw, LENF)` in centiamperes; LENF selects the encoding (43_fixed_field.md R175). -/
def current (raw lenf : Half) : Int :=
  if lenf.toNat < curSplit then
    if raw.getLsbD 15 then ((raw.extractLsb' 0 15).toNat : Int) else -((raw.extractLsb' 0 15).toNat : Int)
  else (curZero : Int) - (raw.toNat : Int)

/-- `soc(raw)` in percent, taken literally (43_fixed_field.md R176). -/
def soc (raw : Byte) : Byte := raw

/-- A signed value as a register marked signed 32 holds it (00_scope.md R10). -/
def signed32 (v : Int) : Word := BitVec.ofInt 32 v

/-- REC_FIXVALID with the bit of field `k` set (10_state.md R42). -/
def setFixvalid (v : BitVec 6) : FixedField → BitVec 6
  | .tmos => v ||| 0b000001
  | .tp1 => v ||| 0b000010
  | .tp2 => v ||| 0b000100
  | .vpack => v ||| 0b001000
  | .ipack => v ||| 0b010000
  | .soc => v ||| 0b100000

/-- The fixed field tried after field `k` (30_encoding.md R88); none after the last. -/
def nextField : FixedField → Option FixedField
  | .tmos => some .tp1
  | .tp1 => some .tp2
  | .tp2 => some .vpack
  | .vpack => some .ipack
  | .ipack => some .soc
  | .soc => none

/-! ### Extra-field values -/

/-- The big-endian unsigned value of a list of bytes (44_tagged_field.md R198). -/
def bignum (bytes : List Byte) : Nat := bytes.foldl (fun acc v => acc * 256 + v.toNat) 0

/-- XE_VALUE: the low 32 bits of the big-endian value (44_tagged_field.md R198). -/
def xeValue (bytes : List Byte) : Word := BitVec.ofNat 32 (bignum bytes)

/-- A printable byte, 0x20 to 0x7E (44_tagged_field.md R199). -/
def printable (v : Byte) : Bool := decide (0x20 ≤ v.toNat) && decide (v.toNat ≤ 0x7E)

/-- The longest prefix of printable bytes (44_tagged_field.md R199). -/
def printableRun (bytes : List Byte) : List Byte := bytes.takeWhile printable

/-- The characters kept of a text value (44_tagged_field.md R199). -/
def textOf (c : Config) (bytes : List Byte) : List Byte := (printableRun bytes).take c.textCap

/-- TXT_TRUNC of a text value: its printable run was cut (44_tagged_field.md R199). -/
def textCut (c : Config) (bytes : List Byte) : Bool := decide (c.textCap < (printableRun bytes).length)

/-- `entry(t, k, OFF)` for a row and the value bytes after the tag (44_tagged_field.md R197): XE_VALUE for both kinds,
a text only for TEXT. -/
def xentry (c : Config) (row : FctRow) (t : Byte) (bytes : List Byte) : XEntry where
  tag := t
  kind := row.kind
  width := BitVec.ofNat 5 row.width
  value := xeValue bytes
  text :=
    match row.kind with
    | .numeric => []
    | .text => textOf c bytes

/-- Whether recording the field sets TXT_TRUNC (44_tagged_field.md R197, R199). -/
def xentryCut (c : Config) (row : FctRow) (bytes : List Byte) : Bool :=
  match row.kind with
  | .numeric => false
  | .text => textCut c bytes

/-- The KIND bit (10_state.md R44, 30_encoding.md R90). -/
def kindBit : Kind → BitVec 1
  | .numeric => 0
  | .text => 1

/-- LKRES of a LOOKUP (10_state.md R32, 40_commands.md R110). -/
def lookupWord (c : Config) (t : Byte) : Word :=
  match fctLookup c t with
  | some (k, r) => BitVec.ofNat 8 k ++ 0#3 ++ BitVec.ofNat 5 r.width ++ 0#6 ++ kindBit r.kind ++ 1#1 ++ t
  | none => 0#24 ++ t

end Sys2Proof.Machine
end

