-- ==== Sys2Proof/Machine/Frame.lean ====
section
/-! DEFINITION. The stages of a decode that are no element: steps 1 to 6 and the end-marker check
(41_frame_boundary.md R132 to R137, 42_checksum16.md R152, R153), the move past a fixed field, the end of the
extra-field run and completion (43_fixed_field.md R177, 44_tagged_field.md R200). -/

namespace Sys2Proof.Machine

/-- FR_LEN with LEN_VALID set (10_state.md R33, 41_frame_boundary.md R134). -/
def frLenWord (lenf : Half) : Word := 0#15 ++ 1#1 ++ lenf

/-- FR_CSUM (10_state.md R34, 42_checksum16.md R152). -/
def frCsumWord (stored comp : Half) : Word := stored ++ comp

/-- The result set of a soft failure: DEFAULT with its RESULT and what the stages before it wrote
(40_commands.md R113). -/
def softFailure (frLen frCsum frPend : Word) (csumBad : Bool) (code : ResultCode) : DecodeSet :=
  { DecodeSet.default with
    frLen := frLen
    frCsum := frCsum
    frPend := frPend
    result := code
    flags := { Flags.clear with csumBad := csumBad } }

/-- The decode whose frame checks passed, before its cell block. OFF stands at PAYLOAD_START (log 7). -/
def startJob (ex : Option Extraction) (base : Nat) (lenf : Half) (acc : Word) (total eff : Nat) (stored : Half) : Job where
  extraction := ex
  base := base
  lenf := lenf
  acc := acc
  total := total
  eff := eff
  pe := eff - 9
  off := payloadStart
  n := 0
  x := 0
  trackMin := 0
  trackMax := 0
  seen := []
  set :=
    { DecodeSet.default with
      frLen := frLenWord lenf
      frCsum := frCsumWord stored (sum16 acc)
      frPend := BitVec.ofNat 32 (eff - 9)
      flags := { Flags.clear with csumBad := decide (sum16 acc ≠ stored) } }

/-- Steps 1 to 6 and the end-marker check on the window of `len` bytes at RXBUF index `base`
(40_commands.md R107): the result set of the first stage that fails (60_exceptions.md R226), or the decode that goes on. -/
def State.frameChecks (s : State) (ctrl : Ctrl) (ex : Option Extraction) (base len : Nat) : Except DecodeSet Job :=
  let b := s.windowByte base
  if len < minFrame then .error (softFailure 0 0 0 false .short)
  else if b 0 ≠ s.cfg.start0 ∨ b 1 ≠ s.cfg.start1 then .error (softFailure 0 0 0 false .badStart)
  else
    let lenf := s.windowBe16 base 2
    let total := 2 + lenf.toNat
    if len < total then .error (softFailure (frLenWord lenf) 0 0 false .incomplete)
    else
      let eff := min total len
      let acc := ck16 (s.windowBytes base 0 (eff - 4))
      let stored := s.windowBe16 base (eff - 2)
      let bad := decide (sum16 acc ≠ stored)
      if bad && ctrl.csumStrict then
        .error (softFailure (frLenWord lenf) (frCsumWord stored (sum16 acc)) 0 bad .csumFatal)
      else if eff ≤ 20 then .error (softFailure (frLenWord lenf) (frCsumWord stored (sum16 acc)) 0 bad .noPayload)
      else if ctrl.endCheck && decide (b (eff - 5) ≠ s.cfg.endMarker) then
        .error
          (softFailure (frLenWord lenf) (frCsumWord stored (sum16 acc)) (BitVec.ofNat 32 (eff - 9)) bad .badEnd)
      else .ok (startJob ex base lenf acc total eff stored)

/-- A decode begun on a window: a soft failure commits at once (40_commands.md R113), else the engine goes on to the
cell block. -/
def State.startDecode (s : State) (f : InFlight) (ex : Option Extraction) (base len : Nat) : State :=
  match s.frameChecks f.snap.ctrl ex base len with
  | .error set => commitDecode ex set s
  | .ok j => s.withPhase f (.cells j)

/-- The phase after the attempt at fixed field `k`: the next field, or after the last the extra-field run, whose start
FR_XOFF records (40_commands.md R107 step 8, 44_tagged_field.md R192). -/
def phaseAfterFixed (k : FixedField) (j : Job) : Phase :=
  match nextField k with
  | some k' => .fixed k' j
  | none => .extra { j with set := { j.set with frXoff := BitVec.ofNat 32 j.off } }

/-- The loop test of the extra-field run (44_tagged_field.md R193). -/
def extraGoesOn (c : Config) (j : Job) : Bool := decide (j.off < j.pe) && decide (j.x < c.maxExtra)

/-- The end of the run and completion: XCAP, REC_NEXTRA, FR_EOFF, RESULT and VALID (44_tagged_field.md R200,
43_fixed_field.md R177). -/
def completed (c : Config) (j : Job) : DecodeSet :=
  { j.set with
    record := { j.set.record with nextra := BitVec.ofNat 8 j.x }
    flags := { j.set.flags with xcap := xcapAtEnd c j }
    frEoff := BitVec.ofNat 32 j.off
    result := if 1 ≤ j.n then .ok else .noCells
    valid := decide (1 ≤ j.n) }

end Sys2Proof.Machine
end

