-- ==== Sys2Proof/Machine/Commands.lean ====
section
/-! DEFINITION. The seven commands (40_commands.md R104 to R111): what the engine does with an accepted command, from
its snapshot to its commit. DECODE and EXTRACT_DECODE run the frame checks and go on to the payload's elements
(Elements.lean). The checks of the issuing write stand in Bus.lean. -/

namespace Sys2Proof.Machine

/-- What a step or an instruction answers. -/
abbrev Result := Host.Outcome State Fault Refusal

/-- A command's execution: from the command in flight, refused where none was accepted (log 11). -/
def runCommand (s : State) (body : InFlight → State) : Result :=
  match s.acceptedCommand with
  | some f => .next (body f)
  | none => .refused .noAcceptedCommand

/-- NOP: nothing but the commit (40_commands.md R104). -/
def execNop (s : State) : Result := runCommand s (fun _ => commit s)

/-- EXTRACT: WIN_BASE, WIN_LEN and ECHO from the extractor (40_commands.md R105). -/
def execExtract (s : State) : Result :=
  runCommand s (fun f => commit (installExtraction (s.extraction f.snap.rxLen) s))

/-- DECODE: the pipeline of 40_commands.md R107 on the window of the snapshot (R106). -/
def execDecode (s : State) : Result :=
  runCommand s (fun f => s.startDecode f none f.snap.winBase.toNat f.snap.winLen.toNat)

/-- EXTRACT_DECODE: the extractor, then the pipeline on the window it gives (40_commands.md R108). -/
def execExtractDecode (s : State) : Result :=
  runCommand s (fun f =>
    s.startDecode f (some (s.extraction f.snap.rxLen)) (s.extraction f.snap.rxLen).base.toNat
      (s.extraction f.snap.rxLen).len.toNat)

/-- CSUM16: CSACC and CSUM of CS_COUNT bytes from CS_START up in the selected buffer (40_commands.md R109). -/
def execCsum16 (src : Buffer) (s : State) : Result :=
  runCommand s (fun f =>
    commit
      { s with
        csacc := ck16 (s.bufBytes src f.snap.csStart.toNat f.snap.csCount.toNat)
        csum := sum16 (ck16 (s.bufBytes src f.snap.csStart.toNat f.snap.csCount.toNat)) })

/-- LOOKUP: LKRES from the Field Code Table (40_commands.md R110). -/
def execLookup (tag : Byte) (s : State) : Result :=
  runCommand s (fun _ => commit { s with lkres := lookupWord s.cfg tag })

/-- SRESET: the soft reset, with no BUSY phase and no commit; the issuing write refuses it while BUSY
(40_commands.md R111, 70_reset_and_hazards.md R252). -/
def execSreset (s : State) : Result := .next (softReset s)

end Sys2Proof.Machine
end

