-- ==== Sys2Proof/Machine/Bus.lean ====
section
/-! DEFINITION. The host's side of the block: the address map (20_memory.md R61), what each offset reads (10_state.md)
and what a write does there (20_memory.md R63, R68, 60_exceptions.md R223), the issue of a command (40_commands.md R100)
and one bus access (20_memory.md R62, 60_exceptions.md R224). -/

namespace Sys2Proof.Machine

/-- The named registers of 10_state.md R21 to R38 and R42. -/
inductive Reg where
  | id | ctrl | cmd | status | rxLen | winBase | winLen | csStart | csCount | csum | csacc | lkres
  | frLen | frCsum | frPend | frXoff | frEoff | cfg0 | cfg1 | cfg2 | cfg3 | cfg4
  | recNcells | recVmin | recVmax | recVdelta | recTmos | recTp1 | recTp2 | recVpack | recIpack | recSoc
  | recFixvalid | recNextra | recCellhdr
deriving DecidableEq, Repr

/-- What an offset of the host register space addresses (20_memory.md R61). -/
inductive Loc where
  | reg (r : Reg)
  /-- CELL[i]. -/
  | cell (i : Nat)
  /-- Word `w` of XE[j]: 0 the header, 1 the value, 2 to 15 the text. -/
  | xe (j w : Nat)
  /-- FCT[k]. -/
  | fct (k : Nat)
  /-- The bus word at a buffer index. -/
  | buffer (b : Buffer) (k : Nat)
  /-- RAZ/WI. -/
  | reserved
deriving DecidableEq, Repr

/-- The offset of a named register (10_state.md R21 to R38, R42). -/
def Reg.offset : Reg → Nat
  | .id => 0x000
  | .ctrl => 0x004
  | .cmd => 0x008
  | .status => 0x00C
  | .rxLen => 0x010
  | .winBase => 0x014
  | .winLen => 0x018
  | .csStart => 0x01C
  | .csCount => 0x020
  | .csum => 0x024
  | .csacc => 0x028
  | .lkres => 0x02C
  | .frLen => 0x030
  | .frCsum => 0x034
  | .frPend => 0x038
  | .frXoff => 0x03C
  | .frEoff => 0x040
  | .cfg0 => 0x044
  | .cfg1 => 0x048
  | .cfg2 => 0x04C
  | .cfg3 => 0x050
  | .cfg4 => 0x054
  | .recNcells => 0x080
  | .recVmin => 0x084
  | .recVmax => 0x088
  | .recVdelta => 0x08C
  | .recTmos => 0x090
  | .recTp1 => 0x094
  | .recTp2 => 0x098
  | .recVpack => 0x09C
  | .recIpack => 0x0A0
  | .recSoc => 0x0A4
  | .recFixvalid => 0x0A8
  | .recNextra => 0x0AC
  | .recCellhdr => 0x0B0

/-- Every named register. -/
def allRegs : List Reg :=
  [.id, .ctrl, .cmd, .status, .rxLen, .winBase, .winLen, .csStart, .csCount, .csum, .csacc, .lkres] ++
  [.frLen, .frCsum, .frPend, .frXoff, .frEoff, .cfg0, .cfg1, .cfg2, .cfg3, .cfg4] ++
  [.recNcells, .recVmin, .recVmax, .recVdelta, .recTmos, .recTp1, .recTp2, .recVpack, .recIpack, .recSoc] ++
  [.recFixvalid, .recNextra, .recCellhdr]

/-- The address map (20_memory.md R61), for an offset that is a multiple of 4. -/
def locate (off : Nat) : Loc :=
  if off < 0x400 then
    match allRegs.find? (fun r => r.offset = off) with
    | some r => .reg r
    | none => .reserved
  else if off < 0x800 then .cell ((off - 0x400) / 4)
  else if off < 0x1000 then .xe ((off - 0x800) / 64) ((off - 0x800) % 64 / 4)
  else if off < 0x1400 then .fct ((off - 0x1000) / 4)
  else if off < 0x1800 then .reserved
  else if off < 0x1818 then .buffer .cmdbuf (off - 0x1800)
  else if off < 0x20000 then .reserved
  else .buffer .rxbuf (off - 0x20000)

/-! ### Reads -/

/-- The value of a named register (10_state.md R21 to R38, R42); unlisted bits read 0. -/
def State.readReg (s : State) : Reg → Word
  | .id => 0x434B3136
  | .ctrl => s.ctrl.toWord
  | .cmd => s.cmd
  | .status => s.statusWord
  | .rxLen => s.rxLen
  | .winBase => s.winBase
  | .winLen => s.winLen
  | .csStart => s.csStart
  | .csCount => s.csCount
  | .csum => s.csum.setWidth 32
  | .csacc => s.csacc
  | .lkres => s.lkres
  | .frLen => s.dec.frLen
  | .frCsum => s.dec.frCsum
  | .frPend => s.dec.frPend
  | .frXoff => s.dec.frXoff
  | .frEoff => s.dec.frEoff
  | .cfg0 => 0#8 ++ BitVec.ofNat 8 s.cfg.textCap ++ BitVec.ofNat 8 s.cfg.maxExtra ++ BitVec.ofNat 8 s.cfg.maxCells
  | .cfg1 => BitVec.ofNat 32 s.cfg.rxbufSize
  | .cfg2 => s.cfg.cellTag ++ s.cfg.endMarker ++ s.cfg.start1 ++ s.cfg.start0
  | .cfg3 => s.cfg.tagVpack ++ s.cfg.tagTp2 ++ s.cfg.tagTp1 ++ s.cfg.tagTmos
  | .cfg4 => 0#7 ++ BitVec.ofNat 9 s.cfg.fct.length ++ s.cfg.tagSoc ++ s.cfg.tagIpack
  | .recNcells => s.dec.record.ncells.setWidth 32
  | .recVmin => s.dec.record.vmin.setWidth 32
  | .recVmax => s.dec.record.vmax.setWidth 32
  | .recVdelta => s.dec.record.vdelta.setWidth 32
  | .recTmos => s.dec.record.tmos
  | .recTp1 => s.dec.record.tp1
  | .recTp2 => s.dec.record.tp2
  | .recVpack => s.dec.record.vpack.setWidth 32
  | .recIpack => s.dec.record.ipack
  | .recSoc => s.dec.record.soc.setWidth 32
  | .recFixvalid => s.dec.record.fixvalid.setWidth 32
  | .recNextra => s.dec.record.nextra.setWidth 32
  | .recCellhdr => s.dec.record.cellhdr

/-- A word of CELL (10_state.md R43). -/
def CellEntry.word (e : CellEntry) : Word := 0#8 ++ e.info ++ e.mv

/-- CELL[i]: 0 beyond the decoded cells, RAZ from MAX_CELLS on (10_state.md R43). -/
def State.readCell (s : State) (i : Nat) : Word :=
  if i < s.cfg.maxCells then
    match s.dec.cells[i]? with
    | some e => e.word
    | none => 0
  else 0

/-- Text byte `k` of an entry: 0 from TEXT_LEN on (10_state.md R44). -/
def XEntry.textByte (e : XEntry) (k : Nat) : Byte := e.text.getD k 0

/-- Word `w` of an XE entry (10_state.md R44). -/
def XEntry.word (e : XEntry) (w : Nat) : Word :=
  if w = 0 then BitVec.ofNat 8 e.text.length ++ 0#3 ++ e.width ++ 0#7 ++ kindBit e.kind ++ e.tag
  else if w = 1 then e.value
  else
    e.textByte (4 * (w - 2) + 3) ++ e.textByte (4 * (w - 2) + 2) ++ e.textByte (4 * (w - 2) + 1) ++
      e.textByte (4 * (w - 2))

/-- Word `w` of XE[j]: 0 beyond the recorded entries, RAZ from MAX_EXTRA on (10_state.md R44). -/
def State.readXe (s : State) (j w : Nat) : Word :=
  if j < s.cfg.maxExtra then
    match s.dec.xe[j]? with
    | some e => e.word w
    | none => 0
  else 0

/-- The read-back word of an FCT row (30_encoding.md R90). -/
def FctRow.word (r : FctRow) : Word := 1#1 ++ 0#14 ++ kindBit r.kind ++ 0#3 ++ BitVec.ofNat 5 r.width ++ r.code

/-- FCT[k] (10_state.md R47). -/
def State.readFct (s : State) (k : Nat) : Word :=
  match s.cfg.fct[k]? with
  | some r => FctRow.word r
  | none => 0

/-- What an offset reads; no read changes anything (20_memory.md R63, R68). -/
def State.readLoc (s : State) : Loc → Word
  | .reg r => s.readReg r
  | .cell i => s.readCell i
  | .xe j w => s.readXe j w
  | .fct k => s.readFct k
  | .buffer b k => s.bufWord b k
  | .reserved => 0

/-- `MemRead(off, 4)` (00_scope.md R13). -/
def State.readWord (s : State) (off : Nat) : Word := s.readLoc (locate off)

/-! ### Issue -/

/-- `range_fail` (40_commands.md R100); the sums are on unbounded integers. -/
def rangeFail (i : Instr) (s : State) : Bool :=
  match i with
  | .nop => false
  | .extract => decide (s.cfg.rxbufSize < s.rxLen.toNat)
  | .decode => decide (s.cfg.rxbufSize < s.winBase.toNat + s.winLen.toNat)
  | .extractDecode => decide (s.cfg.rxbufSize < s.rxLen.toNat)
  | .csum16 src => decide (bufferSize s.cfg src < s.csStart.toNat + s.csCount.toNat)
  | .lookup _ => false
  | .sreset => false
  | .cellBlock _ _ _ => false
  | .fixTmos _ => false
  | .fixTp1 _ => false
  | .fixTp2 _ => false
  | .fixVpack _ => false
  | .fixIpack _ => false
  | .fixSoc _ => false
  | .xfield _ _ => false

/-- A legal command written to CMD while BUSY = 0: SRESET acts, another command is range-checked and accepted
(40_commands.md R100). -/
def issueLegal (i : Instr) (w : Word) (s : State) : Result :=
  if i = .sreset then execSreset s
  else if rangeFail i s then .next (refuse .range s)
  else .next (accept w s)

/-- A host write of `w` to CMD, its checks in the order of 40_commands.md R100 (60_exceptions.md R225). -/
def issue (w : Word) (s : State) : Result :=
  if s.busy then .next (refuse .busy s)
  else
    match decodeCommand w with
    | .error _ => .next (refuse .illegalCmd { s with cmd := w })
    | .ok i => issueLegal i w { s with cmd := w }

/-! ### Writes -/

/-- A write to a named register (10_state.md R22 to R29; every other register is RO, 20_memory.md R63). -/
def writeReg (r : Reg) (v : Word) (s : State) : Result :=
  match r with
  | .ctrl => .next (refuseIfBusy s { s with ctrl := Ctrl.ofWord v })
  | .cmd => issue v s
  | .status => .next (acknowledge v s)
  | .rxLen => .next (refuseIfBusy s { s with rxLen := v })
  | .winBase => .next (refuseIfBusy s { s with winBase := v })
  | .winLen => .next (refuseIfBusy s { s with winLen := v })
  | .csStart => .next (refuseIfBusy s { s with csStart := v })
  | .csCount => .next (refuseIfBusy s { s with csCount := v })
  | _ => .next s

/-- A write to a buffer word: refused while BUSY where the word holds a byte of the buffer, ignored where it holds
none (60_exceptions.md R223). -/
def writeBuffer (b : Buffer) (k : Nat) (v : Word) (s : State) : State :=
  if k < bufferSize s.cfg b then refuseIfBusy s (s.setBufWord b k v) else s

/-- What a write to an offset does (20_memory.md R61, R63, R68). -/
def writeLoc (l : Loc) (v : Word) (s : State) : Result :=
  match l with
  | .reg r => writeReg r v s
  | .buffer b k => .next (writeBuffer b k v s)
  | .cell _ => .next s
  | .xe _ _ => .next s
  | .fct _ => .next s
  | .reserved => .next s

/-- `MemWrite(off, 4, v)` (00_scope.md R13). -/
def writeWord (off : Nat) (v : Word) (s : State) : Result := writeLoc (locate off) v s

/-! ### One bus access -/

/-- The bytes of the host register space (20_memory.md R60, R61). -/
def blockBytes : Nat := 0x40000

/-- The bus address lies in the block's register space (20_memory.md R60, R61). -/
def selects (c : Config) (addr : Nat) : Bool := decide (c.blockBase ≤ addr) && decide (addr < c.blockBase + blockBytes)

/-- A 32-bit access at a multiple of 4 (20_memory.md R62). -/
def wordAccess (off bytes : Nat) : Bool := decide (bytes = 4) && decide (off % 4 = 0)

/-- The host access at the head of the environment's events (20_memory.md R62, 60_exceptions.md R224; log 8, 9). -/
def hostAccess (a : Access) (s : State) : Result :=
  match a with
  | .read addr bytes =>
    if selects s.cfg addr then
      if wordAccess (addr - s.cfg.blockBase) bytes then
        .next { s with reply := .data (s.readWord (addr - s.cfg.blockBase)) }
      else .next { s with reply := .busError 0 }
    else .fault (.outsideBlock addr)
  | .write addr bytes v =>
    if selects s.cfg addr then
      if wordAccess (addr - s.cfg.blockBase) bytes then
        writeWord (addr - s.cfg.blockBase) v { s with reply := .written }
      else .next { s with reply := .busError 0 }
    else .fault (.outsideBlock addr)

end Sys2Proof.Machine
end

