-- ==== Sys2Proof/Machine/Elements.lean ====
section
/-! DEFINITION. The eight elements of a payload: what the engine does with the element it meets at OFF
(43_fixed_field.md R160 to R172, 44_tagged_field.md R193 to R199). Each moves the decode in flight; nothing the host can
read changes before the commit (10_state.md R49). -/

namespace Sys2Proof.Machine

/-- The cell block on the working registers: header, cells, statistics, and OFF just past the declared block
(43_fixed_field.md R160 to R165). -/
def cellStage (c : Config) (tag bc : Byte) (entries : List Byte) (j : Job) : Job :=
  let run := cellLoop c.maxCells (bc.toNat / 3) 0 entries
  let n := run.cells.length
  let lo := cellsMin run.cells
  let hi := cellsMax run.cells
  { j with
    off := payloadStart + 2 + bc.toNat
    n := n
    trackMin := lo
    trackMax := hi
    set :=
      { j.set with
        record :=
          Record.withStats { j.set.record with ncells := BitVec.ofNat 8 n, cellhdr := cellHeader tag bc } n lo hi
        cells := run.cells
        flags :=
          { j.set.flags with
            celltagBad := celltagBad c tag
            cellCap := run.cap
            cellShort := run.short } } }

/-- CELL_BLOCK at offset 11; the six fixed fields are tried next (43_fixed_field.md R160 to R165). -/
def execCellBlock (tag bc : Byte) (entries : List Byte) (s : State) : Result :=
  match s.atCells with
  | some (f, j) => .next (s.withPhase f (.fixed .tmos (cellStage s.cfg tag bc entries j)))
  | none => .refused .notAtElement

/-- A matched fixed field on the working registers: its record, its REC_FIXVALID bit, OFF past its value
(43_fixed_field.md R166). -/
def fixedStage (k : FixedField) (r : Record) (j : Job) : Job :=
  { j with
    off := j.off + 1 + k.width
    set := { j.set with record := { r with fixvalid := setFixvalid r.fixvalid k } } }

/-- A matched fixed field `k`: `write` stores its value in the record (43_fixed_field.md R166). -/
def runFixed (k : FixedField) (write : Job → Record) (s : State) : Result :=
  match s.atFixed k with
  | some (f, j) => .next (s.withPhase f (phaseAfterFixed k (fixedStage k (write j) j)))
  | none => .refused .notAtElement

/-- FIX_TMOS (43_fixed_field.md R167). -/
def execFixTmos (raw : Half) (s : State) : Result :=
  runFixed .tmos (fun j => { j.set.record with tmos := signed32 (temp raw) }) s

/-- FIX_TP1 (43_fixed_field.md R168). -/
def execFixTp1 (raw : Half) (s : State) : Result :=
  runFixed .tp1 (fun j => { j.set.record with tp1 := signed32 (temp raw) }) s

/-- FIX_TP2 (43_fixed_field.md R169). -/
def execFixTp2 (raw : Half) (s : State) : Result :=
  runFixed .tp2 (fun j => { j.set.record with tp2 := signed32 (temp raw) }) s

/-- FIX_VPACK (43_fixed_field.md R170). -/
def execFixVpack (raw : Half) (s : State) : Result :=
  runFixed .vpack (fun j => { j.set.record with vpack := vpack raw }) s

/-- FIX_IPACK: the frame's length field selects the encoding (43_fixed_field.md R171, R175). -/
def execFixIpack (raw : Half) (s : State) : Result :=
  runFixed .ipack (fun j => { j.set.record with ipack := signed32 (current raw j.lenf) }) s

/-- FIX_SOC (43_fixed_field.md R172). -/
def execFixSoc (raw : Byte) (s : State) : Result :=
  runFixed .soc (fun j => { j.set.record with soc := soc raw }) s

/-- An unknown tag: one byte is skipped (44_tagged_field.md R194). -/
def skipUnknown (j : Job) : Job :=
  { j with off := j.off + 1, set := { j.set with flags := j.set.flags.setXunk } }

/-- A duplicate tag: consumed, not recorded (44_tagged_field.md R195). -/
def skipDuplicate (w : Nat) (j : Job) : Job :=
  { j with off := j.off + 1 + w, set := { j.set with flags := j.set.flags.setXdup } }

/-- A known field that reaches the end of the frame: nothing is recorded (44_tagged_field.md R196). -/
def overrun (j : Job) : Job := { j with set := { j.set with flags := j.set.flags.setXovr } }

/-- A known field recorded: its entry, SEEN, X, OFF past its value (44_tagged_field.md R193, R197). -/
def recordField (c : Config) (row : FctRow) (t : Byte) (bytes : List Byte) (j : Job) : Job :=
  { j with
    off := j.off + 1 + row.width
    x := j.x + 1
    seen := t :: j.seen
    set :=
      { j.set with
        xe := j.set.xe ++ [xentry c row t bytes]
        flags := j.set.flags.orTxtTrunc (xentryCut c row bytes) } }

/-- One pass of the extra-field loop on tag `t` and the value bytes that lie inside the frame; fewer of them than the
width is the overrun `OFF + w ≥ E` (44_tagged_field.md R193). -/
def extraPhase (c : Config) (t : Byte) (value : List Byte) (j : Job) : Phase :=
  match fctLookup c t with
  | none => .extra (skipUnknown j)
  | some (_, row) =>
    if t ∈ j.seen then .extra (skipDuplicate row.width j)
    else if value.length < row.width then .finish (overrun j)
    else .extra (recordField c row t (value.take row.width) j)

/-- XFIELD: one pass of the extra-field run (44_tagged_field.md R193 to R199). -/
def execXfield (t : Byte) (value : List Byte) (s : State) : Result :=
  match s.atExtra with
  | some (f, j) => .next (s.withPhase f (extraPhase s.cfg t value j))
  | none => .refused .notAtElement

end Sys2Proof.Machine
end

