-- ==== Sys2Proof/Machine/Dispatch.lean ====
section
/-! DEFINITION. The meaning of each instruction, one arm per constructor. -/

namespace Sys2Proof.Machine

def exec (i : Instr) (s : State) : Host.Outcome State Fault Refusal :=
  match i with
  | .nop => Sys2Proof.Machine.execNop s
  | .extract => Sys2Proof.Machine.execExtract s
  | .decode => Sys2Proof.Machine.execDecode s
  | .extractDecode => Sys2Proof.Machine.execExtractDecode s
  | .csum16 src => Sys2Proof.Machine.execCsum16 src s
  | .lookup tag => Sys2Proof.Machine.execLookup tag s
  | .sreset => Sys2Proof.Machine.execSreset s
  | .cellBlock tag bc entries => Sys2Proof.Machine.execCellBlock tag bc entries s
  | .fixTmos raw => Sys2Proof.Machine.execFixTmos raw s
  | .fixTp1 raw => Sys2Proof.Machine.execFixTp1 raw s
  | .fixTp2 raw => Sys2Proof.Machine.execFixTp2 raw s
  | .fixVpack raw => Sys2Proof.Machine.execFixVpack raw s
  | .fixIpack raw => Sys2Proof.Machine.execFixIpack raw s
  | .fixSoc raw => Sys2Proof.Machine.execFixSoc raw s
  | .xfield tag value => Sys2Proof.Machine.execXfield tag value s

end Sys2Proof.Machine
end

