-- ==== Sys2Proof/Machine/Engine.lean ====
section
/-! DEFINITION. One move of the engine (40_commands.md R101, R102, R107): it fetches the instruction it stands at, the
accepted command word or the payload element at OFF, and executes it; where no element stands there it moves on; at the
end of a decode it commits. -/

namespace Sys2Proof.Machine

/-- The frame's bytes from OFF up to E, what the engine fetches an element from (41_frame_boundary.md R140). -/
def State.elementBytes (s : State) (j : Job) : List Byte := s.windowBytes j.base j.off j.eff

/-- The instruction at OFF in a slot. -/
def State.fetchElement (s : State) (sl : Slot) (j : Job) : Except Reject Instr :=
  decodeElement s.cfg sl (s.elementBytes j)

/-- The instruction the engine stands at: the accepted command, or the element at OFF. None where it stands at no
instruction: IDLE, or a decode at the end of its run. -/
def State.fetch (s : State) : Option (Except Reject Instr) :=
  match s.inflight with
  | none => none
  | some f =>
    match f.phase with
    | .accepted => some (decodeCommand f.word)
    | .cells j => some (s.fetchElement .cellBlock j)
    | .fixed k j => some (s.fetchElement (.fixed k) j)
    | .extra j => if extraGoesOn s.cfg j then some (s.fetchElement .extra j) else none
    | .finish _ => none

/-- What the engine does where it stands at no instruction, or at bits that are none: a fixed field that does not match
is passed over with OFF unchanged (43_fixed_field.md R166), a decode at the end of its run completes and commits
(40_commands.md R102), an IDLE engine changes nothing (60_exceptions.md R234). -/
def State.engineMovesOn (s : State) (r : Reject) : Result :=
  match s.inflight with
  | none => .next s
  | some f =>
    match f.phase with
    | .accepted => .refused (.illegalInFlight r)
    | .cells _ => .refused (.illegalInFlight r)
    | .fixed k j => .next (s.withPhase f (phaseAfterFixed k j))
    | .extra j => .next (commitDecode j.extraction (completed s.cfg j) s)
    | .finish j => .next (commitDecode j.extraction (completed s.cfg j) s)

/-- One move of the engine. -/
def engineStep (s : State) : Result :=
  match s.fetch with
  | some (.ok i) => exec i s
  | some (.error r) => s.engineMovesOn r
  | none => s.engineMovesOn .outsideFrame

/-- One event: the head of the environment's events, or with none left the engine's move (log 5). -/
def nextEvent (s : State) : Result :=
  match s.inputs with
  | [] => engineStep s
  | .tick :: rest => engineStep { s with inputs := rest }
  | .reset :: rest => .next (hardReset { s with inputs := rest })
  | .host a :: rest => hostAccess a { s with inputs := rest }
  | .wait :: rest =>
    if s.busy then engineStep s
    else hostAccess (.read (s.cfg.blockBase + Reg.status.offset) 4) { s with inputs := rest }

/-! ### Placing an instruction -/

/-- The decode in flight that `placeElement` leaves: a frame of 64 bytes at RXBUF index 0 whose read offset stands at
13, at the first byte after an empty cell block, or at 11 before the cell block. -/
def placedJob (sl : Slot) : Job :=
  { startJob none 0 62 0 64 64 0 with off := if sl = .cellBlock then payloadStart else 13 }

/-- The phase at which the engine tries the element of a slot. -/
def placedPhase : Slot → Phase
  | .cellBlock => .cells (placedJob .cellBlock)
  | .fixed k => .fixed k (placedJob (.fixed k))
  | .extra => .extra (placedJob .extra)

/-- Bytes written to RXBUF from index `i` up. -/
def placeBytes : Nat → List Byte → Memory → Memory
  | _, [], m => m
  | i, v :: bytes, m => placeBytes (i + 1) bytes (Memory.set i v m)

/-- The engine stands at the element whose tag is `t` and whose further bytes are 0, in the slot of the opcode-table row
that `t` matches (log 12). -/
def State.placeElement (s : State) (t : Byte) : State :=
  { s with
    inputs := []
    rxbuf := placeBytes (placedJob (slotOfTag s.cfg t)).off (zeroPadded t) s.rxbuf
    inflight := some { word := 0x2, snap := s.snapshot, phase := placedPhase (slotOfTag s.cfg t) } }

/-- The engine holds the accepted command word `w` (log 12). -/
def State.placeCommand (s : State) (w : Word) : State := accept w { s with cmd := w, inputs := [] }

end Sys2Proof.Machine
end

