-- ==== Sys2Proof/Machine/Step.lean ====
section
/-! DEFINITION. One step of the machine, and an instruction placed where the next step fetches it. -/

namespace Sys2Proof.Machine

/-- One step: refused where the configuration is not legal (00_scope.md R8; log 10), else one event. -/
def step (s : State) : Host.Outcome State Fault Refusal :=
  if s.cfg.legal then nextEvent s else .refused .illegalConfig

/-- The state in which the very next step fetches and runs the instruction whose bits are `w`: a command word is the
accepted command in flight, a tag byte stands at OFF of a decode in flight in the slot of its row (log 12). -/
def State.withFetchWord (s : State) (nbits w : Nat) : State :=
  if nbits = 8 then s.placeElement (BitVec.ofNat 8 w) else s.placeCommand (BitVec.ofNat 32 w)

end Sys2Proof.Machine
end

