-- ==== Sys2Proof/Machine/HostProgram.lean ====
section
/-! DEFINITION. The host's assembly statements and pseudo-instructions (30_encoding.md R93, R94) as the events they
expand into. They are moves of the environment, not operations of the block. -/

namespace Sys2Proof.Machine

/-- The places a statement names (30_encoding.md R93). -/
inductive Place where
  | reg (r : Reg)
  | cell (i : Nat)
  | xeHdr (j : Nat)
  | xeValue (j : Nat)
  | xeText (j w : Nat)
  | fct (k : Nat)
  /-- `@<offset>`. -/
  | raw (off : Nat)
deriving DecidableEq, Repr

/-- `off(loc)` (30_encoding.md R93, 20_memory.md R61). -/
def Place.offset : Place → Nat
  | .reg r => r.offset
  | .cell i => 0x400 + 4 * i
  | .xeHdr j => 0x800 + 64 * j
  | .xeValue j => 0x800 + 64 * j + 4
  | .xeText j w => 0x800 + 64 * j + 8 + 4 * w
  | .fct k => 0x1000 + 4 * k
  | .raw off => off

/-- One statement of a host program (30_encoding.md R93, R94). -/
inductive Stmt where
  | wr (p : Place) (v : Word)
  | rd (p : Place)
  | cmdNop
  | cmdExtract
  | cmdDecode
  | cmdExtractDecode
  | cmdSreset
  | cmdCsum16 (src : Buffer)
  | cmdLookup (tag : Byte)
  /-- `LOADRX i, bytes`, `i` a multiple of 4. -/
  | loadRx (i : Nat) (bytes : List Byte)
  /-- `LOADCB bytes`. -/
  | loadCb (bytes : List Byte)
  | wait
  | ack
deriving DecidableEq, Repr

/-- `WR @off, v` (30_encoding.md R93). -/
def wordWrite (c : Config) (off : Nat) (v : Word) : Input := .host (.write (c.blockBase + off) 4 v)

/-- `RD @off` (30_encoding.md R93). -/
def wordRead (c : Config) (off : Nat) : Input := .host (.read (c.blockBase + off) 4)

/-- The words of a byte stream, little-endian lanes, bytes beyond it taken as 0, written from offset `off` up
(30_encoding.md R94, 20_memory.md R65). -/
def loadWords (c : Config) : Nat → List Byte → List Input
  | _, [] => []
  | off, [s0] => [wordWrite c off (0#24 ++ s0)]
  | off, [s0, s1] => [wordWrite c off (0#16 ++ s1 ++ s0)]
  | off, [s0, s1, s2] => [wordWrite c off (0#8 ++ s2 ++ s1 ++ s0)]
  | off, s0 :: s1 :: s2 :: s3 :: rest => wordWrite c off (s3 ++ s2 ++ s1 ++ s0) :: loadWords c (off + 4) rest

/-- A command word written to CMD (30_encoding.md R94). -/
def commandWrite (c : Config) (w : Word) : List Input := [wordWrite c Reg.cmd.offset w]

/-- The expansion of a statement (30_encoding.md R93, R94). -/
def expand (c : Config) : Stmt → List Input
  | .wr p v => [wordWrite c p.offset v]
  | .rd p => [wordRead c p.offset]
  | .cmdNop => commandWrite c 0x00000000
  | .cmdExtract => commandWrite c 0x00000001
  | .cmdDecode => commandWrite c 0x00000002
  | .cmdExtractDecode => commandWrite c 0x00000003
  | .cmdSreset => commandWrite c 0x0000000F
  | .cmdCsum16 .rxbuf => commandWrite c 0x00000004
  | .cmdCsum16 .cmdbuf => commandWrite c 0x00010004
  | .cmdLookup tag => commandWrite c (0#16 ++ tag ++ 0x05#8)
  | .loadRx i bytes => loadWords c (0x20000 + i) bytes
  | .loadCb bytes => loadWords c 0x1800 bytes
  | .wait => [.wait]
  | .ack => [wordWrite c Reg.status.offset 0x00000006]

/-- The events of a host program, in program order (20_memory.md R70). -/
def expandAll (c : Config) : List Stmt → List Input
  | [] => []
  | st :: rest => expand c st ++ expandAll c rest

end Sys2Proof.Machine
end

