-- ==== Sys2Proof/Machine/Pipeline.lean ====
section
/-! DEFINITION. The decode pipeline of 40_commands.md R107 as ONE function of the window, in the spec's own terms:
natural numbers, window offsets, each loop as it is written. The machine does not use it: the engine decodes element by
element, and a statement says that what it commits is this function's value. -/

namespace Sys2Proof.Machine

/-- `be16(i)` as a number (00_scope.md R13). -/
def refBe16 (b : Nat → Byte) (i : Nat) : Nat := (b i).toNat * 256 + (b (i + 1)).toNat

/-- `bytes(i, n)` (00_scope.md R13). -/
def refBytes (b : Nat → Byte) (i n : Nat) : List Byte := (List.range n).map (fun j => b (i + j))

/-- The sum of the window's first `n` bytes, on unbounded integers (42_checksum16.md R151). -/
def refSum (b : Nat → Byte) (n : Nat) : Nat := ((List.range n).map (fun i => (b i).toNat)).sum

/-! ### Step 7 -/

/-- The cell loop (43_fixed_field.md R161) from index `i` on, `left` cells of `k` left: at index `i`, `n = i` cells are
decoded. -/
def refCells (c : Config) (b : Nat → Byte) (eff : Nat) : Nat → Nat → CellRun
  | 0, _ => { cells := [], cap := false, short := false }
  | left + 1, i =>
    if i = c.maxCells then { cells := [], cap := true, short := false }
    else if eff < 13 + 3 * i + 3 then { cells := [], cap := false, short := true }
    else
      (refCells c b eff left (i + 1)).push
        { info := b (13 + 3 * i), mv := BitVec.ofNat 16 (refBe16 b (13 + 3 * i + 1)) }

/-- The millivolt values of the decoded cells. -/
def refMv (cells : List CellEntry) : List Nat := cells.map (fun e => e.mv.toNat)

/-- `vmax` (43_fixed_field.md R164). -/
def refMax (cells : List CellEntry) : Nat := (refMv cells).foldr max 0

/-- `vmin`: the least value of NZ, 0 if NZ is empty (43_fixed_field.md R164). -/
def refMin (cells : List CellEntry) : Nat := ((refMv cells).filter (fun v => decide (0 < v))).min?.getD 0

/-- The record after step 7 (43_fixed_field.md R160, R161, R164, R165). -/
def refCellRecord (tag bc : Byte) (cells : List CellEntry) : Record :=
  let r := { Record.default with
    ncells := BitVec.ofNat 8 cells.length
    cellhdr := BitVec.ofNat 32 (tag.toNat + 256 * bc.toNat + 65536) }
  if cells = [] then r
  else
    { r with
      vmin := BitVec.ofNat 16 (refMin cells)
      vmax := BitVec.ofNat 16 (refMax cells)
      vdelta := BitVec.ofNat 16 (refMax cells - refMin cells) }

/-! ### Step 8 -/

/-- `temp(raw)` (43_fixed_field.md R173). -/
def refTemp (raw : Nat) : Int := if 100 < raw then -((raw : Int) - 100) else raw

/-- `current(raw, LENF)` (43_fixed_field.md R175). -/
def refCurrent (raw lenf : Nat) : Int :=
  if lenf < 260 then (if 32768 ≤ raw then ((raw - 32768 : Nat) : Int) else -(raw : Int)) else 10000 - (raw : Int)

/-- The record after fixed field `k` matched with value `raw` (43_fixed_field.md R167 to R172). -/
def refFixedWrite (k : FixedField) (raw lenf : Nat) (r : Record) : Record :=
  match k with
  | .tmos => { r with tmos := BitVec.ofInt 32 (refTemp raw), fixvalid := r.fixvalid ||| 1 }
  | .tp1 => { r with tp1 := BitVec.ofInt 32 (refTemp raw), fixvalid := r.fixvalid ||| 2 }
  | .tp2 => { r with tp2 := BitVec.ofInt 32 (refTemp raw), fixvalid := r.fixvalid ||| 4 }
  | .vpack => { r with vpack := BitVec.ofNat 16 raw, fixvalid := r.fixvalid ||| 8 }
  | .ipack => { r with ipack := BitVec.ofInt 32 (refCurrent raw lenf), fixvalid := r.fixvalid ||| 16 }
  | .soc => { r with soc := BitVec.ofNat 8 raw, fixvalid := r.fixvalid ||| 32 }

/-- The six fields in their order (30_encoding.md R88). -/
def fixedOrder : List FixedField := [.tmos, .tp1, .tp2, .vpack, .ipack, .soc]

/-- The raw value of fixed field `k` at offset `off` (43_fixed_field.md R166). -/
def refRaw (b : Nat → Byte) (k : FixedField) (off : Nat) : Nat :=
  if k.width = 2 then refBe16 b (off + 1) else (b (off + 1)).toNat

/-- The fixed-field sequence (43_fixed_field.md R166): the read offset and the record after it. -/
def refFixed (c : Config) (b : Nat → Byte) (eff lenf : Nat) : List FixedField → Nat × Record → Nat × Record
  | [], r => r
  | k :: rest, (off, r) =>
    if off + k.width < eff ∧ b off = c.fixedTag k then
      refFixed c b eff lenf rest (off + 1 + k.width, refFixedWrite k (refRaw b k off) lenf r)
    else refFixed c b eff lenf rest (off, r)

/-! ### Step 9 -/

/-- `bignum(i, w)` (44_tagged_field.md R198). -/
def refBignum (b : Nat → Byte) (i w : Nat) : Nat :=
  ((List.range w).map (fun j => (b (i + j)).toNat * 256 ^ (w - 1 - j))).sum

/-- The printable prefix P of `text(i, w)` (44_tagged_field.md R199). -/
def refPrintable (b : Nat → Byte) (i w : Nat) : List Byte :=
  (refBytes b i w).takeWhile (fun v => decide (0x20 ≤ v.toNat ∧ v.toNat ≤ 0x7E))

/-- `entry(t, k, OFF)` (44_tagged_field.md R197). -/
def refEntry (c : Config) (b : Nat → Byte) (row : FctRow) (off : Nat) : XEntry where
  tag := b off
  kind := row.kind
  width := BitVec.ofNat 5 row.width
  value := BitVec.ofNat 32 (refBignum b (off + 1) row.width)
  text := if row.kind = .text then (refPrintable b (off + 1) row.width).take c.textCap else []

/-- What the extra-field run holds: OFF, the entries recorded (X of them, their tags SEEN) and the flags. -/
structure RefRun where
  off : Nat
  xe : List XEntry
  flags : Flags
deriving DecidableEq, Repr

/-- The extra-field run (44_tagged_field.md R193), at most `fuel` passes: every pass that does not leave the loop
advances OFF, so PE passes are always enough. -/
def refExtra (c : Config) (b : Nat → Byte) (pe eff : Nat) : Nat → RefRun → RefRun
  | 0, r => r
  | fuel + 1, r =>
    if r.off < pe ∧ r.xe.length < c.maxExtra then
      match fctLookup c (b r.off) with
      | none => refExtra c b pe eff fuel { r with off := r.off + 1, flags := { r.flags with xunk := true } }
      | some (_, row) =>
        if b r.off ∈ r.xe.map (fun e => e.tag) then
          refExtra c b pe eff fuel { r with off := r.off + 1 + row.width, flags := { r.flags with xdup := true } }
        else if eff ≤ r.off + row.width then { r with flags := { r.flags with xovr := true } }
        else
          refExtra c b pe eff fuel
            { off := r.off + 1 + row.width
              xe := r.xe ++ [refEntry c b row r.off]
              flags :=
                { r.flags with
                  txtTrunc :=
                    r.flags.txtTrunc ||
                      decide (row.kind = .text ∧ c.textCap < (refPrintable b (r.off + 1) row.width).length) } }
    else r

/-! ### The pipeline -/

/-- Steps 7 to 10 on a frame whose checks passed (40_commands.md R107): `acc` is the result set so far. -/
def refPayload (c : Config) (b : Nat → Byte) (lenf eff : Nat) (acc : DecodeSet) : DecodeSet :=
  let bc := b 12
  let run := refCells c b eff (bc.toNat / 3) 0
  let fixed := refFixed c b eff lenf fixedOrder (13 + bc.toNat, refCellRecord (b 11) bc run.cells)
  let last :=
    refExtra c b (eff - 9) eff (eff - 9)
      { off := fixed.1
        xe := []
        flags :=
          { acc.flags with
            celltagBad := decide (b 11 ≠ c.cellTag), cellCap := run.cap, cellShort := run.short } }
  { acc with
    record := { fixed.2 with nextra := BitVec.ofNat 8 last.xe.length }
    cells := run.cells
    xe := last.xe
    frXoff := BitVec.ofNat 32 fixed.1
    frEoff := BitVec.ofNat 32 last.off
    flags := { last.flags with xcap := decide (last.xe.length = c.maxExtra ∧ last.off < eff - 9) }
    result := if run.cells = [] then .noCells else .ok
    valid := decide (run.cells ≠ []) }

/-- `decode(base, N, ctrl)` on the window bytes `b` (40_commands.md R107, R112, R113). -/
def refDecode (c : Config) (b : Nat → Byte) (len : Nat) (ctrl : Ctrl) : DecodeSet :=
  if len < 20 then { DecodeSet.default with result := .short }
  else if b 0 ≠ c.start0 ∨ b 1 ≠ c.start1 then { DecodeSet.default with result := .badStart }
  else
    let lenf := refBe16 b 2
    let r3 := { DecodeSet.default with frLen := BitVec.ofNat 32 (65536 + lenf) }
    if len < 2 + lenf then { r3 with result := .incomplete }
    else
      let eff := min (2 + lenf) len
      let comp := refSum b (eff - 4) % 65536
      let stored := refBe16 b (eff - 2)
      let r5 := { r3 with
        frCsum := BitVec.ofNat 32 (stored * 65536 + comp)
        flags := { Flags.clear with csumBad := decide (comp ≠ stored) } }
      if comp ≠ stored ∧ ctrl.csumStrict = true then { r5 with result := .csumFatal }
      else if eff ≤ 20 then { r5 with result := .noPayload }
      else
        let r6 := { r5 with frPend := BitVec.ofNat 32 (eff - 9) }
        if ctrl.endCheck = true ∧ b (eff - 5) ≠ c.endMarker then { r6 with result := .badEnd }
        else refPayload c b lenf eff r6

end Sys2Proof.Machine
end

