-- ==== Sys2Proof/Safety.lean ====
section
/-! DEFINITION. What the claims are stated in: the invariant of the machine, part by part, what a host can see of a
state, and which events stay inside the block. -/

namespace Sys2Proof.Machine

/-! ### The invariant -/

/-- The buffers are canonical and hold no byte beyond their sizes (10_state.md R45, R46). -/
abbrev State.buffersOk (s : State) : Prop :=
  Memory.wf s.rxbuf ∧ (∀ cell ∈ s.rxbuf, cell.1 < s.cfg.rxbufSize) ∧
  Memory.wf s.cmdbuf ∧ (∀ cell ∈ s.cmdbuf, cell.1 < cmdLen)

/-- CELL and XE of a result set, as far as they are decoded: counts, capacities, one entry a tag
(43_fixed_field.md R161, 44_tagged_field.md R193, R199). -/
abbrev DecodeSet.listsOk (c : Config) (d : DecodeSet) : Prop :=
  d.record.ncells.toNat = d.cells.length ∧ d.cells.length ≤ c.maxCells ∧ d.xe.length ≤ c.maxExtra ∧
  (d.xe.map (fun e => e.tag)).Nodup ∧ (∀ e ∈ d.xe, e.text.length ≤ c.textCap) ∧
  ¬ (d.flags.cellCap = true ∧ d.flags.cellShort = true)

/-- A committed result set: VALID exactly when RESULT = OK, exactly when a decode ended with a cell; the lists counted
(60_exceptions.md R220, 43_fixed_field.md R177). -/
abbrev DecodeSet.committedOk (c : Config) (d : DecodeSet) : Prop :=
  d.listsOk c ∧ d.record.nextra.toNat = d.xe.length ∧ (d.valid = true ↔ d.result = .ok) ∧
  (d.result = .ok ↔ d.cells ≠ [])

/-- The bits that 10_state.md R33, R42 leave no field in read 0: FR_LEN [31:17] and REC_CELLHDR [31:17]. -/
abbrev DecodeSet.reservedOk (d : DecodeSet) : Prop :=
  bitField d.frLen 17 15 = 0 ∧ bitField d.record.cellhdr 17 15 = 0

/-- The same of every result register that holds a whole word: LKRES [15:10] and [23:21] (10_state.md R32), and those of
the committed decode. -/
abbrev State.reservedOk (s : State) : Prop :=
  bitField s.lkres 10 6 = 0 ∧ bitField s.lkres 21 3 = 0 ∧ s.dec.reservedOk

/-- ECODE is NONE exactly while ERR is 0 (60_exceptions.md R223). -/
abbrev State.statusOk (s : State) : Prop := s.status.err = false ↔ s.status.ecode = .none

/-- The working registers of a decode whose frame checks passed (10_state.md R40, 41_frame_boundary.md R134 to R136,
R140, 20_memory.md R76). -/
abbrev Job.ok (c : Config) (j : Job) : Prop :=
  j.total = 2 + j.lenf.toNat ∧ j.eff = j.total ∧ 21 ≤ j.eff ∧ j.pe + 9 = j.eff ∧ j.base + j.eff ≤ c.rxbufSize ∧
  j.off ≤ max 268 (j.pe + 24) ∧ j.set.listsOk c ∧ j.n = j.set.cells.length ∧ j.x = j.set.xe.length ∧
  j.seen.reverse = j.set.xe.map (fun e => e.tag) ∧ j.set.result = .none ∧ j.set.valid = false ∧ j.set.reservedOk

/-- The decode a phase belongs to; none for a command just accepted. -/
def Phase.job : Phase → Option Job
  | .accepted => none
  | .cells j => some j
  | .fixed _ j => some j
  | .extra j => some j
  | .finish j => some j

/-- Where OFF, n and X stand at each place of a decode (10_state.md R40, 43_fixed_field.md R163). -/
def Phase.placeOk (c : Config) : Phase → Bool
  | .accepted => true
  | .cells j => decide (j.off = payloadStart ∧ j.n = 0 ∧ j.x = 0)
  | .fixed _ j => decide (payloadStart + 2 ≤ j.off ∧ j.off ≤ max 268 j.eff ∧ j.x = 0)
  | .extra j => decide (payloadStart + 2 ≤ j.off)
  | .finish j => decide (payloadStart + 2 ≤ j.off ∧ j.off < j.pe ∧ j.x < c.maxExtra)

/-- The command in flight is a legal one other than SRESET, and a decode in flight belongs to DECODE, or with the
extractor's result to EXTRACT_DECODE (40_commands.md R100, R106, R108). -/
def InFlight.wordOk (f : InFlight) : Bool :=
  match f.phase.job with
  | none => (decodeCommand f.word).toOption.isSome && decide (f.word ≠ 0xF)
  | some j => decide (f.word = if j.extraction.isSome then 0x3 else 0x2)

/-- The operands of a command just accepted lie inside the buffers (20_memory.md R76, 40_commands.md R100). -/
def InFlight.rangeOk (c : Config) (f : InFlight) : Bool :=
  match f.phase, decodeCommand f.word with
  | .accepted, .ok .extract => decide (f.snap.rxLen.toNat ≤ c.rxbufSize)
  | .accepted, .ok .extractDecode => decide (f.snap.rxLen.toNat ≤ c.rxbufSize)
  | .accepted, .ok .decode => decide (f.snap.winBase.toNat + f.snap.winLen.toNat ≤ c.rxbufSize)
  | .accepted, .ok (.csum16 b) => decide (f.snap.csStart.toNat + f.snap.csCount.toNat ≤ bufferSize c b)
  | _, _ => true

/-- While a command is in flight: DONE is 0, the snapshot equals the live registers (10_state.md R41), and the engine's
own registers hold together. -/
abbrev State.engineOk (s : State) : Prop :=
  ∀ f ∈ s.inflight,
    s.status.done = false ∧ f.snap = s.snapshot ∧ f.wordOk = true ∧ f.rangeOk s.cfg = true ∧
    (∀ j ∈ f.phase.job, j.ok s.cfg) ∧ f.phase.placeOk s.cfg = true

/-- The invariant of CK16. -/
abbrev State.Inv (s : State) : Prop :=
  s.cfg.legal = true ∧ s.buffersOk ∧ s.statusOk ∧ s.dec.committedOk s.cfg ∧ s.reservedOk ∧ s.engineOk

/-! ### What a host sees -/

/-- The registers and buffers of two states agree, the engine, the environment's events and the last answer apart. -/
def sameRegisters (s t : State) : Prop :=
  t = { s with inflight := t.inflight, inputs := t.inputs, reply := t.reply }

/-- What a host reads after a reset, and the engine IDLE: the rows of the table of 70_reset_and_hazards.md R250, the
buffers apart. -/
def State.registersAtReset (t : State) : Prop :=
  t.readWord 0x000 = 0x434B3136 ∧ t.readWord 0x004 = 0x00000004 ∧ t.readWord 0x008 = 0 ∧ t.readWord 0x00C = 0 ∧
  (∀ off, off % 4 = 0 → 0x010 ≤ off → off ≤ 0x040 → t.readWord off = 0) ∧
  t.readWord 0x080 = 0 ∧ t.readWord 0x084 = 5000 ∧
  (∀ off, off % 4 = 0 → 0x088 ≤ off → off ≤ 0x0B0 → t.readWord off = 0) ∧
  (∀ off, off % 4 = 0 → 0x400 ≤ off → off < 0x1000 → t.readWord off = 0) ∧
  t.inflight = none ∧ t.irq = false

/-! ### Events -/

/-- The bus address an access is made at. -/
def Access.addr : Access → Nat
  | .read a _ => a
  | .write a _ _ => a

/-- The event at the head of the environment's events, if it is a host access, is made at an address of the block. -/
def State.nextInside (s : State) : Prop :=
  ∀ a rest, s.inputs = .host a :: rest → selects s.cfg a.addr = true

end Sys2Proof.Machine
end

