-- ==== Sys2Proof/Certificates/Slice0/Obligations.lean ====
section
/-! DEFINITION. The statements for the provers. Each docstring names the rule of spec/ it formalises, or the log entry
of notes/assumptions/ a clause of it rests on. -/

open Sys2Proof Sys2Proof.Machine

/-! ### Encodings -/

/-- 30_encoding.md R81: the legal command words and what each stands for, and the decoder in the rule's own words. -/
def Obligations.CommandWordsDecode : Prop :=
  (∀ (w : Word) (i : Instr), decodeCommand w = .ok i ↔
    (w = 0x00000000 ∧ i = .nop) ∨ (w = 0x00000001 ∧ i = .extract) ∨ (w = 0x00000002 ∧ i = .decode) ∨
    (w = 0x00000003 ∧ i = .extractDecode) ∨ (w = 0x00000004 ∧ i = .csum16 .rxbuf) ∨
    (w = 0x00010004 ∧ i = .csum16 .cmdbuf) ∨
    (∃ tag : Byte, w = 0x00000005 ||| (tag.setWidth 32 <<< 8) ∧ i = .lookup tag) ∨ (w = 0x0000000F ∧ i = .sreset)) ∧
  (∀ w : Word, (∃ i, decodeCommand w = .ok i) ↔
    bitField w 17 15 = 0 ∧ bitField w 4 4 = 0 ∧
    ((bitField w 0 4 ∈ [0x0, 0x1, 0x2, 0x3, 0xF] ∧ bitField w 8 9 = 0) ∨
      (bitField w 0 4 = 0x4 ∧ bitField w 8 8 = 0) ∨ (bitField w 0 4 = 0x5 ∧ bitField w 16 1 = 0)))

/-- Decode and encode of command words are inverse, both ways, for every command and every operand. -/
def Obligations.CommandRoundTrip : Prop :=
  (∀ (c : Config) (i : Instr), i.slot = none → ∃ w, encode c i = .word w ∧ decodeCommand w = .ok i) ∧
  (∀ (c : Config) (w : Word) (i : Instr), decodeCommand w = .ok i → i.slot = none ∧ encode c i = .word w)

/-- Decode of encode is the element, for every element that carries all its bytes, whatever bytes follow it; and for
every well-formed element, one cut off by the end of the frame included, where no byte follows it. -/
def Obligations.ElementRoundTrip : Prop :=
  (∀ (c : Config) (i : Instr) (sl : Slot), i.slot = some sl → i.whole c = true →
    ∃ bs, encode c i = .bytes bs ∧ ∀ rest, decodeElement c sl (bs ++ rest) = .ok i) ∧
  (∀ (c : Config) (i : Instr) (sl : Slot), i.slot = some sl → i.wf c = true →
    ∃ bs, encode c i = .bytes bs ∧ decodeElement c sl bs = .ok i)

/-- What the element decoder answers is well-formed, belongs to the slot, and its encoding is the beginning of the bytes
it was read from: no byte of an element is read as another's. -/
def Obligations.DecodedElementIsThere : Prop :=
  ∀ (c : Config) (sl : Slot) (bytes : List Byte) (i : Instr), decodeElement c sl bytes = .ok i →
    i.wf c = true ∧ i.slot = some sl ∧ ∃ bs rest, encode c i = .bytes bs ∧ bytes = bs ++ rest

/-- A few words and elements written out bit by bit from 30_encoding.md R80, R87 to R89. -/
def Obligations.SampleEncodings : Prop :=
  decodeCommand 0b00000000000000000000000000000000#32 = .ok .nop ∧
  decodeCommand 0b00000000000000010000000000000100#32 = .ok (.csum16 .cmdbuf) ∧
  decodeCommand 0b00000000000000001010101000000101#32 = .ok (.lookup 0xAA) ∧
  decodeElement Config.default .cellBlock [0x79, 0x03, 0x01, 0x0C, 0xE4, 0x80] =
    .ok (.cellBlock 0x79 0x03 [0x01, 0x0C, 0xE4]) ∧
  decodeElement Config.default (.fixed .vpack) [0x83, 0x14, 0xC8, 0x00] = .ok (.fixVpack 5320) ∧
  decodeElement Config.default (.fixed .soc) [0x85, 0x57] = .ok (.fixSoc 87)

/-! ### Steps -/

/-- A step of a legal configuration is the next event: the engine's move where no event is pending or a `tick` is, a
RESET, one host access, the host's WAIT loop (model's choice: log 5, 15). -/
def Obligations.StepIsTheNextEvent : Prop :=
  ∀ (s : State) (rest : List Input) (a : Access), s.cfg.legal = true →
    (s.inputs = [] → step s = engineStep s) ∧
    (s.inputs = .tick :: rest → step s = engineStep { s with inputs := rest }) ∧
    (s.inputs = .reset :: rest → step s = .next (hardReset { s with inputs := rest })) ∧
    (s.inputs = .host a :: rest → step s = hostAccess a { s with inputs := rest }) ∧
    (s.inputs = .wait :: rest → s.busy = true → step s = engineStep s) ∧
    (s.inputs = .wait :: rest → s.busy = false →
      step s = .next { s with inputs := rest, reply := .data (s.readWord 0x00C) })

/-- A step runs the decoded instruction: an accepted command word that decodes to `i`, or the bytes at OFF that decode
to the element `i` the engine tries there, is executed by the engine's move, with nothing around it. -/
def Obligations.StepRunsTheInstruction : Prop :=
  ∀ (s : State) (f : InFlight) (i : Instr), s.cfg.legal = true → s.inputs = [] → s.inflight = some f →
    (f.phase = .accepted → decodeCommand f.word = .ok i → step s = exec i s) ∧
    (∀ j, f.phase = .cells j →
      decodeElement s.cfg .cellBlock (s.windowBytes j.base j.off j.eff) = .ok i → step s = exec i s) ∧
    (∀ k j, f.phase = .fixed k j →
      decodeElement s.cfg (.fixed k) (s.windowBytes j.base j.off j.eff) = .ok i → step s = exec i s) ∧
    (∀ j, f.phase = .extra j → j.off < j.pe → j.x < s.cfg.maxExtra →
      decodeElement s.cfg .extra (s.windowBytes j.base j.off j.eff) = .ok i → step s = exec i s)

/-- An instruction placed by `withFetchWord` is the one the next step runs (model's choice: log 12). -/
def Obligations.PlacedInstructionRuns : Prop :=
  (∀ (w : Nat) (i : Instr), decodeTableWord 32 w = some i →
    step (State.reset.withFetchWord 32 w) = exec i (State.reset.withFetchWord 32 w)) ∧
  (∀ (w : Nat) (i : Instr), decodeTableWord 8 w = some i →
    step (State.reset.withFetchWord 8 w) = exec i (State.reset.withFetchWord 8 w))

/-! ### Issue, refusals, host accesses -/

/-- 60_exceptions.md R225: for a CMD write the first check that applies is the one outcome; a misaligned or non-word
access is no CMD write. -/
def Obligations.IssuePriority : Prop :=
  ∀ (s : State) (w : Word),
    (s.busy = true → writeWord 0x008 w s = .next { s with status := { s.status with err := true, ecode := .busy } }) ∧
    (s.busy = false → (∀ i, decodeCommand w ≠ .ok i) →
      writeWord 0x008 w s =
        .next { s with cmd := w, status := { s.status with err := true, ecode := .illegalCmd } }) ∧
    (s.busy = false → w = 0x0000000F → writeWord 0x008 w s = exec .sreset { s with cmd := w }) ∧
    (s.busy = false → ∀ i, decodeCommand w = .ok i → w ≠ 0x0000000F →
      let rangeFails :=
        ((w = 0x1 ∨ w = 0x3) ∧ s.cfg.rxbufSize < s.rxLen.toNat) ∨
        (w = 0x2 ∧ s.cfg.rxbufSize < s.winBase.toNat + s.winLen.toNat) ∨
        (w = 0x4 ∧ s.cfg.rxbufSize < s.csStart.toNat + s.csCount.toNat) ∨
        (w = 0x00010004 ∧ 21 < s.csStart.toNat + s.csCount.toNat)
      (rangeFails →
        writeWord 0x008 w s = .next { s with cmd := w, status := { s.status with err := true, ecode := .range } }) ∧
      (¬ rangeFails →
        writeWord 0x008 w s =
          .next
            { s with
              cmd := w
              status := { s.status with done := false }
              inflight :=
                some
                  { word := w
                    snap :=
                      { ctrl := s.ctrl, rxLen := s.rxLen, winBase := s.winBase, winLen := s.winLen,
                        csStart := s.csStart, csCount := s.csCount }
                    phase := .accepted } })) ∧
    (∀ addr bytes, selects s.cfg addr = true → bytes ≠ 4 ∨ (addr - s.cfg.blockBase) % 4 ≠ 0 →
      hostAccess (.write addr bytes w) s = .next { s with reply := .busError 0 })

/-- 70_reset_and_hazards.md R256: a write to CTRL, CMD, an operand register or a buffer word while BUSY is refused and
dropped; nothing but ERR and ECODE changes. -/
def Obligations.WritesWhileBusyAreLost : Prop :=
  ∀ (s : State) (v : Word), s.busy = true →
    writeWord 0x008 v s = .next { s with status := { s.status with err := true, ecode := .busy } } ∧
    (∀ off, off ∈ [0x004, 0x010, 0x014, 0x018, 0x01C, 0x020] →
      writeWord off v s = .next { s with status := { s.status with err := true, ecode := .busyWrite } }) ∧
    (∀ k, k % 4 = 0 → k < 21 →
      writeWord (0x1800 + k) v s = .next { s with status := { s.status with err := true, ecode := .busyWrite } }) ∧
    (∀ k, k % 4 = 0 → k < s.cfg.rxbufSize →
      writeWord (0x20000 + k) v s = .next { s with status := { s.status with err := true, ecode := .busyWrite } })

/-- 20_memory.md R63: a reserved offset or field reads 0; a write to a reserved offset or field or to an RO register is
ignored, in every phase. -/
def Obligations.ReservedReadsZeroIgnoresWrites : Prop :=
  ∀ (s : State) (v : Word) (off : Nat), off % 4 = 0 →
    ((0x058 ≤ off ∧ off < 0x080) ∨ (0x0B4 ≤ off ∧ off < 0x400) ∨ (0x1400 ≤ off ∧ off < 0x1800) ∨
      (0x1818 ≤ off ∧ off < 0x20000) ∨ (0x20000 + s.cfg.rxbufSize ≤ off) →
      s.readWord off = 0 ∧ writeWord off v s = .next s) ∧
    (off = 0 ∨ (0x024 ≤ off ∧ off < 0x1800) → writeWord off v s = .next s) ∧
    (s.readWord 0x004 &&& 0xFFFFFFF8 = 0 ∧ writeWord 0x004 v s = writeWord 0x004 (v &&& 0x7) s) ∧
    (s.readWord 0x00C &&& 0xFF800008 = 0 ∧ writeWord 0x00C v s = writeWord 0x00C (v &&& 0x6) s) ∧
    (s.readWord 0x1814 &&& 0xFFFFFF00 = 0 ∧ writeWord 0x1814 v s = writeWord 0x1814 (v &&& 0xFF) s)

/-- 20_memory.md R62: an access that is no 32-bit access at a multiple of 4 is answered with a bus error; a read returns
0 with it, a write changes nothing, no STATUS bit changes. The port's answer is the model's `reply` (log 8). -/
def Obligations.BadAccessIsABusError : Prop :=
  ∀ (s : State) (addr bytes : Nat) (v : Word), s.cfg.blockBase ≤ addr → addr < s.cfg.blockBase + 0x40000 →
    bytes ≠ 4 ∨ (addr - s.cfg.blockBase) % 4 ≠ 0 →
    hostAccess (.read addr bytes) s = .next { s with reply := .busError 0 } ∧
    hostAccess (.write addr bytes v) s = .next { s with reply := .busError 0 }

/-- Every aligned word access of the block is served, in every phase: a read answers the word and has no side effect, a
write does what the offset says (20_memory.md R61, R63, R68; the port's answer is the model's `reply`, log 8). -/
def Obligations.WordAccessIsServed : Prop :=
  ∀ (s : State) (off : Nat) (v : Word), off % 4 = 0 → off < 0x40000 →
    hostAccess (.read (s.cfg.blockBase + off) 4) s = .next { s with reply := .data (s.readWord off) } ∧
    (∃ t, hostAccess (.write (s.cfg.blockBase + off) 4 v) s = .next t ∧ t.reply = .written ∧ t.cfg = s.cfg ∧
      writeWord off v { s with reply := .written } = .next t)

/-- A host access outside the block's register space stops the model (model's choice: log 9). -/
def Obligations.AccessOutsideTheBlockFaults : Prop :=
  ∀ (s : State) (addr bytes : Nat) (v : Word), addr < s.cfg.blockBase ∨ s.cfg.blockBase + 0x40000 ≤ addr →
    hostAccess (.read addr bytes) s = .fault (.outsideBlock addr) ∧
    hostAccess (.write addr bytes v) s = .fault (.outsideBlock addr)

/-- 20_memory.md R65: byte k+j of a buffer is lane j of the bus word at k, for writes and reads; XE_TEXT is packed in the
same order. -/
def Obligations.ByteLanes : Prop :=
  (∀ (s : State) (k : Nat) (v : Word), s.busy = false → k % 4 = 0 →
    (k < s.cfg.rxbufSize → ∃ t, writeWord (0x20000 + k) v s = .next t ∧ t = { s with rxbuf := t.rxbuf } ∧
      ∀ i, t.rx i =
        if k ≤ i ∧ i < k + 4 ∧ i < s.cfg.rxbufSize then v.extractLsb' (8 * (i - k)) 8 else s.rx i) ∧
    (k < 21 → ∃ t, writeWord (0x1800 + k) v s = .next t ∧ t = { s with cmdbuf := t.cmdbuf } ∧
      ∀ i, t.cb i = if k ≤ i ∧ i < k + 4 ∧ i < 21 then v.extractLsb' (8 * (i - k)) 8 else s.cb i)) ∧
  (∀ (s : State) (k j : Nat), k % 4 = 0 → j < 4 →
    (s.readWord (0x20000 + k)).extractLsb' (8 * j) 8 = (if k + j < s.cfg.rxbufSize then s.rx (k + j) else 0) ∧
    (k < 24 → (s.readWord (0x1800 + k)).extractLsb' (8 * j) 8 = if k + j < 21 then s.cb (k + j) else 0)) ∧
  (∀ (s : State) (e : XEntry) (m k : Nat), m < s.cfg.maxExtra → m < 32 → s.dec.xe[m]? = some e → k < 56 →
    (s.readWord (0x800 + 64 * m + 8 + 4 * (k / 4))).extractLsb' (8 * (k % 4)) 8 = e.text.getD k 0)

/-- Writes to CTRL and the operand registers while IDLE only store (10_state.md R22, R25 to R29, 20_memory.md R68). -/
def Obligations.OperandWritesStore : Prop :=
  ∀ (s : State) (v : Word), s.busy = false →
    writeWord 0x004 v s =
      .next { s with ctrl := { irqEn := v.getLsbD 0, csumStrict := v.getLsbD 1, endCheck := v.getLsbD 2 } } ∧
    writeWord 0x010 v s = .next { s with rxLen := v } ∧
    writeWord 0x014 v s = .next { s with winBase := v } ∧
    writeWord 0x018 v s = .next { s with winLen := v } ∧
    writeWord 0x01C v s = .next { s with csStart := v } ∧
    writeWord 0x020 v s = .next { s with csCount := v }

/-- The acknowledgement: a STATUS write clears DONE by bit 1, ERR and ECODE by bit 2, ignores the rest, in every phase
(10_state.md R24, 60_exceptions.md R228). -/
def Obligations.AcknowledgeClears : Prop :=
  ∀ (s : State) (v : Word), ∃ t, writeWord 0x00C v s = .next t ∧ t = { s with status := t.status } ∧
    t.status.echo = s.status.echo ∧
    t.status.done = (s.status.done && !(v.getLsbD 1)) ∧
    t.status.err = (s.status.err && !(v.getLsbD 2)) ∧
    (v.getLsbD 2 = true → t.status.ecode = .none) ∧ (v.getLsbD 2 = false → t.status.ecode = s.status.ecode)

/-- Every bit of STATUS as a host reads it (10_state.md R24), the codes of ECODE and RESULT number by number
(60_exceptions.md R223, R220). -/
def Obligations.StatusBits : Prop :=
  ∀ s : State,
    let w := s.readWord 0x00C
    w.getLsbD 0 = s.inflight.isSome ∧ w.getLsbD 1 = s.status.done ∧ w.getLsbD 2 = s.status.err ∧
    w.getLsbD 3 = false ∧
    (s.status.ecode = .none ↔ w.extractLsb' 4 4 = 0) ∧ (s.status.ecode = .illegalCmd ↔ w.extractLsb' 4 4 = 1) ∧
    (s.status.ecode = .range ↔ w.extractLsb' 4 4 = 2) ∧ (s.status.ecode = .busy ↔ w.extractLsb' 4 4 = 3) ∧
    (s.status.ecode = .busyWrite ↔ w.extractLsb' 4 4 = 4) ∧
    (s.dec.result = .none ↔ w.extractLsb' 8 4 = 0) ∧ (s.dec.result = .ok ↔ w.extractLsb' 8 4 = 1) ∧
    (s.dec.result = .short ↔ w.extractLsb' 8 4 = 2) ∧ (s.dec.result = .badStart ↔ w.extractLsb' 8 4 = 3) ∧
    (s.dec.result = .incomplete ↔ w.extractLsb' 8 4 = 4) ∧ (s.dec.result = .csumFatal ↔ w.extractLsb' 8 4 = 5) ∧
    (s.dec.result = .noPayload ↔ w.extractLsb' 8 4 = 6) ∧ (s.dec.result = .badEnd ↔ w.extractLsb' 8 4 = 7) ∧
    (s.dec.result = .noCells ↔ w.extractLsb' 8 4 = 8) ∧
    w.getLsbD 12 = s.dec.flags.csumBad ∧ w.getLsbD 13 = s.dec.flags.celltagBad ∧
    w.getLsbD 14 = s.dec.flags.cellCap ∧ w.getLsbD 15 = s.dec.flags.cellShort ∧ w.getLsbD 16 = s.dec.flags.xcap ∧
    w.getLsbD 17 = s.dec.flags.xovr ∧ w.getLsbD 18 = s.dec.flags.xunk ∧ w.getLsbD 19 = s.dec.flags.xdup ∧
    w.getLsbD 20 = s.dec.flags.txtTrunc ∧ w.getLsbD 21 = s.status.echo ∧ w.getLsbD 22 = s.dec.valid ∧
    w.extractLsb' 23 9 = 0

/-- What each offset of the control, operand, result and record registers reads (10_state.md R21 to R37, R42). The bits
that LKRES, FR_LEN and REC_CELLHDR have no field in read 0 in every state with the invariant. -/
def Obligations.RegisterReads : Prop :=
  ∀ s : State,
    s.readWord 0x000 = 0x434B3136 ∧
    (s.readWord 0x004).toNat = s.ctrl.irqEn.toNat + 2 * s.ctrl.csumStrict.toNat + 4 * s.ctrl.endCheck.toNat ∧
    s.readWord 0x008 = s.cmd ∧ s.readWord 0x010 = s.rxLen ∧ s.readWord 0x014 = s.winBase ∧
    s.readWord 0x018 = s.winLen ∧ s.readWord 0x01C = s.csStart ∧ s.readWord 0x020 = s.csCount ∧
    (s.readWord 0x024).toNat = s.csum.toNat ∧ s.readWord 0x028 = s.csacc ∧ s.readWord 0x02C = s.lkres ∧
    s.readWord 0x030 = s.dec.frLen ∧ s.readWord 0x034 = s.dec.frCsum ∧ s.readWord 0x038 = s.dec.frPend ∧
    s.readWord 0x03C = s.dec.frXoff ∧ s.readWord 0x040 = s.dec.frEoff ∧
    (s.readWord 0x080).toNat = s.dec.record.ncells.toNat ∧ (s.readWord 0x084).toNat = s.dec.record.vmin.toNat ∧
    (s.readWord 0x088).toNat = s.dec.record.vmax.toNat ∧ (s.readWord 0x08C).toNat = s.dec.record.vdelta.toNat ∧
    s.readWord 0x090 = s.dec.record.tmos ∧ s.readWord 0x094 = s.dec.record.tp1 ∧
    s.readWord 0x098 = s.dec.record.tp2 ∧ (s.readWord 0x09C).toNat = s.dec.record.vpack.toNat ∧
    s.readWord 0x0A0 = s.dec.record.ipack ∧ (s.readWord 0x0A4).toNat = s.dec.record.soc.toNat ∧
    (s.readWord 0x0A8).toNat = s.dec.record.fixvalid.toNat ∧ (s.readWord 0x0AC).toNat = s.dec.record.nextra.toNat ∧
    s.readWord 0x0B0 = s.dec.record.cellhdr ∧
    (s.Inv →
      (s.readWord 0x02C).extractLsb' 10 6 = 0 ∧ (s.readWord 0x02C).extractLsb' 21 3 = 0 ∧
      (s.readWord 0x030).extractLsb' 17 15 = 0 ∧ (s.readWord 0x0B0).extractLsb' 17 15 = 0)

/-- What the CELL and XE windows read: the decoded entries, 0 beyond them (10_state.md R43, R44). -/
def Obligations.ArrayReads : Prop :=
  ∀ (s : State) (i : Nat), s.cfg.legal = true →
    (i < 256 →
      (∀ e, i < s.cfg.maxCells → s.dec.cells[i]? = some e →
        (s.readWord (0x400 + 4 * i)).toNat = e.mv.toNat + 65536 * e.info.toNat) ∧
      (s.cfg.maxCells ≤ i ∨ s.dec.cells.length ≤ i → s.readWord (0x400 + 4 * i) = 0)) ∧
    (i < 32 →
      (∀ e, i < s.cfg.maxExtra → s.dec.xe[i]? = some e → e.text.length < 256 →
        (s.readWord (0x800 + 64 * i)).toNat =
          e.tag.toNat + (if e.kind = .text then 256 else 0) + 65536 * e.width.toNat + 16777216 * e.text.length ∧
        s.readWord (0x800 + 64 * i + 4) = e.value) ∧
      (s.cfg.maxExtra ≤ i ∨ s.dec.xe.length ≤ i → ∀ w, w < 16 → s.readWord (0x800 + 64 * i + 4 * w) = 0))

/-- 10_state.md R38, R47, 30_encoding.md R90: the configuration registers and the read-back words of the Field Code
Table, and that nothing writes the table. -/
def Obligations.ConfigurationReads : Prop :=
  ∀ s : State, s.cfg.legal = true →
    ((s.readWord 0x044).toNat = s.cfg.maxCells + 256 * s.cfg.maxExtra + 65536 * s.cfg.textCap ∧
      (s.readWord 0x048).toNat = s.cfg.rxbufSize ∧
      (s.readWord 0x04C).toNat =
        s.cfg.start0.toNat + 256 * s.cfg.start1.toNat + 65536 * s.cfg.endMarker.toNat +
          16777216 * s.cfg.cellTag.toNat ∧
      (s.readWord 0x050).toNat =
        s.cfg.tagTmos.toNat + 256 * s.cfg.tagTp1.toNat + 65536 * s.cfg.tagTp2.toNat +
          16777216 * s.cfg.tagVpack.toNat ∧
      (s.readWord 0x054).toNat = s.cfg.tagIpack.toNat + 256 * s.cfg.tagSoc.toNat + 65536 * s.cfg.fct.length) ∧
    (∀ k, k < 256 →
      (∀ r, s.cfg.fct[k]? = some r →
        (s.readWord (0x1000 + 4 * k)).toNat =
          r.code.toNat + 256 * r.width + (if r.kind = .text then 65536 else 0) + 2147483648) ∧
      (s.cfg.fct.length ≤ k → s.readWord (0x1000 + 4 * k) = 0) ∧
      ∀ v, writeWord (0x1000 + 4 * k) v s = .next s) ∧
    (∀ t, step s = .next t → t.cfg = s.cfg)

/-- 10_state.md R48: IRQ is the level CTRL.IRQ_EN and (DONE or ERR), 0 after reset. Where a step raises it, the step is a
commit, a refusal that sets ERR, or the CTRL write that sets IRQ_EN while DONE or ERR is 1; where a step drops it, the
STATUS write that clears the last of DONE and ERR, the CTRL write that clears IRQ_EN, SRESET or RESET
(70_reset_and_hazards.md R263), or an accepted issue, which clears DONE (40_commands.md R100; DEDUCED, log 21). -/
def Obligations.IrqIsALevel : Prop :=
  (∀ s : State, s.irq = (s.ctrl.irqEn && (s.status.done || s.status.err))) ∧
  (∀ c : Config, (State.resetOf c).irq = false) ∧
  (∀ s t : State, step s = .next t → s.irq = false → t.irq = true →
    (s.busy = true ∧ t.busy = false ∧ t.status.done = true ∧ t.ctrl = s.ctrl) ∨
    (∃ off v rest code, s.inputs = .host (.write (s.cfg.blockBase + off) 4 v) :: rest ∧
      s.ctrl.irqEn = true ∧ s.status.err = false ∧ code ≠ .none ∧
      t =
        { s with
          cmd := t.cmd
          inputs := rest
          reply := .written
          status := { s.status with err := true, ecode := code } }) ∨
    (∃ v rest, s.inputs = .host (.write (s.cfg.blockBase + 0x004) 4 v) :: rest ∧ s.busy = false ∧
      s.ctrl.irqEn = false ∧ v.getLsbD 0 = true ∧ (s.status.done = true ∨ s.status.err = true) ∧
      t.status = s.status)) ∧
  (∀ s t : State, s.Inv → step s = .next t → s.irq = true → t.irq = false →
    (∃ rest, s.inputs = .reset :: rest) ∨
    (∃ v rest, s.inputs = .host (.write (s.cfg.blockBase + 0x00C) 4 v) :: rest ∧
      (s.status.done = true → v.getLsbD 1 = true) ∧ (s.status.err = true → v.getLsbD 2 = true)) ∨
    (∃ v rest, s.inputs = .host (.write (s.cfg.blockBase + 0x004) 4 v) :: rest ∧ s.busy = false ∧
      v.getLsbD 0 = false) ∨
    (∃ rest, s.inputs = .host (.write (s.cfg.blockBase + 0x008) 4 0x0000000F) :: rest ∧ s.busy = false) ∨
    (∃ v rest, s.inputs = .host (.write (s.cfg.blockBase + 0x008) 4 v) :: rest ∧ s.busy = false ∧ t.busy = true ∧
      s.status.err = false ∧ t.status.done = false))

/-! ### Commands -/

/-- NOP: nothing but the commit (40_commands.md R104, R102). -/
def Obligations.NopOnlyCommits : Prop :=
  ∀ (s : State) (f : InFlight), s.inflight = some f → f.phase = .accepted →
    exec .nop s = .next { s with inflight := none, status := { s.status with done := true } }

/-- 41_frame_boundary.md R130 as EXTRACT commits it (40_commands.md R105): one leading copy of the command is stripped,
unless nothing would remain; otherwise the whole buffer is the window. -/
def Obligations.ExtractStripsOneEcho : Prop :=
  ∀ (s : State) (f : InFlight), s.inflight = some f → f.phase = .accepted →
    ((21 ≤ f.snap.rxLen.toNat ∧ (∀ i, i < 21 → s.rx i = s.cb i) ∧ 0 < f.snap.rxLen.toNat - 21) →
      exec .extract s =
        .next
          { s with
            winBase := 21
            winLen := f.snap.rxLen - 21
            inflight := none
            status := { s.status with done := true, echo := true } }) ∧
    (¬ (21 ≤ f.snap.rxLen.toNat ∧ (∀ i, i < 21 → s.rx i = s.cb i) ∧ 0 < f.snap.rxLen.toNat - 21) →
      exec .extract s =
        .next
          { s with
            winBase := 0
            winLen := f.snap.rxLen
            inflight := none
            status := { s.status with done := true, echo := false } })

/-- 60_exceptions.md R226: DECODE reports the first failing stage only, with what the stages before it wrote and every
other result at its default (40_commands.md R113). If none fails the engine stands before the cell block, as a move of
its own (model's choice: log 6), with OFF at PAYLOAD_START, which no rule gives OFF there (model's choice: log 7). -/
def Obligations.DecodeReportsFirstFailure : Prop :=
  ∀ (s : State) (f : InFlight), s.inflight = some f → f.phase = .accepted →
    let b := s.windowByte f.snap.winBase.toNat
    let len := f.snap.winLen.toNat
    let lenf := refBe16 b 2
    let total := 2 + lenf
    let comp := refSum b (total - 4) % 65536
    let stored := refBe16 b (total - 2)
    let commits (set : DecodeSet) : Prop :=
      exec .decode s = .next { s with dec := set, inflight := none, status := { s.status with done := true } }
    let short := len < 20
    let badStart := b 0 ≠ s.cfg.start0 ∨ b 1 ≠ s.cfg.start1
    let incomplete := len < total
    let csumFatal := comp ≠ stored ∧ f.snap.ctrl.csumStrict = true
    let noPayload := total ≤ 20
    let badEnd := f.snap.ctrl.endCheck = true ∧ b (total - 5) ≠ s.cfg.endMarker
    let frLen := BitVec.ofNat 32 (65536 + lenf)
    let frCsum := BitVec.ofNat 32 (65536 * stored + comp)
    let flags := { Flags.clear with csumBad := decide (comp ≠ stored) }
    (short → commits { DecodeSet.default with result := .short }) ∧
    (¬ short → badStart → commits { DecodeSet.default with result := .badStart }) ∧
    (¬ short → ¬ badStart → incomplete →
      commits { DecodeSet.default with result := .incomplete, frLen := frLen }) ∧
    (¬ short → ¬ badStart → ¬ incomplete → csumFatal →
      commits { DecodeSet.default with result := .csumFatal, frLen := frLen, frCsum := frCsum, flags := flags }) ∧
    (¬ short → ¬ badStart → ¬ incomplete → ¬ csumFatal → noPayload →
      commits { DecodeSet.default with result := .noPayload, frLen := frLen, frCsum := frCsum, flags := flags }) ∧
    (¬ short → ¬ badStart → ¬ incomplete → ¬ csumFatal → ¬ noPayload → badEnd →
      commits
        { DecodeSet.default with
          result := .badEnd, frLen := frLen, frCsum := frCsum, flags := flags, frPend := BitVec.ofNat 32 (total - 9) }) ∧
    (¬ short → ¬ badStart → ¬ incomplete → ¬ csumFatal → ¬ noPayload → ¬ badEnd →
      ∃ j, exec .decode s = .next { s with inflight := some { f with phase := .cells j } } ∧
        j.extraction = none ∧ j.base = f.snap.winBase.toNat ∧ j.lenf.toNat = lenf ∧ j.total = total ∧
        j.eff = total ∧ j.pe = total - 9 ∧ j.off = 11 ∧ j.n = 0 ∧ j.x = 0 ∧ j.seen = [] ∧
        j.set =
          { DecodeSet.default with
            frLen := frLen, frCsum := frCsum, flags := flags, frPend := BitVec.ofNat 32 (total - 9) })

/-- EXTRACT_DECODE does what DECODE does on the window the extractor gives, and commits the extractor's registers with
the decode (40_commands.md R108): from every accepted command EXTRACT answers a next state, DECODE on its window does,
and so does EXTRACT_DECODE, with the same outcome. -/
def Obligations.ExtractDecodeIsExtractThenDecode : Prop :=
  ∀ (s : State) (f : InFlight), s.inflight = some f → f.phase = .accepted →
    ∃ t u : State, exec .extract s = .next t ∧
      exec .decode
          { t with
            inflight := some { f with snap := { f.snap with winBase := t.winBase, winLen := t.winLen } }
            status := { t.status with done := s.status.done } } =
        .next u ∧
      ((u.busy = false ∧ exec .extractDecode s = .next u) ∨
        (u.busy = true ∧ ∃ j,
          u.inflight = some { f with
            snap := { f.snap with winBase := t.winBase, winLen := t.winLen }, phase := .cells j } ∧
          exec .extractDecode s =
            .next
              { s with
                inflight :=
                  some
                    { f with
                      phase :=
                        .cells
                          { j with
                            extraction :=
                              some { base := t.winBase, len := t.winLen, echo := t.status.echo } } } }))

/-- CSUM16: CSACC is the sum of the selected bytes, CSUM its low 16 bits; the sum cannot wrap where the count is at most
131072 (40_commands.md R109, 42_checksum16.md R150). -/
def Obligations.Csum16SumsTheBytes : Prop :=
  ∀ (s : State) (f : InFlight) (src : Buffer), s.inflight = some f → f.phase = .accepted →
    let sum := refSum (fun i => s.bufByte src (f.snap.csStart.toNat + i)) f.snap.csCount.toNat
    exec (.csum16 src) s =
      .next
        { s with
          csacc := BitVec.ofNat 32 sum
          csum := BitVec.ofNat 16 sum
          inflight := none
          status := { s.status with done := true } } ∧
    (f.snap.csCount.toNat ≤ 131072 → sum < 4294967296)

/-- LOOKUP: LKRES names the FCT row with that code, or only the code where no row has it (40_commands.md R110,
44_tagged_field.md R191). -/
def Obligations.LookupFindsTheRow : Prop :=
  ∀ (s : State) (f : InFlight) (tag : Byte), s.inflight = some f → f.phase = .accepted → s.cfg.legal = true →
    (∀ k r, s.cfg.fct[k]? = some r → r.code = tag →
      exec (.lookup tag) s =
        .next
          { s with
            lkres :=
              BitVec.ofNat 32
                (tag.toNat + 256 + (if r.kind = .text then 512 else 0) + 65536 * r.width + 16777216 * k)
            inflight := none
            status := { s.status with done := true } }) ∧
    ((∀ r, r ∈ s.cfg.fct → r.code ≠ tag) →
      exec (.lookup tag) s =
        .next
          { s with
            lkres := BitVec.ofNat 32 tag.toNat
            inflight := none
            status := { s.status with done := true } })

/-- 70_reset_and_hazards.md R252: SRESET puts every register at its reset value and leaves RXBUF, CMDBUF and the FCT
unchanged. That the model's own fields `inputs` and `reply` stay is its choice (log 14). -/
def Obligations.SoftResetKeepsBuffers : Prop :=
  ∀ s : State, ∃ t, exec .sreset s = .next t ∧ t.registersAtReset ∧ t.cfg = s.cfg ∧ t.status.done = false ∧
    (∀ b i, t.bufByte b i = s.bufByte b i) ∧ t.inputs = s.inputs ∧ t.reply = s.reply

/-- 40_commands.md R103: the registers each command's commit writes are exactly its result set; a command that goes on
changes nothing but the engine. -/
def Obligations.ResultSetsAreExact : Prop :=
  ∀ (i : Instr) (s t : State), i.slot = none → i ≠ .sreset → exec i s = .next t →
    (t.cfg = s.cfg ∧ t.ctrl = s.ctrl ∧ t.cmd = s.cmd ∧ t.status.err = s.status.err ∧
      t.status.ecode = s.status.ecode ∧ t.rxLen = s.rxLen ∧ t.csStart = s.csStart ∧ t.csCount = s.csCount ∧
      (∀ b k, t.bufByte b k = s.bufByte b k) ∧ t.epoch = s.epoch ∧ t.inputs = s.inputs ∧ t.reply = s.reply) ∧
    (i ≠ .extract → i ≠ .extractDecode →
      t.winBase = s.winBase ∧ t.winLen = s.winLen ∧ t.status.echo = s.status.echo) ∧
    (i ≠ .decode → i ≠ .extractDecode → t.dec = s.dec) ∧
    ((∀ src, i ≠ .csum16 src) → t.csum = s.csum ∧ t.csacc = s.csacc) ∧
    ((∀ tag, i ≠ .lookup tag) → t.lkres = s.lkres) ∧
    (t.busy = true → t = { s with inflight := t.inflight }) ∧
    (t.busy = false → t.status.done = true)

/-! ### Elements -/

/-- The cell block: the header, as many cells as are declared, fit in CELL and lie inside the frame, each of its info
byte and big-endian millivolts, the flags of what was dropped, OFF past the declared block; the rest of the decode is
unchanged, the statistics apart (43_fixed_field.md R160 to R163). -/
def Obligations.CellBlockDecodes : Prop :=
  ∀ (s : State) (f : InFlight) (j : Job) (tag bc : Byte) (entries : List Byte),
    s.inflight = some f → f.phase = .cells j →
    ∃ j', exec (.cellBlock tag bc entries) s =
        .next { s with inflight := some { f with phase := .fixed .tmos j' } } ∧
      let n := min (min (bc.toNat / 3) s.cfg.maxCells) (entries.length / 3)
      j'.off = 13 + bc.toNat ∧ j'.n = n ∧ j'.set.cells.length = n ∧
      (∀ i e, j'.set.cells[i]? = some e → ∃ hi lo, entries[3 * i]? = some e.info ∧
        entries[3 * i + 1]? = some hi ∧ entries[3 * i + 2]? = some lo ∧ e.mv.toNat = hi.toNat * 256 + lo.toNat) ∧
      j'.set.record.ncells = BitVec.ofNat 8 n ∧
      j'.set.record.cellhdr = BitVec.ofNat 32 (tag.toNat + 256 * bc.toNat + 65536) ∧
      j'.set.flags =
        { j.set.flags with
          celltagBad := decide (tag ≠ s.cfg.cellTag)
          cellCap := decide (s.cfg.maxCells < bc.toNat / 3 ∧ s.cfg.maxCells ≤ entries.length / 3)
          cellShort := decide (entries.length / 3 < min (bc.toNat / 3) s.cfg.maxCells) } ∧
      j' =
        { j with
          off := j'.off
          n := j'.n
          trackMin := j'.trackMin
          trackMax := j'.trackMax
          set :=
            { j.set with
              record :=
                { j.set.record with
                  ncells := j'.set.record.ncells
                  vmin := j'.set.record.vmin
                  vmax := j'.set.record.vmax
                  vdelta := j'.set.record.vdelta
                  cellhdr := j'.set.record.cellhdr }
              cells := j'.set.cells
              flags := j'.set.flags } }

/-- 43_fixed_field.md R164: the statistics of the decoded cells; without a cell they are left as they were. -/
def Obligations.CellStatistics : Prop :=
  ∀ (s : State) (f : InFlight) (j : Job) (tag bc : Byte) (entries : List Byte),
    s.inflight = some f → f.phase = .cells j →
    ∃ j', exec (.cellBlock tag bc entries) s =
        .next { s with inflight := some { f with phase := .fixed .tmos j' } } ∧
      let r := j'.set.record
      (j'.set.cells ≠ [] →
        (∀ e ∈ j'.set.cells, e.mv.toNat ≤ r.vmax.toNat) ∧ (∃ e ∈ j'.set.cells, e.mv = r.vmax) ∧
        ((∀ e ∈ j'.set.cells, e.mv = 0) → r.vmin = 0) ∧
        ((∃ e ∈ j'.set.cells, e.mv ≠ 0) →
          (∃ e ∈ j'.set.cells, e.mv ≠ 0 ∧ e.mv = r.vmin) ∧
          ∀ e ∈ j'.set.cells, e.mv ≠ 0 → r.vmin.toNat ≤ e.mv.toNat) ∧
        r.vdelta.toNat + r.vmin.toNat = r.vmax.toNat) ∧
      (j'.set.cells = [] →
        r.vmin = j.set.record.vmin ∧ r.vmax = j.set.record.vmax ∧ r.vdelta = j.set.record.vdelta)

/-- 43_fixed_field.md R167, R168, R169: the three temperatures, as signed 32-bit words. -/
def Obligations.TemperaturesAreRead : Prop :=
  ∀ (s : State) (f : InFlight) (j : Job) (raw : Half), s.inflight = some f →
    (f.phase = .fixed .tmos j →
      exec (.fixTmos raw) s =
        .next
          { s with
            inflight :=
              some
                { f with
                  phase :=
                    .fixed .tp1
                      { j with
                        off := j.off + 3
                        set :=
                          { j.set with
                            record :=
                              { j.set.record with
                                tmos := BitVec.ofInt 32 (if 100 < raw.toNat then -((raw.toNat : Int) - 100) else raw.toNat)
                                fixvalid := j.set.record.fixvalid ||| 0b000001 } } } } }) ∧
    (f.phase = .fixed .tp1 j →
      exec (.fixTp1 raw) s =
        .next
          { s with
            inflight :=
              some
                { f with
                  phase :=
                    .fixed .tp2
                      { j with
                        off := j.off + 3
                        set :=
                          { j.set with
                            record :=
                              { j.set.record with
                                tp1 := BitVec.ofInt 32 (if 100 < raw.toNat then -((raw.toNat : Int) - 100) else raw.toNat)
                                fixvalid := j.set.record.fixvalid ||| 0b000010 } } } } }) ∧
    (f.phase = .fixed .tp2 j →
      exec (.fixTp2 raw) s =
        .next
          { s with
            inflight :=
              some
                { f with
                  phase :=
                    .fixed .vpack
                      { j with
                        off := j.off + 3
                        set :=
                          { j.set with
                            record :=
                              { j.set.record with
                                tp2 := BitVec.ofInt 32 (if 100 < raw.toNat then -((raw.toNat : Int) - 100) else raw.toNat)
                                fixvalid := j.set.record.fixvalid ||| 0b000100 } } } } })

/-- 43_fixed_field.md R170, R174: the pack voltage in centivolts. -/
def Obligations.PackVoltageIsRead : Prop :=
  ∀ (s : State) (f : InFlight) (j : Job) (raw : Half), s.inflight = some f → f.phase = .fixed .vpack j →
    exec (.fixVpack raw) s =
      .next
        { s with
          inflight :=
            some
              { f with
                phase :=
                  .fixed .ipack
                    { j with
                      off := j.off + 3
                      set :=
                        { j.set with
                          record :=
                            { j.set.record with
                              vpack := raw
                              fixvalid := j.set.record.fixvalid ||| 0b001000 } } } } }

/-- 43_fixed_field.md R171, R175: the pack current, its encoding selected by the frame's length field. -/
def Obligations.PackCurrentIsRead : Prop :=
  ∀ (s : State) (f : InFlight) (j : Job) (raw : Half), s.inflight = some f → f.phase = .fixed .ipack j →
    ∃ amps : Int,
      exec (.fixIpack raw) s =
        .next
          { s with
            inflight :=
              some
                { f with
                  phase :=
                    .fixed .soc
                      { j with
                        off := j.off + 3
                        set :=
                          { j.set with
                            record :=
                              { j.set.record with
                                ipack := BitVec.ofInt 32 amps
                                fixvalid := j.set.record.fixvalid ||| 0b010000 } } } } } ∧
      (j.lenf.toNat < 260 → raw.toNat < 32768 → amps = -(raw.toNat : Int)) ∧
      (j.lenf.toNat < 260 → 32768 ≤ raw.toNat → amps = (raw.toNat : Int) - 32768) ∧
      (260 ≤ j.lenf.toNat → amps = 10000 - (raw.toNat : Int)) ∧
      -55535 ≤ amps ∧ amps ≤ 32767

/-- 43_fixed_field.md R172, R176: the state of charge, taken literally; FR_XOFF records where the extra-field run
starts (44_tagged_field.md R192). -/
def Obligations.StateOfChargeIsRead : Prop :=
  ∀ (s : State) (f : InFlight) (j : Job) (raw : Byte), s.inflight = some f → f.phase = .fixed .soc j →
    exec (.fixSoc raw) s =
      .next
        { s with
          inflight :=
            some
              { f with
                phase :=
                  .extra
                    { j with
                      off := j.off + 2
                      set :=
                        { j.set with
                          record :=
                            { j.set.record with
                              soc := raw
                              fixvalid := j.set.record.fixvalid ||| 0b100000 }
                          frXoff := BitVec.ofNat 32 (j.off + 2) } } } }

/-- 43_fixed_field.md R166: one attempt of the fixed-field sequence, on the window's bytes: the field is read where its
tag stands at OFF and its value lies inside the frame, otherwise neither OFF nor the record changes. -/
def Obligations.FixedFieldAttempt : Prop :=
  ∀ (s : State) (f : InFlight) (k : FixedField) (j : Job), s.cfg.legal = true → s.inputs = [] →
    s.inflight = some f → f.phase = .fixed k j →
    let b := s.windowByte j.base
    let j' :=
      if j.off + k.width < j.eff ∧ b j.off = s.cfg.fixedTag k then
        { j with
          off := j.off + 1 + k.width
          set := { j.set with record := refFixedWrite k (refRaw b k j.off) j.lenf.toNat j.set.record } }
      else j
    step s =
      .next
        { s with
          inflight :=
            some
              { f with
                phase :=
                  match k with
                  | .tmos => .fixed .tp1 j'
                  | .tp1 => .fixed .tp2 j'
                  | .tp2 => .fixed .vpack j'
                  | .vpack => .fixed .ipack j'
                  | .ipack => .fixed .soc j'
                  | .soc => .extra { j' with set := { j'.set with frXoff := BitVec.ofNat 32 j'.off } } } }

/-- 44_tagged_field.md R194: an unknown tag is skipped by exactly one byte. -/
def Obligations.UnknownTagIsSkipped : Prop :=
  ∀ (s : State) (f : InFlight) (j : Job) (t : Byte) (value : List Byte), s.inflight = some f →
    f.phase = .extra j → (∀ r, r ∈ s.cfg.fct → r.code ≠ t) →
    exec (.xfield t value) s =
      .next
        { s with
          inflight :=
            some
              { f with
                phase :=
                  .extra
                    { j with
                      off := j.off + 1
                      set := { j.set with flags := { j.set.flags with xunk := true } } } } }

/-- 44_tagged_field.md R195: a tag already recorded in this run is consumed, not recorded, whether or not its value lies
inside the frame. -/
def Obligations.DuplicateTagIsConsumed : Prop :=
  ∀ (s : State) (f : InFlight) (j : Job) (t : Byte) (value : List Byte) (r : FctRow), s.cfg.legal = true →
    s.inflight = some f → f.phase = .extra j → r ∈ s.cfg.fct → r.code = t → t ∈ j.seen →
    exec (.xfield t value) s =
      .next
        { s with
          inflight :=
            some
              { f with
                phase :=
                  .extra
                    { j with
                      off := j.off + 1 + r.width
                      set := { j.set with flags := { j.set.flags with xdup := true } } } } }

/-- 44_tagged_field.md R196: a known field whose value would reach the end of the frame is not recorded and ends the run
with OFF at its tag. -/
def Obligations.OverrunEndsTheRun : Prop :=
  ∀ (s : State) (f : InFlight) (j : Job) (t : Byte) (value : List Byte) (r : FctRow), s.cfg.legal = true →
    s.inflight = some f → f.phase = .extra j → r ∈ s.cfg.fct → r.code = t → t ∉ j.seen →
    value.length < r.width →
    exec (.xfield t value) s =
      .next
        { s with
          inflight :=
            some
              { f with
                phase := .finish { j with set := { j.set with flags := { j.set.flags with xovr := true } } } } }

/-- 44_tagged_field.md R197: a known field is recorded as the next entry of XE: the low 32 bits of its big-endian value
for both kinds (R198), the printable beginning of its bytes, at most TEXT_CAP of them, for a text (R199). -/
def Obligations.KnownFieldIsRecorded : Prop :=
  ∀ (s : State) (f : InFlight) (j : Job) (t : Byte) (value : List Byte) (r : FctRow), s.cfg.legal = true →
    s.inflight = some f → f.phase = .extra j → r ∈ s.cfg.fct → r.code = t → t ∉ j.seen →
    value.length = r.width →
    let run := value.takeWhile (fun v => decide (0x20 ≤ v.toNat ∧ v.toNat ≤ 0x7E))
    exec (.xfield t value) s =
      .next
        { s with
          inflight :=
            some
              { f with
                phase :=
                  .extra
                    { j with
                      off := j.off + 1 + r.width
                      x := j.x + 1
                      seen := t :: j.seen
                      set :=
                        { j.set with
                          xe :=
                            j.set.xe ++
                              [{ tag := t
                                 kind := r.kind
                                 width := BitVec.ofNat 5 r.width
                                 value := BitVec.ofNat 32 (refBignum (fun i => value.getD i 0) 0 r.width)
                                 text := if r.kind = .text then run.take s.cfg.textCap else [] }]
                          flags :=
                            { j.set.flags with
                              txtTrunc :=
                                j.set.flags.txtTrunc ||
                                  decide (r.kind = .text ∧ s.cfg.textCap < run.length) } } } } }

/-- Completion: where the extra-field run ends, one step commits the decode with REC_NEXTRA, XCAP, FR_EOFF, RESULT and
VALID (44_tagged_field.md R200, 43_fixed_field.md R177, 40_commands.md R102), and the extractor's registers where the
command is EXTRACT_DECODE. -/
def Obligations.RunEndCommits : Prop :=
  ∀ (s : State) (f : InFlight) (j : Job), s.cfg.legal = true → s.inputs = [] → s.inflight = some f →
    f.phase = .finish j ∨ (f.phase = .extra j ∧ (j.pe ≤ j.off ∨ s.cfg.maxExtra ≤ j.x)) →
    ∃ t, step s = .next t ∧ t.busy = false ∧ t.status.done = true ∧
      t.dec =
        { j.set with
          record := { j.set.record with nextra := BitVec.ofNat 8 j.x }
          flags := { j.set.flags with xcap := decide (j.x = s.cfg.maxExtra ∧ j.off < j.pe) }
          frEoff := BitVec.ofNat 32 j.off
          result := if 1 ≤ j.n then .ok else .noCells
          valid := decide (1 ≤ j.n) } ∧
      (j.extraction = none → t.winBase = s.winBase ∧ t.winLen = s.winLen ∧ t.status.echo = s.status.echo) ∧
      (∀ e, j.extraction = some e → t.winBase = e.base ∧ t.winLen = e.len ∧ t.status.echo = e.echo) ∧
      t = { s with
        winBase := t.winBase
        winLen := t.winLen
        dec := t.dec
        inflight := none
        status := { s.status with done := true, echo := t.status.echo } }

/-- An element changes nothing but the engine: no register, no flag, no byte of a buffer, nothing a host can read
(40_commands.md R102, 10_state.md R45, R46, R49). -/
def Obligations.ElementsChangeOnlyTheEngine : Prop :=
  ∀ (i : Instr) (s t : State), i.slot ≠ none → exec i s = .next t →
    t = { s with inflight := t.inflight } ∧ s.busy = true ∧ t.busy = true ∧
    (∀ b k, t.bufByte b k = s.bufByte b k) ∧ (∀ off, t.readWord off = s.readWord off) ∧ t.irq = s.irq

/-- Out of turn an instruction is refused by name and has no effect: a command where none was accepted, an element where
the engine does not try it (model's choice: log 11). -/
def Obligations.OutOfTurnIsRefused : Prop :=
  (∀ (i : Instr) (s : State), i.slot = none → i ≠ .sreset →
    (∀ f, s.inflight = some f → f.phase ≠ .accepted) → exec i s = .refused .noAcceptedCommand) ∧
  (∀ (i : Instr) (s : State) (sl : Slot), i.slot = some sl →
    (∀ f, s.inflight = some f →
      match sl with
      | .cellBlock => ∀ j, f.phase ≠ .cells j
      | .fixed k => ∀ j, f.phase ≠ .fixed k j
      | .extra => ∀ j, f.phase ≠ .extra j) →
    exec i s = .refused .notAtElement)

/-! ### Values -/

/-- 42_checksum16.md R151: the arithmetic laws of the adder. -/
def Obligations.AdderLaws : Prop :=
  (∀ bytes : List Byte, (sum16 (ck16 bytes)).toNat = (bytes.map (fun v => v.toNat)).sum % 65536) ∧
  (∀ bytes : List Byte, bytes.length ≤ 16843009 →
    (ck16 bytes).toNat = (bytes.map (fun v => v.toNat)).sum) ∧
  (∀ a b : List Byte, a.Perm b → ck16 a = ck16 b) ∧
  (∀ a b : List Byte, sum16 (ck16 (a ++ b)) = sum16 (ck16 a) + sum16 (ck16 b)) ∧
  (∀ (bytes : List Byte) (n : Nat), ck16 (bytes ++ List.replicate n 0) = ck16 bytes) ∧
  (∀ (s : State) (f : InFlight) (src : Buffer), s.Inv → s.inflight = some f → f.phase = .accepted →
    decodeCommand f.word = .ok (.csum16 src) → f.snap.csCount.toNat ≤ 131072) ∧
  (∀ b : Nat → Byte, (2 + refBe16 b 2) - 4 ≤ 65533)

/-- 42_checksum16.md R155: a frame whose last two bytes are the checksum of all but its last four, big-endian, decodes
with CSUM_BAD 0 whatever CTRL says, so never ends with CSUM_FATAL. -/
def Obligations.ChecksumRoundTrip : Prop :=
  ∀ (s : State) (f : InFlight), s.inflight = some f → f.phase = .accepted →
    let b := s.windowByte f.snap.winBase.toNat
    let eff := 2 + refBe16 b 2
    let sum := sum16 (ck16 (refBytes b 0 (eff - 4)))
    20 ≤ eff → eff ≤ f.snap.winLen.toNat → b (eff - 2) = sum.extractLsb' 8 8 → b (eff - 1) = sum.extractLsb' 0 8 →
    ∃ t, exec .decode s = .next t ∧
      (t.busy = false → t.dec.flags.csumBad = false ∧ t.dec.result ≠ .csumFatal) ∧
      (∀ g j, t.inflight = some g → g.phase = .cells j → j.set.flags.csumBad = false)

/-- 44_tagged_field.md R198: XE_VALUE is the low 32 bits of the big-endian value; the whole value for at most four bytes,
the value of the last four for more. -/
def Obligations.WideValueIsLastFourBytes : Prop :=
  (∀ bytes : List Byte, (xeValue bytes).toNat = refBignum (fun i => bytes.getD i 0) 0 bytes.length % 4294967296) ∧
  (∀ bytes : List Byte, bytes.length ≤ 4 →
    (xeValue bytes).toNat = refBignum (fun i => bytes.getD i 0) 0 bytes.length) ∧
  (∀ front last : List Byte, last.length = 4 → xeValue (front ++ last) = xeValue last)

/-- The temperature rule (43_fixed_field.md R173): the values, the range, and that the register's 32-bit word gives the
value back (00_scope.md R10). -/
def Obligations.TemperatureRule : Prop :=
  ∀ raw : Half,
    (raw.toNat ≤ 100 → temp raw = raw.toNat) ∧ (100 < raw.toNat → temp raw = 100 - (raw.toNat : Int)) ∧
    -65435 ≤ temp raw ∧ temp raw ≤ 100 ∧ (signed32 (temp raw)).toInt = temp raw

/-! ### Reset -/

/-- 70_reset_and_hazards.md R250: RESET in any phase puts every register at its reset value and the engine at IDLE, in
one step; the configuration's constants stay. That the events still to come stay is the model's choice (log 14). -/
def Obligations.HardResetInAnyPhase : Prop :=
  (∀ (s : State) (rest : List Input), s.cfg.legal = true → s.inputs = .reset :: rest →
    ∃ t, step s = .next t ∧ t.registersAtReset ∧ t.cfg = s.cfg ∧ t.inputs = rest) ∧
  (∀ c : Config, (State.resetOf c).registersAtReset) ∧ State.reset.registersAtReset

/-- After RESET no buffer byte keeps a value the model knows: each is the draw of the new epoch, and stays it until the
host writes it (70_reset_and_hazards.md R251; model's form: log 3, 4). Nothing here rests on a drawn value. -/
def Obligations.BuffersAreDrawnAfterReset : Prop :=
  (∀ (s : State) (b : Buffer) (i : Nat), (hardReset s).bufByte b i = Config.powerOnByte (s.epoch + 1) b i) ∧
  (∀ (c : Config) (b : Buffer) (i : Nat), (State.resetOf c).bufByte b i = Config.powerOnByte 0 b i)

/-! ### The whole machine -/

/-- The invariant holds right after reset, in every legal configuration. -/
def Obligations.InvariantAtReset : Prop :=
  (∀ c : Config, c.legal = true → (State.resetOf c).Inv) ∧ State.reset.Inv

/-- Every step keeps the invariant: canonical buffers inside their sizes, ECODE and ERR together, VALID exactly with
RESULT OK, the bits without a field of LKRES, FR_LEN and REC_CELLHDR 0 (10_state.md R32, R33, R42), the snapshot equal
to the live registers while BUSY (10_state.md R41), DONE 0 while BUSY, the working registers of a decode inside the
frame (41_frame_boundary.md R140) and its lists within their capacities. -/
def Obligations.StepKeepsInvariant : Prop :=
  ∀ s t : State, s.Inv → step s = .next t → t.Inv

/-- No reachable machine stops: from every state with the invariant, a step whose event is no host access outside the
block answers a next state (60_exceptions.md R221, R227). -/
def Obligations.StepAlwaysCompletes : Prop :=
  ∀ s : State, s.Inv → s.nextInside → ∃ t, step s = .next t

/-- OFF never decreases during a decode and never wraps (10_state.md R40). -/
def Obligations.ReadOffsetNeverDecreases : Prop :=
  ∀ (s t : State) (f g : InFlight) (j j' : Job), s.Inv → step s = .next t → s.inflight = some f →
    f.phase.job = some j → t.inflight = some g → g.phase.job = some j' →
    j.off ≤ j'.off ∧ j'.off ≤ max 268 (j'.pe + 24) ∧ j'.off ≤ 65552 ∧ j'.pe = j.pe ∧ j'.eff = j.eff

/-- 70_reset_and_hazards.md R255: while a command stays in flight, whatever the step is, every result register still
holds the previous commit's value. -/
def Obligations.StaleUntilCommit : Prop :=
  ∀ s t : State, s.busy = true → step s = .next t → t.busy = true →
    t.dec = s.dec ∧ t.csum = s.csum ∧ t.csacc = s.csacc ∧ t.lkres = s.lkres ∧ t.winBase = s.winBase ∧
    t.winLen = s.winLen ∧ t.status.echo = s.status.echo ∧
    ∀ off, (0x024 ≤ off ∧ off ≤ 0x040) ∨ (0x080 ≤ off ∧ off < 0x1000) → t.readWord off = s.readWord off

/-- Nothing but RESET stops a command: BUSY falls by the commit, which sets DONE and touches no ERR or ECODE, or by
RESET (70_reset_and_hazards.md R253, 60_exceptions.md R221). -/
def Obligations.OnlyResetAbandonsACommand : Prop :=
  ∀ s t : State, s.Inv → s.busy = true → step s = .next t → t.busy = false →
    (∃ rest, s.inputs = .reset :: rest) ∨
    (t.status.done = true ∧ t.status.err = s.status.err ∧ t.status.ecode = s.status.ecode ∧ t.ctrl = s.ctrl ∧
      t.cmd = s.cmd ∧ t.rxLen = s.rxLen ∧ t.csStart = s.csStart ∧ t.csCount = s.csCount ∧
      ∀ b k, t.bufByte b k = s.bufByte b k)

/-- The engine never writes a buffer: its move changes no byte of RXBUF or CMDBUF (10_state.md R45, R46), nor the epoch
their unwritten bytes are drawn for (log 4). -/
def Obligations.EngineNeverWritesBuffers : Prop :=
  ∀ s t : State, engineStep s = .next t → t.rxbuf = s.rxbuf ∧ t.cmdbuf = s.cmdbuf ∧ t.epoch = s.epoch

/-- Every accepted command commits, with BUSY 0 and DONE 1 and ERR, ECODE as they were (60_exceptions.md R221), after
finitely many engine moves (40_commands.md R101, 70_reset_and_hazards.md R262). No rule gives the bound RXBUF_SIZE + 10:
it counts the model's own moves (model's choice: log 6). -/
def Obligations.AcceptedCommandCommits : Prop :=
  ∀ s : State, s.Inv → s.busy = true → s.inputs = [] →
    ∃ k t, k ≤ s.cfg.rxbufSize + 10 ∧ Host.Core.run Sys2Proof.core k s = .next t ∧ t.busy = false ∧
      t.status.done = true ∧ t.status.err = s.status.err ∧ t.status.ecode = s.status.ecode ∧
      t.rxbuf = s.rxbuf ∧ t.cmdbuf = s.cmdbuf

/-- DECODE, run element by element, commits exactly what the pipeline of 40_commands.md R107 computes from the window as
one function, and changes nothing else. The bound on the steps counts the model's own moves (model's choice: log 6). -/
def Obligations.DecodeRefinesPipeline : Prop :=
  ∀ (s : State) (f : InFlight), s.cfg.legal = true → s.inputs = [] → s.inflight = some f → f.phase = .accepted →
    f.word = 0x2 →
    ∃ k, k ≤ f.snap.winLen.toNat + 10 ∧
      Host.Core.run Sys2Proof.core k s =
        .next
          { s with
            dec := refDecode s.cfg (s.windowByte f.snap.winBase.toNat) f.snap.winLen.toNat f.snap.ctrl
            inflight := none
            status := { s.status with done := true } }

/-- EXTRACT_DECODE commits the extractor's window with the pipeline's result on it. Its first case is the echo property:
the decode of an echo followed by a response is the decode of the response's own bytes (40_commands.md R108,
41_frame_boundary.md R131). The bounds on the steps count the model's own moves (model's choice: log 6). -/
def Obligations.ExtractDecodeRefinesPipeline : Prop :=
  ∀ (s : State) (f : InFlight), s.cfg.legal = true → s.inputs = [] → s.inflight = some f → f.phase = .accepted →
    f.word = 0x3 →
    let n := f.snap.rxLen.toNat
    let echoes := 21 < n ∧ ∀ i, i < 21 → s.rx i = s.cb i
    (echoes → ∃ k, k ≤ n + 10 ∧
      Host.Core.run Sys2Proof.core k s =
        .next
          { s with
            winBase := 21
            winLen := f.snap.rxLen - 21
            dec := refDecode s.cfg (fun i => s.rx (21 + i)) (n - 21) f.snap.ctrl
            inflight := none
            status := { s.status with done := true, echo := true } }) ∧
    (¬ echoes → ∃ k, k ≤ n + 10 ∧
      Host.Core.run Sys2Proof.core k s =
        .next
          { s with
            winBase := 0
            winLen := f.snap.rxLen
            dec := refDecode s.cfg s.rx n f.snap.ctrl
            inflight := none
            status := { s.status with done := true, echo := false } })
end

