-- ==== Sys2Proof/Laws/Memory.lean ====
section
/-! SUPPORT. The laws of a buffer's memory: what a read gives after a write, and that every operation keeps the
canonical form and the bounds. -/

namespace Sys2Proof.Laws

open Sys2Proof.Machine

theorem set_keys_mem {i : Nat} {v : Byte} {m : Memory} {k : Nat}
    (h : k ∈ (Memory.set i v m).map (fun cell => cell.1)) : k = i ∨ k ∈ m.map (fun cell => cell.1) := by
  induction m with
  | nil => simpa [Memory.set] using h
  | cons cell m ih =>
    obtain ⟨b, u⟩ := cell
    simp only [Memory.set] at h
    split at h
    · simpa using h
    · split at h
      · simp only [List.map_cons, List.mem_cons] at h ⊢
        exact h.imp_right Or.inr
      · simp only [List.map_cons, List.mem_cons] at h ⊢
        rcases h with h | h
        · exact Or.inr (Or.inl h)
        · exact (ih h).imp_right Or.inr

/-- A write keeps the canonical form. -/
theorem set_wf (i : Nat) (v : Byte) {m : Memory} (h : Memory.wf m) : Memory.wf (Memory.set i v m) := by
  induction m with
  | nil => simp [Memory.set, Memory.wf]
  | cons cell m ih =>
    obtain ⟨b, u⟩ := cell
    have hw : (∀ k ∈ m.map (fun cell => cell.1), b < k) ∧ Memory.wf m := List.pairwise_cons.mp h
    simp only [Memory.set]
    split
    · rename_i hlt
      refine List.pairwise_cons.mpr ⟨fun k hk => ?_, h⟩
      simp only [List.map_cons, List.mem_cons] at hk
      rcases hk with rfl | hk
      · exact hlt
      · exact Nat.lt_trans hlt (hw.1 k hk)
    · split
      · rename_i heq
        subst heq
        exact List.pairwise_cons.mpr hw
      · rename_i hlt hne
        refine List.pairwise_cons.mpr ⟨fun k hk => ?_, ih hw.2⟩
        rcases set_keys_mem hk with rfl | hk
        · exact Nat.lt_of_le_of_ne (Nat.le_of_not_lt hlt) (Ne.symm hne)
        · exact hw.1 k hk

/-- A write inside a bound keeps the bound. -/
theorem set_bound {i n : Nat} (v : Byte) {m : Memory} (hi : i < n) (h : ∀ cell ∈ m, cell.1 < n) :
    ∀ cell ∈ Memory.set i v m, cell.1 < n := by
  intro cell hc
  have hk : cell.1 ∈ (Memory.set i v m).map (fun cell => cell.1) := List.mem_map_of_mem hc
  rcases set_keys_mem hk with h' | h'
  · omega
  · obtain ⟨c', hc', heq⟩ := List.mem_map.mp h'
    exact heq ▸ h c' hc'

theorem get?_eq_none_of_lt {m : Memory} {b : Nat} (h : ∀ k ∈ m.map (fun cell => cell.1), b < k) :
    Memory.get? m b = none := by
  induction m with
  | nil => rfl
  | cons cell m ih =>
    obtain ⟨a, u⟩ := cell
    have : b < a := h a (by simp)
    have hne : a ≠ b := by omega
    simp only [Memory.get?, if_neg hne]
    exact ih (fun k hk => h k (by simp only [List.map_cons, List.mem_cons]; exact Or.inr hk))

/-- A read after a write to the same index gives the byte written. -/
theorem get?_set_same (i : Nat) (v : Byte) (m : Memory) : Memory.get? (Memory.set i v m) i = some v := by
  induction m with
  | nil => simp [Memory.set, Memory.get?]
  | cons cell m ih =>
    obtain ⟨b, u⟩ := cell
    simp only [Memory.set]
    split
    · simp [Memory.get?]
    · split
      · simp [Memory.get?]
      · rename_i hlt hne
        have : b ≠ i := fun h => hne h.symm
        simp [Memory.get?, this, ih]

/-- A write leaves every other index alone. -/
theorem get?_set_other {i k : Nat} (v : Byte) (m : Memory) (h : k ≠ i) :
    Memory.get? (Memory.set i v m) k = Memory.get? m k := by
  induction m with
  | nil => simp [Memory.set, Memory.get?, Ne.symm h]
  | cons cell m ih =>
    obtain ⟨b, u⟩ := cell
    simp only [Memory.set]
    split
    · simp [Memory.get?, Ne.symm h]
    · split
      · rename_i heq
        subst heq
        simp [Memory.get?, Ne.symm h]
      · simp [Memory.get?, ih]

theorem get?_set (i k : Nat) (v : Byte) (m : Memory) :
    Memory.get? (Memory.set i v m) k = if k = i then some v else Memory.get? m k := by
  split
  · rename_i h
    exact h ▸ get?_set_same i v m
  · rename_i h
    exact get?_set_other v m h

theorem setLanes_wf (size k : Nat) (v : Word) (n j : Nat) {m : Memory} (h : Memory.wf m) :
    Memory.wf (Memory.setLanes size k v j n m) := by
  induction n generalizing j m with
  | zero => exact h
  | succ n ih =>
    simp only [Memory.setLanes]
    apply ih
    split
    · exact set_wf _ _ h
    · exact h

theorem setLanes_bound (size k : Nat) (v : Word) (n j : Nat) {m : Memory} (h : ∀ cell ∈ m, cell.1 < size) :
    ∀ cell ∈ Memory.setLanes size k v j n m, cell.1 < size := by
  induction n generalizing j m with
  | zero => exact h
  | succ n ih =>
    simp only [Memory.setLanes]
    apply ih
    split
    · rename_i hlt
      exact set_bound _ hlt h
    · exact h

/-- What a run of byte lanes leaves at an index: the lane stored there, or what was there. -/
theorem get?_setLanes (size k : Nat) (v : Word) (n j i : Nat) (m : Memory) :
    Memory.get? (Memory.setLanes size k v j n m) i =
      if k + j ≤ i ∧ i < k + j + n ∧ i < size then some (laneOf v (i - k)) else Memory.get? m i := by
  induction n generalizing j m with
  | zero =>
    have : ¬ (k + j ≤ i ∧ i < k + j + 0 ∧ i < size) := by omega
    simp only [Memory.setLanes, if_neg this]
  | succ n ih =>
    simp only [Memory.setLanes, ih]
    by_cases hin : k + (j + 1) ≤ i ∧ i < k + (j + 1) + n ∧ i < size
    · have : k + j ≤ i ∧ i < k + j + (n + 1) ∧ i < size := by omega
      rw [if_pos hin, if_pos this]
    · rw [if_neg hin]
      by_cases hi : i = k + j
      · subst hi
        by_cases hs : k + j < size
        · have : k + j ≤ k + j ∧ k + j < k + j + (n + 1) ∧ k + j < size := by omega
          rw [if_pos hs, if_pos this, get?_set_same]
          simp
        · have : ¬ (k + j ≤ k + j ∧ k + j < k + j + (n + 1) ∧ k + j < size) := by omega
          rw [if_neg hs, if_neg this]
      · have : ¬ (k + j ≤ i ∧ i < k + j + (n + 1) ∧ i < size) := by omega
        rw [if_neg this]
        split
        · exact get?_set_other _ _ hi
        · rfl

/-- A word write keeps the canonical form. -/
theorem setWord_wf (size k : Nat) (v : Word) {m : Memory} (h : Memory.wf m) : Memory.wf (Memory.setWord size k v m) :=
  setLanes_wf size k v 4 0 h

/-- A word write stores nothing beyond the buffer. -/
theorem setWord_bound (size k : Nat) (v : Word) {m : Memory} (h : ∀ cell ∈ m, cell.1 < size) :
    ∀ cell ∈ Memory.setWord size k v m, cell.1 < size :=
  setLanes_bound size k v 4 0 h

/-- What a word write leaves at an index: its lane inside the word and the buffer, else what was there. -/
theorem get?_setWord (size k : Nat) (v : Word) (i : Nat) (m : Memory) :
    Memory.get? (Memory.setWord size k v m) i =
      if k ≤ i ∧ i < k + 4 ∧ i < size then some (laneOf v (i - k)) else Memory.get? m i := by
  simp only [Memory.setWord, get?_setLanes, Nat.add_zero]

/-- The length of a run of buffer bytes. -/
@[simp] theorem bufBytes_length (s : State) (b : Buffer) (n i : Nat) : (s.bufBytes b i n).length = n := by
  induction n generalizing i with
  | zero => rfl
  | succ n ih => simp [State.bufBytes, ih]

/-- A byte of a run of buffer bytes. -/
theorem bufBytes_getElem? (s : State) (b : Buffer) (n i j : Nat) (h : j < n) :
    (s.bufBytes b i n)[j]? = some (s.bufByte b (i + j)) := by
  induction n generalizing i j with
  | zero => omega
  | succ n ih =>
    cases j with
    | zero => simp [State.bufBytes]
    | succ j =>
      simp only [State.bufBytes, List.getElem?_cons_succ]
      rw [ih (i + 1) j (by omega)]
      congr 2
      omega

end Sys2Proof.Laws
end

