-- ==== Sys2Proof/Laws/State.lean ====
section
/-! SUPPORT. One lemma per field per update of State, so that no proof unfolds a record update. -/

namespace Sys2Proof.Laws

open Sys2Proof.Machine

@[simp] theorem refuse_cfg (code : Ecode) (s : State) : (refuse code s).cfg = s.cfg := rfl
@[simp] theorem refuse_ctrl (code : Ecode) (s : State) : (refuse code s).ctrl = s.ctrl := rfl
@[simp] theorem refuse_cmd (code : Ecode) (s : State) : (refuse code s).cmd = s.cmd := rfl
@[simp] theorem refuse_status (code : Ecode) (s : State) : (refuse code s).status = { s.status with err := true, ecode := code } := rfl
@[simp] theorem refuse_rxLen (code : Ecode) (s : State) : (refuse code s).rxLen = s.rxLen := rfl
@[simp] theorem refuse_winBase (code : Ecode) (s : State) : (refuse code s).winBase = s.winBase := rfl
@[simp] theorem refuse_winLen (code : Ecode) (s : State) : (refuse code s).winLen = s.winLen := rfl
@[simp] theorem refuse_csStart (code : Ecode) (s : State) : (refuse code s).csStart = s.csStart := rfl
@[simp] theorem refuse_csCount (code : Ecode) (s : State) : (refuse code s).csCount = s.csCount := rfl
@[simp] theorem refuse_csum (code : Ecode) (s : State) : (refuse code s).csum = s.csum := rfl
@[simp] theorem refuse_csacc (code : Ecode) (s : State) : (refuse code s).csacc = s.csacc := rfl
@[simp] theorem refuse_lkres (code : Ecode) (s : State) : (refuse code s).lkres = s.lkres := rfl
@[simp] theorem refuse_dec (code : Ecode) (s : State) : (refuse code s).dec = s.dec := rfl
@[simp] theorem refuse_rxbuf (code : Ecode) (s : State) : (refuse code s).rxbuf = s.rxbuf := rfl
@[simp] theorem refuse_cmdbuf (code : Ecode) (s : State) : (refuse code s).cmdbuf = s.cmdbuf := rfl
@[simp] theorem refuse_epoch (code : Ecode) (s : State) : (refuse code s).epoch = s.epoch := rfl
@[simp] theorem refuse_inflight (code : Ecode) (s : State) : (refuse code s).inflight = s.inflight := rfl
@[simp] theorem refuse_inputs (code : Ecode) (s : State) : (refuse code s).inputs = s.inputs := rfl
@[simp] theorem refuse_reply (code : Ecode) (s : State) : (refuse code s).reply = s.reply := rfl

@[simp] theorem acknowledge_cfg (v : Word) (s : State) : (acknowledge v s).cfg = s.cfg := rfl
@[simp] theorem acknowledge_ctrl (v : Word) (s : State) : (acknowledge v s).ctrl = s.ctrl := rfl
@[simp] theorem acknowledge_cmd (v : Word) (s : State) : (acknowledge v s).cmd = s.cmd := rfl
@[simp] theorem acknowledge_rxLen (v : Word) (s : State) : (acknowledge v s).rxLen = s.rxLen := rfl
@[simp] theorem acknowledge_winBase (v : Word) (s : State) : (acknowledge v s).winBase = s.winBase := rfl
@[simp] theorem acknowledge_winLen (v : Word) (s : State) : (acknowledge v s).winLen = s.winLen := rfl
@[simp] theorem acknowledge_csStart (v : Word) (s : State) : (acknowledge v s).csStart = s.csStart := rfl
@[simp] theorem acknowledge_csCount (v : Word) (s : State) : (acknowledge v s).csCount = s.csCount := rfl
@[simp] theorem acknowledge_csum (v : Word) (s : State) : (acknowledge v s).csum = s.csum := rfl
@[simp] theorem acknowledge_csacc (v : Word) (s : State) : (acknowledge v s).csacc = s.csacc := rfl
@[simp] theorem acknowledge_lkres (v : Word) (s : State) : (acknowledge v s).lkres = s.lkres := rfl
@[simp] theorem acknowledge_dec (v : Word) (s : State) : (acknowledge v s).dec = s.dec := rfl
@[simp] theorem acknowledge_rxbuf (v : Word) (s : State) : (acknowledge v s).rxbuf = s.rxbuf := rfl
@[simp] theorem acknowledge_cmdbuf (v : Word) (s : State) : (acknowledge v s).cmdbuf = s.cmdbuf := rfl
@[simp] theorem acknowledge_epoch (v : Word) (s : State) : (acknowledge v s).epoch = s.epoch := rfl
@[simp] theorem acknowledge_inflight (v : Word) (s : State) : (acknowledge v s).inflight = s.inflight := rfl
@[simp] theorem acknowledge_inputs (v : Word) (s : State) : (acknowledge v s).inputs = s.inputs := rfl
@[simp] theorem acknowledge_reply (v : Word) (s : State) : (acknowledge v s).reply = s.reply := rfl
@[simp] theorem acknowledge_status_echo (v : Word) (s : State) : (acknowledge v s).status.echo = s.status.echo := rfl

@[simp] theorem accept_cfg (w : Word) (s : State) : (accept w s).cfg = s.cfg := rfl
@[simp] theorem accept_ctrl (w : Word) (s : State) : (accept w s).ctrl = s.ctrl := rfl
@[simp] theorem accept_cmd (w : Word) (s : State) : (accept w s).cmd = s.cmd := rfl
@[simp] theorem accept_status (w : Word) (s : State) : (accept w s).status = { s.status with done := false } := rfl
@[simp] theorem accept_rxLen (w : Word) (s : State) : (accept w s).rxLen = s.rxLen := rfl
@[simp] theorem accept_winBase (w : Word) (s : State) : (accept w s).winBase = s.winBase := rfl
@[simp] theorem accept_winLen (w : Word) (s : State) : (accept w s).winLen = s.winLen := rfl
@[simp] theorem accept_csStart (w : Word) (s : State) : (accept w s).csStart = s.csStart := rfl
@[simp] theorem accept_csCount (w : Word) (s : State) : (accept w s).csCount = s.csCount := rfl
@[simp] theorem accept_csum (w : Word) (s : State) : (accept w s).csum = s.csum := rfl
@[simp] theorem accept_csacc (w : Word) (s : State) : (accept w s).csacc = s.csacc := rfl
@[simp] theorem accept_lkres (w : Word) (s : State) : (accept w s).lkres = s.lkres := rfl
@[simp] theorem accept_dec (w : Word) (s : State) : (accept w s).dec = s.dec := rfl
@[simp] theorem accept_rxbuf (w : Word) (s : State) : (accept w s).rxbuf = s.rxbuf := rfl
@[simp] theorem accept_cmdbuf (w : Word) (s : State) : (accept w s).cmdbuf = s.cmdbuf := rfl
@[simp] theorem accept_epoch (w : Word) (s : State) : (accept w s).epoch = s.epoch := rfl
@[simp] theorem accept_inflight (w : Word) (s : State) : (accept w s).inflight = some { word := w, snap := s.snapshot, phase := .accepted } := rfl
@[simp] theorem accept_inputs (w : Word) (s : State) : (accept w s).inputs = s.inputs := rfl
@[simp] theorem accept_reply (w : Word) (s : State) : (accept w s).reply = s.reply := rfl

@[simp] theorem commit_cfg (s : State) : (commit s).cfg = s.cfg := rfl
@[simp] theorem commit_ctrl (s : State) : (commit s).ctrl = s.ctrl := rfl
@[simp] theorem commit_cmd (s : State) : (commit s).cmd = s.cmd := rfl
@[simp] theorem commit_status (s : State) : (commit s).status = { s.status with done := true } := rfl
@[simp] theorem commit_rxLen (s : State) : (commit s).rxLen = s.rxLen := rfl
@[simp] theorem commit_winBase (s : State) : (commit s).winBase = s.winBase := rfl
@[simp] theorem commit_winLen (s : State) : (commit s).winLen = s.winLen := rfl
@[simp] theorem commit_csStart (s : State) : (commit s).csStart = s.csStart := rfl
@[simp] theorem commit_csCount (s : State) : (commit s).csCount = s.csCount := rfl
@[simp] theorem commit_csum (s : State) : (commit s).csum = s.csum := rfl
@[simp] theorem commit_csacc (s : State) : (commit s).csacc = s.csacc := rfl
@[simp] theorem commit_lkres (s : State) : (commit s).lkres = s.lkres := rfl
@[simp] theorem commit_dec (s : State) : (commit s).dec = s.dec := rfl
@[simp] theorem commit_rxbuf (s : State) : (commit s).rxbuf = s.rxbuf := rfl
@[simp] theorem commit_cmdbuf (s : State) : (commit s).cmdbuf = s.cmdbuf := rfl
@[simp] theorem commit_epoch (s : State) : (commit s).epoch = s.epoch := rfl
@[simp] theorem commit_inflight (s : State) : (commit s).inflight = none := rfl
@[simp] theorem commit_inputs (s : State) : (commit s).inputs = s.inputs := rfl
@[simp] theorem commit_reply (s : State) : (commit s).reply = s.reply := rfl

@[simp] theorem installExtraction_cfg (e : Extraction) (s : State) : (installExtraction e s).cfg = s.cfg := rfl
@[simp] theorem installExtraction_ctrl (e : Extraction) (s : State) : (installExtraction e s).ctrl = s.ctrl := rfl
@[simp] theorem installExtraction_cmd (e : Extraction) (s : State) : (installExtraction e s).cmd = s.cmd := rfl
@[simp] theorem installExtraction_status (e : Extraction) (s : State) : (installExtraction e s).status = { s.status with echo := e.echo } := rfl
@[simp] theorem installExtraction_rxLen (e : Extraction) (s : State) : (installExtraction e s).rxLen = s.rxLen := rfl
@[simp] theorem installExtraction_winBase (e : Extraction) (s : State) : (installExtraction e s).winBase = e.base := rfl
@[simp] theorem installExtraction_winLen (e : Extraction) (s : State) : (installExtraction e s).winLen = e.len := rfl
@[simp] theorem installExtraction_csStart (e : Extraction) (s : State) : (installExtraction e s).csStart = s.csStart := rfl
@[simp] theorem installExtraction_csCount (e : Extraction) (s : State) : (installExtraction e s).csCount = s.csCount := rfl
@[simp] theorem installExtraction_csum (e : Extraction) (s : State) : (installExtraction e s).csum = s.csum := rfl
@[simp] theorem installExtraction_csacc (e : Extraction) (s : State) : (installExtraction e s).csacc = s.csacc := rfl
@[simp] theorem installExtraction_lkres (e : Extraction) (s : State) : (installExtraction e s).lkres = s.lkres := rfl
@[simp] theorem installExtraction_dec (e : Extraction) (s : State) : (installExtraction e s).dec = s.dec := rfl
@[simp] theorem installExtraction_rxbuf (e : Extraction) (s : State) : (installExtraction e s).rxbuf = s.rxbuf := rfl
@[simp] theorem installExtraction_cmdbuf (e : Extraction) (s : State) : (installExtraction e s).cmdbuf = s.cmdbuf := rfl
@[simp] theorem installExtraction_epoch (e : Extraction) (s : State) : (installExtraction e s).epoch = s.epoch := rfl
@[simp] theorem installExtraction_inflight (e : Extraction) (s : State) : (installExtraction e s).inflight = s.inflight := rfl
@[simp] theorem installExtraction_inputs (e : Extraction) (s : State) : (installExtraction e s).inputs = s.inputs := rfl
@[simp] theorem installExtraction_reply (e : Extraction) (s : State) : (installExtraction e s).reply = s.reply := rfl

@[simp] theorem withPhase_cfg (f : InFlight) (p : Phase) (s : State) : (s.withPhase f p).cfg = s.cfg := rfl
@[simp] theorem withPhase_ctrl (f : InFlight) (p : Phase) (s : State) : (s.withPhase f p).ctrl = s.ctrl := rfl
@[simp] theorem withPhase_cmd (f : InFlight) (p : Phase) (s : State) : (s.withPhase f p).cmd = s.cmd := rfl
@[simp] theorem withPhase_status (f : InFlight) (p : Phase) (s : State) : (s.withPhase f p).status = s.status := rfl
@[simp] theorem withPhase_rxLen (f : InFlight) (p : Phase) (s : State) : (s.withPhase f p).rxLen = s.rxLen := rfl
@[simp] theorem withPhase_winBase (f : InFlight) (p : Phase) (s : State) : (s.withPhase f p).winBase = s.winBase := rfl
@[simp] theorem withPhase_winLen (f : InFlight) (p : Phase) (s : State) : (s.withPhase f p).winLen = s.winLen := rfl
@[simp] theorem withPhase_csStart (f : InFlight) (p : Phase) (s : State) : (s.withPhase f p).csStart = s.csStart := rfl
@[simp] theorem withPhase_csCount (f : InFlight) (p : Phase) (s : State) : (s.withPhase f p).csCount = s.csCount := rfl
@[simp] theorem withPhase_csum (f : InFlight) (p : Phase) (s : State) : (s.withPhase f p).csum = s.csum := rfl
@[simp] theorem withPhase_csacc (f : InFlight) (p : Phase) (s : State) : (s.withPhase f p).csacc = s.csacc := rfl
@[simp] theorem withPhase_lkres (f : InFlight) (p : Phase) (s : State) : (s.withPhase f p).lkres = s.lkres := rfl
@[simp] theorem withPhase_dec (f : InFlight) (p : Phase) (s : State) : (s.withPhase f p).dec = s.dec := rfl
@[simp] theorem withPhase_rxbuf (f : InFlight) (p : Phase) (s : State) : (s.withPhase f p).rxbuf = s.rxbuf := rfl
@[simp] theorem withPhase_cmdbuf (f : InFlight) (p : Phase) (s : State) : (s.withPhase f p).cmdbuf = s.cmdbuf := rfl
@[simp] theorem withPhase_epoch (f : InFlight) (p : Phase) (s : State) : (s.withPhase f p).epoch = s.epoch := rfl
@[simp] theorem withPhase_inflight (f : InFlight) (p : Phase) (s : State) : (s.withPhase f p).inflight = some { f with phase := p } := rfl
@[simp] theorem withPhase_inputs (f : InFlight) (p : Phase) (s : State) : (s.withPhase f p).inputs = s.inputs := rfl
@[simp] theorem withPhase_reply (f : InFlight) (p : Phase) (s : State) : (s.withPhase f p).reply = s.reply := rfl

@[simp] theorem softReset_cfg (s : State) : (softReset s).cfg = s.cfg := rfl
@[simp] theorem softReset_ctrl (s : State) : (softReset s).ctrl = Ctrl.reset := rfl
@[simp] theorem softReset_cmd (s : State) : (softReset s).cmd = 0 := rfl
@[simp] theorem softReset_status (s : State) : (softReset s).status = Status.reset := rfl
@[simp] theorem softReset_rxLen (s : State) : (softReset s).rxLen = 0 := rfl
@[simp] theorem softReset_winBase (s : State) : (softReset s).winBase = 0 := rfl
@[simp] theorem softReset_winLen (s : State) : (softReset s).winLen = 0 := rfl
@[simp] theorem softReset_csStart (s : State) : (softReset s).csStart = 0 := rfl
@[simp] theorem softReset_csCount (s : State) : (softReset s).csCount = 0 := rfl
@[simp] theorem softReset_csum (s : State) : (softReset s).csum = 0 := rfl
@[simp] theorem softReset_csacc (s : State) : (softReset s).csacc = 0 := rfl
@[simp] theorem softReset_lkres (s : State) : (softReset s).lkres = 0 := rfl
@[simp] theorem softReset_dec (s : State) : (softReset s).dec = DecodeSet.default := rfl
@[simp] theorem softReset_rxbuf (s : State) : (softReset s).rxbuf = s.rxbuf := rfl
@[simp] theorem softReset_cmdbuf (s : State) : (softReset s).cmdbuf = s.cmdbuf := rfl
@[simp] theorem softReset_epoch (s : State) : (softReset s).epoch = s.epoch := rfl
@[simp] theorem softReset_inflight (s : State) : (softReset s).inflight = none := rfl
@[simp] theorem softReset_inputs (s : State) : (softReset s).inputs = s.inputs := rfl
@[simp] theorem softReset_reply (s : State) : (softReset s).reply = s.reply := rfl

@[simp] theorem hardReset_cfg (s : State) : (hardReset s).cfg = s.cfg := rfl
@[simp] theorem hardReset_ctrl (s : State) : (hardReset s).ctrl = Ctrl.reset := rfl
@[simp] theorem hardReset_cmd (s : State) : (hardReset s).cmd = 0 := rfl
@[simp] theorem hardReset_status (s : State) : (hardReset s).status = Status.reset := rfl
@[simp] theorem hardReset_rxLen (s : State) : (hardReset s).rxLen = 0 := rfl
@[simp] theorem hardReset_winBase (s : State) : (hardReset s).winBase = 0 := rfl
@[simp] theorem hardReset_winLen (s : State) : (hardReset s).winLen = 0 := rfl
@[simp] theorem hardReset_csStart (s : State) : (hardReset s).csStart = 0 := rfl
@[simp] theorem hardReset_csCount (s : State) : (hardReset s).csCount = 0 := rfl
@[simp] theorem hardReset_csum (s : State) : (hardReset s).csum = 0 := rfl
@[simp] theorem hardReset_csacc (s : State) : (hardReset s).csacc = 0 := rfl
@[simp] theorem hardReset_lkres (s : State) : (hardReset s).lkres = 0 := rfl
@[simp] theorem hardReset_dec (s : State) : (hardReset s).dec = DecodeSet.default := rfl
@[simp] theorem hardReset_rxbuf (s : State) : (hardReset s).rxbuf = [] := rfl
@[simp] theorem hardReset_cmdbuf (s : State) : (hardReset s).cmdbuf = [] := rfl
@[simp] theorem hardReset_epoch (s : State) : (hardReset s).epoch = s.epoch + 1 := rfl
@[simp] theorem hardReset_inflight (s : State) : (hardReset s).inflight = none := rfl
@[simp] theorem hardReset_inputs (s : State) : (hardReset s).inputs = s.inputs := rfl
@[simp] theorem hardReset_reply (s : State) : (hardReset s).reply = s.reply := rfl

@[simp] theorem placeCommand_cfg (w : Word) (s : State) : (s.placeCommand w).cfg = s.cfg := rfl
@[simp] theorem placeCommand_ctrl (w : Word) (s : State) : (s.placeCommand w).ctrl = s.ctrl := rfl
@[simp] theorem placeCommand_cmd (w : Word) (s : State) : (s.placeCommand w).cmd = w := rfl
@[simp] theorem placeCommand_status (w : Word) (s : State) : (s.placeCommand w).status = { s.status with done := false } := rfl
@[simp] theorem placeCommand_rxLen (w : Word) (s : State) : (s.placeCommand w).rxLen = s.rxLen := rfl
@[simp] theorem placeCommand_winBase (w : Word) (s : State) : (s.placeCommand w).winBase = s.winBase := rfl
@[simp] theorem placeCommand_winLen (w : Word) (s : State) : (s.placeCommand w).winLen = s.winLen := rfl
@[simp] theorem placeCommand_csStart (w : Word) (s : State) : (s.placeCommand w).csStart = s.csStart := rfl
@[simp] theorem placeCommand_csCount (w : Word) (s : State) : (s.placeCommand w).csCount = s.csCount := rfl
@[simp] theorem placeCommand_csum (w : Word) (s : State) : (s.placeCommand w).csum = s.csum := rfl
@[simp] theorem placeCommand_csacc (w : Word) (s : State) : (s.placeCommand w).csacc = s.csacc := rfl
@[simp] theorem placeCommand_lkres (w : Word) (s : State) : (s.placeCommand w).lkres = s.lkres := rfl
@[simp] theorem placeCommand_dec (w : Word) (s : State) : (s.placeCommand w).dec = s.dec := rfl
@[simp] theorem placeCommand_rxbuf (w : Word) (s : State) : (s.placeCommand w).rxbuf = s.rxbuf := rfl
@[simp] theorem placeCommand_cmdbuf (w : Word) (s : State) : (s.placeCommand w).cmdbuf = s.cmdbuf := rfl
@[simp] theorem placeCommand_epoch (w : Word) (s : State) : (s.placeCommand w).epoch = s.epoch := rfl
@[simp] theorem placeCommand_inputs (w : Word) (s : State) : (s.placeCommand w).inputs = [] := rfl
@[simp] theorem placeCommand_reply (w : Word) (s : State) : (s.placeCommand w).reply = s.reply := rfl

@[simp] theorem commitDecode_cfg (e : Option Extraction) (set : DecodeSet) (s : State) :
    (commitDecode e set s).cfg = s.cfg := by
  cases e <;> rfl
@[simp] theorem commitDecode_ctrl (e : Option Extraction) (set : DecodeSet) (s : State) :
    (commitDecode e set s).ctrl = s.ctrl := by
  cases e <;> rfl
@[simp] theorem commitDecode_cmd (e : Option Extraction) (set : DecodeSet) (s : State) :
    (commitDecode e set s).cmd = s.cmd := by
  cases e <;> rfl
@[simp] theorem commitDecode_rxLen (e : Option Extraction) (set : DecodeSet) (s : State) :
    (commitDecode e set s).rxLen = s.rxLen := by
  cases e <;> rfl
@[simp] theorem commitDecode_csStart (e : Option Extraction) (set : DecodeSet) (s : State) :
    (commitDecode e set s).csStart = s.csStart := by
  cases e <;> rfl
@[simp] theorem commitDecode_csCount (e : Option Extraction) (set : DecodeSet) (s : State) :
    (commitDecode e set s).csCount = s.csCount := by
  cases e <;> rfl
@[simp] theorem commitDecode_csum (e : Option Extraction) (set : DecodeSet) (s : State) :
    (commitDecode e set s).csum = s.csum := by
  cases e <;> rfl
@[simp] theorem commitDecode_csacc (e : Option Extraction) (set : DecodeSet) (s : State) :
    (commitDecode e set s).csacc = s.csacc := by
  cases e <;> rfl
@[simp] theorem commitDecode_lkres (e : Option Extraction) (set : DecodeSet) (s : State) :
    (commitDecode e set s).lkres = s.lkres := by
  cases e <;> rfl
@[simp] theorem commitDecode_dec (e : Option Extraction) (set : DecodeSet) (s : State) :
    (commitDecode e set s).dec = set := by
  cases e <;> rfl
@[simp] theorem commitDecode_rxbuf (e : Option Extraction) (set : DecodeSet) (s : State) :
    (commitDecode e set s).rxbuf = s.rxbuf := by
  cases e <;> rfl
@[simp] theorem commitDecode_cmdbuf (e : Option Extraction) (set : DecodeSet) (s : State) :
    (commitDecode e set s).cmdbuf = s.cmdbuf := by
  cases e <;> rfl
@[simp] theorem commitDecode_epoch (e : Option Extraction) (set : DecodeSet) (s : State) :
    (commitDecode e set s).epoch = s.epoch := by
  cases e <;> rfl
@[simp] theorem commitDecode_inflight (e : Option Extraction) (set : DecodeSet) (s : State) :
    (commitDecode e set s).inflight = none := by
  cases e <;> rfl
@[simp] theorem commitDecode_inputs (e : Option Extraction) (set : DecodeSet) (s : State) :
    (commitDecode e set s).inputs = s.inputs := by
  cases e <;> rfl
@[simp] theorem commitDecode_reply (e : Option Extraction) (set : DecodeSet) (s : State) :
    (commitDecode e set s).reply = s.reply := by
  cases e <;> rfl
@[simp] theorem commitDecode_done (e : Option Extraction) (set : DecodeSet) (s : State) :
    (commitDecode e set s).status.done = true := by
  cases e <;> rfl
@[simp] theorem commitDecode_err (e : Option Extraction) (set : DecodeSet) (s : State) :
    (commitDecode e set s).status.err = s.status.err := by
  cases e <;> rfl
@[simp] theorem commitDecode_ecode (e : Option Extraction) (set : DecodeSet) (s : State) :
    (commitDecode e set s).status.ecode = s.status.ecode := by
  cases e <;> rfl
@[simp] theorem commitDecode_none (set : DecodeSet) (s : State) :
    commitDecode none set s = commit { s with dec := set } := rfl
@[simp] theorem commitDecode_some (e : Extraction) (set : DecodeSet) (s : State) :
    commitDecode (some e) set s = commit (installExtraction e { s with dec := set }) := rfl

@[simp] theorem setBufWord_cfg (s : State) (b : Buffer) (k : Nat) (v : Word) :
    (s.setBufWord b k v).cfg = s.cfg := by
  cases b <;> rfl
@[simp] theorem setBufWord_ctrl (s : State) (b : Buffer) (k : Nat) (v : Word) :
    (s.setBufWord b k v).ctrl = s.ctrl := by
  cases b <;> rfl
@[simp] theorem setBufWord_cmd (s : State) (b : Buffer) (k : Nat) (v : Word) :
    (s.setBufWord b k v).cmd = s.cmd := by
  cases b <;> rfl
@[simp] theorem setBufWord_status (s : State) (b : Buffer) (k : Nat) (v : Word) :
    (s.setBufWord b k v).status = s.status := by
  cases b <;> rfl
@[simp] theorem setBufWord_rxLen (s : State) (b : Buffer) (k : Nat) (v : Word) :
    (s.setBufWord b k v).rxLen = s.rxLen := by
  cases b <;> rfl
@[simp] theorem setBufWord_winBase (s : State) (b : Buffer) (k : Nat) (v : Word) :
    (s.setBufWord b k v).winBase = s.winBase := by
  cases b <;> rfl
@[simp] theorem setBufWord_winLen (s : State) (b : Buffer) (k : Nat) (v : Word) :
    (s.setBufWord b k v).winLen = s.winLen := by
  cases b <;> rfl
@[simp] theorem setBufWord_csStart (s : State) (b : Buffer) (k : Nat) (v : Word) :
    (s.setBufWord b k v).csStart = s.csStart := by
  cases b <;> rfl
@[simp] theorem setBufWord_csCount (s : State) (b : Buffer) (k : Nat) (v : Word) :
    (s.setBufWord b k v).csCount = s.csCount := by
  cases b <;> rfl
@[simp] theorem setBufWord_csum (s : State) (b : Buffer) (k : Nat) (v : Word) :
    (s.setBufWord b k v).csum = s.csum := by
  cases b <;> rfl
@[simp] theorem setBufWord_csacc (s : State) (b : Buffer) (k : Nat) (v : Word) :
    (s.setBufWord b k v).csacc = s.csacc := by
  cases b <;> rfl
@[simp] theorem setBufWord_lkres (s : State) (b : Buffer) (k : Nat) (v : Word) :
    (s.setBufWord b k v).lkres = s.lkres := by
  cases b <;> rfl
@[simp] theorem setBufWord_dec (s : State) (b : Buffer) (k : Nat) (v : Word) :
    (s.setBufWord b k v).dec = s.dec := by
  cases b <;> rfl
@[simp] theorem setBufWord_epoch (s : State) (b : Buffer) (k : Nat) (v : Word) :
    (s.setBufWord b k v).epoch = s.epoch := by
  cases b <;> rfl
@[simp] theorem setBufWord_inflight (s : State) (b : Buffer) (k : Nat) (v : Word) :
    (s.setBufWord b k v).inflight = s.inflight := by
  cases b <;> rfl
@[simp] theorem setBufWord_inputs (s : State) (b : Buffer) (k : Nat) (v : Word) :
    (s.setBufWord b k v).inputs = s.inputs := by
  cases b <;> rfl
@[simp] theorem setBufWord_reply (s : State) (b : Buffer) (k : Nat) (v : Word) :
    (s.setBufWord b k v).reply = s.reply := by
  cases b <;> rfl

@[simp] theorem setBufWord_rxbuf_rxbuf (s : State) (k : Nat) (v : Word) :
    (s.setBufWord .rxbuf k v).rxbuf = Memory.setWord s.cfg.rxbufSize k v s.rxbuf := rfl
@[simp] theorem setBufWord_rxbuf_cmdbuf (s : State) (k : Nat) (v : Word) :
    (s.setBufWord .rxbuf k v).cmdbuf = s.cmdbuf := rfl
@[simp] theorem setBufWord_cmdbuf_rxbuf (s : State) (k : Nat) (v : Word) :
    (s.setBufWord .cmdbuf k v).rxbuf = s.rxbuf := rfl
@[simp] theorem setBufWord_cmdbuf_cmdbuf (s : State) (k : Nat) (v : Word) :
    (s.setBufWord .cmdbuf k v).cmdbuf = Memory.setWord cmdLen k v s.cmdbuf := rfl

/-! ### Views that an update leaves alone -/

theorem bufByte_congr {s t : State} (hr : t.rxbuf = s.rxbuf) (hc : t.cmdbuf = s.cmdbuf) (he : t.epoch = s.epoch)
    (b : Buffer) (i : Nat) : t.bufByte b i = s.bufByte b i := by
  cases b <;> simp [State.bufByte, State.bufferOf, hr, hc, he]

theorem busy_iff (s : State) : s.busy = true ↔ ∃ f, s.inflight = some f := by
  simp [State.busy, Option.isSome_iff_exists]

theorem not_busy_iff (s : State) : s.busy = false ↔ s.inflight = none := by
  simp [State.busy]

@[simp] theorem commit_not_busy (s : State) : (commit s).busy = false := rfl

@[simp] theorem accept_busy (w : Word) (s : State) : (accept w s).busy = true := rfl

@[simp] theorem withPhase_busy (s : State) (f : InFlight) (p : Phase) : (s.withPhase f p).busy = true := rfl

@[simp] theorem withPhase_withPhase (s : State) (f : InFlight) (p q : Phase) :
    (s.withPhase f p).withPhase { f with phase := p } q = s.withPhase f q := rfl

end Sys2Proof.Laws
end

