-- ==== Sys2Proof/Laws/Ops.lean ====
section
/-! SUPPORT. Each shared operation once: what it can answer and what holds of it then. -/

namespace Sys2Proof.Laws

open Sys2Proof.Machine

/-! ### Where the engine stands -/

theorem acceptedCommand_eq_some {s : State} {f : InFlight} :
    s.acceptedCommand = some f ↔ s.inflight = some f ∧ f.phase = .accepted := by
  unfold State.acceptedCommand
  cases h : s.inflight with
  | none => simp
  | some g =>
    by_cases hp : g.phase = .accepted
    · simp only [hp, if_true, Option.some.injEq]
      constructor
      · rintro rfl
        exact ⟨rfl, hp⟩
      · exact fun h => h.1
    · simp only [hp, if_false, Option.some.injEq]
      constructor
      · exact fun h => nomatch h
      · rintro ⟨rfl, h⟩
        exact absurd h hp

theorem atCells_eq_some {s : State} {f : InFlight} {j : Job} :
    s.atCells = some (f, j) ↔ s.inflight = some f ∧ f.phase = .cells j := by
  unfold State.atCells
  rcases h : s.inflight with _ | ⟨w, p, ph⟩
  · simp
  · cases ph <;> simp <;> (rintro rfl; simp)

theorem atFixed_eq_some {s : State} {k : FixedField} {f : InFlight} {j : Job} :
    s.atFixed k = some (f, j) ↔ s.inflight = some f ∧ f.phase = .fixed k j := by
  unfold State.atFixed
  rcases h : s.inflight with _ | ⟨w, p, ph⟩
  · simp
  · cases ph with
    | fixed k' j' =>
      by_cases hk : k' = k
      · subst hk
        simp
        rintro rfl
        simp
      · simp only [hk, if_false, Option.some.injEq]
        constructor
        · exact fun h => nomatch h
        · rintro ⟨rfl, h⟩
          simp only [Phase.fixed.injEq] at h
          exact absurd h.1 hk
    | _ =>
      simp
      try (rintro rfl; simp)

theorem atExtra_eq_some {s : State} {f : InFlight} {j : Job} :
    s.atExtra = some (f, j) ↔ s.inflight = some f ∧ f.phase = .extra j := by
  unfold State.atExtra
  rcases h : s.inflight with _ | ⟨w, p, ph⟩
  · simp
  · cases ph <;> simp <;> (rintro rfl; simp)

/-! ### Commands -/

/-- A command's execution answers a next state exactly from an accepted command, and then its body's. -/
theorem runCommand_next {s t : State} {body : InFlight → State} :
    runCommand s body = .next t ↔ ∃ f, s.inflight = some f ∧ f.phase = .accepted ∧ body f = t := by
  unfold runCommand
  cases h : s.acceptedCommand with
  | none =>
    simp only [reduceCtorEq, false_iff, not_exists, not_and]
    intro f hf hp
    rw [acceptedCommand_eq_some.mpr ⟨hf, hp⟩] at h
    exact absurd h (by simp)
  | some g =>
    have hg := acceptedCommand_eq_some.mp h
    simp only [Host.Outcome.next.injEq]
    constructor
    · exact fun hb => ⟨g, hg.1, hg.2, hb⟩
    · rintro ⟨f, hf, -, hb⟩
      rw [hg.1] at hf
      cases hf
      exact hb

/-- A command's execution from an accepted command. -/
theorem runCommand_accepted {s : State} {f : InFlight} (body : InFlight → State) (hf : s.inflight = some f)
    (hp : f.phase = .accepted) : runCommand s body = .next (body f) :=
  runCommand_next.mpr ⟨f, hf, hp, rfl⟩

/-- A command's execution never faults. -/
theorem runCommand_not_fault (s : State) (body : InFlight → State) (r : Fault) : runCommand s body ≠ .fault r := by
  unfold runCommand
  split <;> simp

/-- A decode begun on a window commits a soft failure or stands before its cell block. -/
theorem startDecode_cases (s : State) (f : InFlight) (ex : Option Extraction) (base len : Nat) :
    (∃ set, s.frameChecks f.snap.ctrl ex base len = .error set ∧
      s.startDecode f ex base len = commitDecode ex set s) ∨
    (∃ j, s.frameChecks f.snap.ctrl ex base len = .ok j ∧ s.startDecode f ex base len = s.withPhase f (.cells j)) := by
  unfold State.startDecode
  cases h : s.frameChecks f.snap.ctrl ex base len with
  | error set => exact Or.inl ⟨set, rfl, rfl⟩
  | ok j => exact Or.inr ⟨j, rfl, rfl⟩

/-- What the frame checks hand on: the working registers of a frame that lies whole inside the window. -/
theorem frameChecks_ok {s : State} {ctrl : Ctrl} {ex : Option Extraction} {base len : Nat} {j : Job}
    (h : s.frameChecks ctrl ex base len = .ok j) :
    let lenf := s.windowBe16 base 2
    let total := 2 + lenf.toNat
    21 ≤ total ∧ total ≤ len ∧ s.windowByte base 0 = s.cfg.start0 ∧ s.windowByte base 1 = s.cfg.start1 ∧
      (ctrl.endCheck = true → s.windowByte base (total - 5) = s.cfg.endMarker) ∧
      j = startJob ex base lenf (ck16 (s.windowBytes base 0 (total - 4))) total total
        (s.windowBe16 base (total - 2)) := by
  intro lenf total
  simp only [State.frameChecks] at h
  split at h
  · cases h
  · split at h
    · cases h
    · rename_i hstart
      split at h
      · cases h
      · rename_i hlen
        have hmin : min (2 + (s.windowBe16 base 2).toNat) len = total := Nat.min_eq_left (Nat.le_of_not_lt hlen)
        simp only [hmin] at h
        split at h
        · cases h
        · split at h
          · cases h
          · rename_i hpay
            split at h
            · cases h
            · rename_i hend
              cases h
              refine ⟨by omega, Nat.le_of_not_lt hlen, ?_, ?_, ?_, rfl⟩
              · exact Decidable.byContradiction fun hc => hstart (Or.inl hc)
              · exact Decidable.byContradiction fun hc => hstart (Or.inr hc)
              · intro hc
                simpa [hc] using hend

/-- A soft failure's result set: DEFAULT but for what its stages wrote. -/
theorem frameChecks_error {s : State} {ctrl : Ctrl} {ex : Option Extraction} {base len : Nat} {set : DecodeSet}
    (h : s.frameChecks ctrl ex base len = .error set) :
    ∃ frLen frCsum frPend bad code, set = softFailure frLen frCsum frPend bad code ∧
      code ∈ [ResultCode.short, .badStart, .incomplete, .csumFatal, .noPayload, .badEnd] := by
  simp only [State.frameChecks] at h
  repeat' split at h
  all_goals first
    | (cases h; exact ⟨_, _, _, _, _, rfl, by simp⟩)
    | cases h

/-! ### Elements -/

/-- A matched fixed field answers a next state exactly where the engine tries that field. -/
theorem runFixed_next {k : FixedField} {write : Job → Record} {s t : State} :
    runFixed k write s = .next t ↔
      ∃ f j, s.inflight = some f ∧ f.phase = .fixed k j ∧
        s.withPhase f (phaseAfterFixed k (fixedStage k (write j) j)) = t := by
  unfold runFixed
  cases h : s.atFixed k with
  | none =>
    simp only [reduceCtorEq, false_iff, not_exists, not_and]
    intro f j hf hp
    rw [atFixed_eq_some.mpr ⟨hf, hp⟩] at h
    exact absurd h (by simp)
  | some p =>
    obtain ⟨g, i⟩ := p
    have hg := atFixed_eq_some.mp h
    simp only [Host.Outcome.next.injEq]
    constructor
    · exact fun hb => ⟨g, i, hg.1, hg.2, hb⟩
    · rintro ⟨f, j, hf, hp, hb⟩
      rw [hg.1] at hf
      cases hf
      rw [hg.2] at hp
      cases hp
      exact hb

/-- The phase after a fixed field holds the same decode, FR_XOFF apart. -/
theorem phaseAfterFixed_cases (k : FixedField) (j : Job) :
    (∃ k', nextField k = some k' ∧ phaseAfterFixed k j = .fixed k' j) ∨
    (k = .soc ∧ phaseAfterFixed k j = .extra { j with set := { j.set with frXoff := BitVec.ofNat 32 j.off } }) := by
  cases k <;> simp [phaseAfterFixed, nextField]

/-- A cell block answers a next state exactly where the engine stands before it. -/
theorem execCellBlock_next {tag bc : Byte} {entries : List Byte} {s t : State} :
    execCellBlock tag bc entries s = .next t ↔
      ∃ f j, s.inflight = some f ∧ f.phase = .cells j ∧
        s.withPhase f (.fixed .tmos (cellStage s.cfg tag bc entries j)) = t := by
  unfold execCellBlock
  cases h : s.atCells with
  | none =>
    simp only [reduceCtorEq, false_iff, not_exists, not_and]
    intro f j hf hp
    rw [atCells_eq_some.mpr ⟨hf, hp⟩] at h
    exact absurd h (by simp)
  | some p =>
    obtain ⟨g, i⟩ := p
    have hg := atCells_eq_some.mp h
    simp only [Host.Outcome.next.injEq]
    constructor
    · exact fun hb => ⟨g, i, hg.1, hg.2, hb⟩
    · rintro ⟨f, j, hf, hp, hb⟩
      rw [hg.1] at hf
      cases hf
      rw [hg.2] at hp
      cases hp
      exact hb

/-- An extra field answers a next state exactly where the engine stands in the extra-field run. -/
theorem execXfield_next {tag : Byte} {value : List Byte} {s t : State} :
    execXfield tag value s = .next t ↔
      ∃ f j, s.inflight = some f ∧ f.phase = .extra j ∧ s.withPhase f (extraPhase s.cfg tag value j) = t := by
  unfold execXfield
  cases h : s.atExtra with
  | none =>
    simp only [reduceCtorEq, false_iff, not_exists, not_and]
    intro f j hf hp
    rw [atExtra_eq_some.mpr ⟨hf, hp⟩] at h
    exact absurd h (by simp)
  | some p =>
    obtain ⟨g, i⟩ := p
    have hg := atExtra_eq_some.mp h
    simp only [Host.Outcome.next.injEq]
    constructor
    · exact fun hb => ⟨g, i, hg.1, hg.2, hb⟩
    · rintro ⟨f, j, hf, hp, hb⟩
      rw [hg.1] at hf
      cases hf
      rw [hg.2] at hp
      cases hp
      exact hb

/-- One pass of the extra-field loop: unknown, duplicate, overrun or recorded. -/
theorem extraPhase_cases (c : Config) (t : Byte) (value : List Byte) (j : Job) :
    (fctLookup c t = none ∧ extraPhase c t value j = .extra (skipUnknown j)) ∨
    (∃ k row, fctLookup c t = some (k, row) ∧ t ∈ j.seen ∧
      extraPhase c t value j = .extra (skipDuplicate row.width j)) ∨
    (∃ k row, fctLookup c t = some (k, row) ∧ t ∉ j.seen ∧ value.length < row.width ∧
      extraPhase c t value j = .finish (overrun j)) ∨
    (∃ k row, fctLookup c t = some (k, row) ∧ t ∉ j.seen ∧ row.width ≤ value.length ∧
      extraPhase c t value j = .extra (recordField c row t (value.take row.width) j)) := by
  unfold extraPhase
  cases h : fctLookup c t with
  | none => exact Or.inl ⟨rfl, rfl⟩
  | some p =>
    obtain ⟨k, row⟩ := p
    by_cases hs : t ∈ j.seen
    · exact Or.inr (Or.inl ⟨k, row, rfl, hs, by simp [hs]⟩)
    · by_cases hw : value.length < row.width
      · exact Or.inr (Or.inr (Or.inl ⟨k, row, rfl, hs, hw, by simp [hs, hw]⟩))
      · exact Or.inr (Or.inr (Or.inr ⟨k, row, rfl, hs, by omega, by simp [hs, hw]⟩))

/-- The scan of a code finds a row of the table that has it. -/
theorem fctLookupFrom_some {t : Byte} {rows : List FctRow} {i k : Nat} {row : FctRow}
    (h : fctLookupFrom t i rows = some (k, row)) : i ≤ k ∧ rows[k - i]? = some row ∧ row.code = t := by
  induction rows generalizing i with
  | nil => cases h
  | cons r rows ih =>
    simp only [fctLookupFrom] at h
    split at h
    · cases h
      simpa
    · obtain ⟨h1, h2, h3⟩ := ih h
      refine ⟨by omega, ?_, h3⟩
      rw [show k - i = (k - (i + 1)) + 1 by omega, List.getElem?_cons_succ]
      exact h2

/-- `lookup` finds a row of the FCT with that code, at its index. -/
theorem fctLookup_some {c : Config} {t : Byte} {k : Nat} {row : FctRow} (h : fctLookup c t = some (k, row)) :
    c.fct[k]? = some row ∧ row.code = t := by
  have := fctLookupFrom_some h
  simpa using this.2

/-- A legal configuration's row has a width of 1 to 24. -/
theorem legal_width {c : Config} (hc : c.legal = true) {row : FctRow} (h : row ∈ c.fct) :
    1 ≤ row.width ∧ row.width ≤ 24 := by
  simp only [Config.legal, Config.fctLegal, Bool.and_eq_true, List.all_eq_true, decide_eq_true_eq] at hc
  exact hc.2.1.2 row h

/-- The width the fetch uses is the one well-formedness is checked with. -/
theorem elementWidth_eq (c : Config) (t : Byte) : elementWidth c t = c.valueWidth t := by
  have key : ∀ (rows : List FctRow) (i : Nat),
      (match fctLookupFrom t i rows with | some (_, row) => row.width | none => 0) =
        match rows.find? (fun r => r.code = t) with | some r => r.width | none => 0 := by
    intro rows
    induction rows with
    | nil => intro i; rfl
    | cons r rows ih =>
      intro i
      by_cases h : r.code = t
      · simp [fctLookupFrom, h]
      · simp [fctLookupFrom, h, ih (i + 1)]
  exact key c.fct 0

/-- The cell loop keeps the capacity, and stops for one reason at most. -/
theorem cellLoop_bounds {maxCells k n : Nat} {bytes : List Byte} (hn : n ≤ maxCells) :
    (cellLoop maxCells k n bytes).cells.length + n ≤ maxCells ∧ (cellLoop maxCells k n bytes).cells.length ≤ k ∧
      ¬ ((cellLoop maxCells k n bytes).cap = true ∧ (cellLoop maxCells k n bytes).short = true) := by
  induction k generalizing n bytes with
  | zero => simp [cellLoop, hn]
  | succ k ih =>
    simp only [cellLoop]
    split
    · simp [hn]
    · rename_i hne
      split
      · rename_i info hi lo rest
        have := ih (n := n + 1) (bytes := rest) (by omega)
        simp only [CellRun.push, List.length_cons]
        exact ⟨by omega, by omega, this.2.2⟩
      · simp [hn]

/-! ### Issue and bus accesses -/

/-- The issue of a word, one of the outcomes of 40_commands.md R100. -/
theorem issue_cases (w : Word) (s : State) :
    (s.busy = true ∧ issue w s = .next (refuse .busy s)) ∨
    (s.busy = false ∧ ∃ r, decodeCommand w = .error r ∧ issue w s = .next (refuse .illegalCmd { s with cmd := w })) ∨
    (s.busy = false ∧ decodeCommand w = .ok .sreset ∧ issue w s = .next (softReset { s with cmd := w })) ∨
    (s.busy = false ∧ ∃ i, decodeCommand w = .ok i ∧ i ≠ .sreset ∧ rangeFail i { s with cmd := w } = true ∧
      issue w s = .next (refuse .range { s with cmd := w })) ∨
    (s.busy = false ∧ ∃ i, decodeCommand w = .ok i ∧ i ≠ .sreset ∧ rangeFail i { s with cmd := w } = false ∧
      issue w s = .next (accept w { s with cmd := w })) := by
  unfold issue issueLegal
  cases hb : s.busy with
  | true => simp
  | false =>
    cases hd : decodeCommand w with
    | error r => simp
    | ok i =>
      by_cases hi : i = .sreset
      · subst hi
        simp [execSreset]
      · cases hr : rangeFail i { s with cmd := w } <;> simp [hi, hr]

/-- The issue of a word always answers a next state. -/
theorem issue_next (w : Word) (s : State) : ∃ t, issue w s = .next t := by
  rcases issue_cases w s with ⟨-, h⟩ | ⟨-, r, -, h⟩ | ⟨-, -, h⟩ | ⟨-, i, -, -, -, h⟩ | ⟨-, i, -, -, -, h⟩ <;>
    exact ⟨_, h⟩

/-- A write to a named register always answers a next state. -/
theorem writeReg_next (r : Reg) (v : Word) (s : State) : ∃ t, writeReg r v s = .next t := by
  cases r <;> first | exact issue_next v s | exact ⟨_, rfl⟩

/-- A word write always answers a next state. -/
theorem writeWord_next (off : Nat) (v : Word) (s : State) : ∃ t, writeWord off v s = .next t := by
  unfold writeWord writeLoc
  split
  · exact writeReg_next _ v s
  all_goals exact ⟨_, rfl⟩

/-- A host access inside the block answers a next state: the word read or written, or the bus error. -/
theorem hostAccess_next {a : Access} {s : State}
    (h : selects s.cfg (match a with | .read x _ => x | .write x _ _ => x) = true) : ∃ t, hostAccess a s = .next t := by
  cases a with
  | read addr bytes =>
    simp only [hostAccess, h, if_true]
    split <;> exact ⟨_, rfl⟩
  | write addr bytes v =>
    simp only [hostAccess, h, if_true]
    split
    · exact writeWord_next _ v _
    · exact ⟨_, rfl⟩

/-! ### The engine -/

/-- One move of the engine: the instruction it stands at is executed, or it moves on. -/
theorem engineStep_cases (s : State) :
    (∃ i, s.fetch = some (.ok i) ∧ engineStep s = exec i s) ∨
    (∃ r, s.fetch = some (.error r) ∧ engineStep s = s.engineMovesOn r) ∨
    (s.fetch = none ∧ engineStep s = s.engineMovesOn .outsideFrame) := by
  unfold engineStep
  rcases h : s.fetch with _ | r
  · exact Or.inr (Or.inr ⟨rfl, rfl⟩)
  · cases r with
    | error r => exact Or.inr (Or.inl ⟨r, rfl, rfl⟩)
    | ok i => exact Or.inl ⟨i, rfl, rfl⟩

/-- Where the engine moves on, it answers one of these. -/
theorem engineMovesOn_next {s t : State} {r : Reject} (h : s.engineMovesOn r = .next t) :
    (s.inflight = none ∧ t = s) ∨
    (∃ f k j, s.inflight = some f ∧ f.phase = .fixed k j ∧ t = s.withPhase f (phaseAfterFixed k j)) ∨
    (∃ f j, s.inflight = some f ∧ (f.phase = .extra j ∨ f.phase = .finish j) ∧
      t = commitDecode j.extraction (completed s.cfg j) s) := by
  unfold State.engineMovesOn at h
  split at h
  · rename_i hi
    cases h
    exact Or.inl ⟨hi, rfl⟩
  · rename_i f hi
    split at h
    · cases h
    · cases h
    · rename_i k j hp
      cases h
      exact Or.inr (Or.inl ⟨f, k, j, hi, hp, rfl⟩)
    · rename_i j hp
      cases h
      exact Or.inr (Or.inr ⟨f, j, hi, Or.inl hp, rfl⟩)
    · rename_i j hp
      cases h
      exact Or.inr (Or.inr ⟨f, j, hi, Or.inr hp, rfl⟩)

/-- A fixed field's instruction is built only from bytes that are there. -/
theorem fixedInstr_some {k : FixedField} {bytes : List Byte} {i : Instr} (h : fixedInstr k bytes = some i) :
    k.width ≤ bytes.length ∧ i.slot = some (.fixed k) := by
  cases k <;> rcases bytes with _ | ⟨a, _ | ⟨b, rest⟩⟩ <;>
    simp [fixedInstr, FixedField.width] at h ⊢ <;> subst h <;> simp [Instr.slot]

/-! ### Result words -/

/-- FR_LEN has no field in bits [31:17] (10_state.md R33). -/
theorem frLenWord_reserved (lenf : Half) : bitField (frLenWord lenf) 17 15 = 0 := by
  apply BitVec.eq_of_getLsbD_eq
  intro i hi
  simp only [bitField, frLenWord, BitVec.getLsbD_extractLsb', BitVec.getLsbD_append]
  simp [show ¬ 17 + i < 16 by omega, show ¬ 17 + i - 16 < 1 by omega]

/-- REC_CELLHDR has no field in bits [31:17] (10_state.md R42). -/
theorem cellHeader_reserved (tag bc : Byte) : bitField (cellHeader tag bc) 17 15 = 0 := by
  apply BitVec.eq_of_getLsbD_eq
  intro i hi
  simp only [bitField, cellHeader, BitVec.getLsbD_extractLsb', BitVec.getLsbD_append]
  simp [show ¬ 17 + i < 8 by omega, show ¬ 17 + i - 8 < 8 by omega, show ¬ 17 + i - 8 - 8 < 1 by omega]

/-- LKRES has no field in bits [15:10] and [23:21] (10_state.md R32). -/
theorem lookupWord_reserved (c : Config) (t : Byte) :
    bitField (lookupWord c t) 10 6 = 0 ∧ bitField (lookupWord c t) 21 3 = 0 := by
  unfold lookupWord
  constructor <;> apply BitVec.eq_of_getLsbD_eq <;> intro i hi <;> split <;>
    simp only [bitField, BitVec.getLsbD_extractLsb', BitVec.getLsbD_append]
  · simp [show ¬ 10 + i < 8 by omega, show ¬ 10 + i - 8 < 1 by omega, show ¬ 10 + i - 8 - 1 < 1 by omega,
      show 10 + i - 8 - 1 - 1 < 6 by omega]
  · simp [show ¬ 10 + i < 8 by omega]
  · simp [show ¬ 21 + i < 8 by omega, show ¬ 21 + i - 8 < 1 by omega, show ¬ 21 + i - 8 - 1 < 1 by omega,
      show ¬ 21 + i - 8 - 1 - 1 < 6 by omega, show ¬ 21 + i - 8 - 1 - 1 - 6 < 5 by omega,
      show 21 + i - 8 - 1 - 1 - 6 - 5 < 3 by omega]
  · simp [show ¬ 21 + i < 8 by omega]

end Sys2Proof.Laws
end

