-- ==== Sys2Proof/Laws/Bus.lean ====
section
/-! SUPPORT. The address map at each window, and what a host read depends on. -/

namespace Sys2Proof.Laws

open Sys2Proof.Machine

/-- Every named register is found at its offset. -/
@[simp] theorem locate_reg (r : Reg) : locate r.offset = .reg r := by
  cases r <;> decide

@[simp] theorem locate_rxbuf (k : Nat) : locate (0x20000 + k) = .buffer .rxbuf k := by
  unfold locate
  rw [if_neg (by omega), if_neg (by omega), if_neg (by omega), if_neg (by omega), if_neg (by omega), if_neg (by omega),
    if_neg (by omega), Nat.add_sub_cancel_left]

theorem locate_cmdbuf {k : Nat} (h : k < 24) : locate (0x1800 + k) = .buffer .cmdbuf k := by
  unfold locate
  rw [if_neg (by omega), if_neg (by omega), if_neg (by omega), if_neg (by omega), if_neg (by omega), if_pos (by omega),
    Nat.add_sub_cancel_left]

theorem locate_cell {i : Nat} (h : i < 256) : locate (0x400 + 4 * i) = .cell i := by
  unfold locate
  rw [if_neg (by omega), if_pos (by omega)]
  congr 1
  omega

theorem locate_xe {j w : Nat} (hj : j < 32) (hw : w < 16) : locate (0x800 + 64 * j + 4 * w) = .xe j w := by
  unfold locate
  rw [if_neg (by omega), if_neg (by omega), if_pos (by omega)]
  congr 1 <;> omega

theorem locate_fct {k : Nat} (h : k < 256) : locate (0x1000 + 4 * k) = .fct k := by
  unfold locate
  rw [if_neg (by omega), if_neg (by omega), if_neg (by omega), if_pos (by omega)]
  congr 1
  omega

/-- A host read depends on the registers, the buffers and whether a command is in flight. -/
theorem readWord_congr {s t : State} (h : sameRegisters s t) (hb : t.busy = s.busy) (off : Nat) :
    t.readWord off = s.readWord off := by
  have hs : t.statusWord = s.statusWord := by
    unfold State.statusWord
    rw [hb, h]
  unfold State.readWord
  cases locate off with
  | reg r =>
    cases r with
    | status => exact hs
    | _ => rw [h]; rfl
  | buffer b k => cases b <;> (rw [h]; rfl)
  | _ => rw [h]; rfl

/-- A move to another phase keeps what a host reads. -/
theorem readWord_withPhase {s : State} {f : InFlight} (hf : s.inflight = some f) (p : Phase) (off : Nat) :
    (s.withPhase f p).readWord off = s.readWord off :=
  readWord_congr (show sameRegisters s (s.withPhase f p) from rfl) (by simp [State.busy, State.withPhase, hf]) off

/-- The window's bytes from an offset inside it begin with the byte there. -/
theorem windowBytes_cons (s : State) (base : Nat) {i stop : Nat} (h : i < stop) :
    s.windowBytes base i stop = s.windowByte base i :: s.windowBytes base (i + 1) stop := by
  unfold State.windowBytes State.windowByte State.rx
  rw [show stop - i = (stop - (i + 1)) + 1 by omega]
  rfl

/-- The window has no byte at or beyond its end. -/
theorem windowBytes_nil (s : State) (base : Nat) {i stop : Nat} (h : stop ≤ i) : s.windowBytes base i stop = [] := by
  unfold State.windowBytes
  rw [Nat.sub_eq_zero_of_le h]
  rfl

@[simp] theorem windowBytes_length (s : State) (base i stop : Nat) : (s.windowBytes base i stop).length = stop - i := by
  simp [State.windowBytes]

/-- A 16-bit field as a number (20_memory.md R64). -/
theorem be16Of_toNat (hi lo : Byte) : (be16Of hi lo).toNat = hi.toNat * 256 + lo.toNat := by
  simp only [be16Of, BitVec.toNat_append]
  have h := lo.isLt
  rw [Nat.shiftLeft_eq, Nat.mul_comm, ← Nat.two_pow_add_eq_or_of_lt h]

end Sys2Proof.Laws
end

