-- ==== Sys2Proof/Laws/Frame.lean ====
section
/-! SUPPORT. What the frame checks, the extractor and the adder depend on, and the adder as a sum of numbers. -/

namespace Sys2Proof.Laws

open Sys2Proof.Machine

/-- A run of buffer bytes depends on the bytes alone. -/
theorem bufBytes_congr {s t : State} {b : Buffer} (h : ∀ i, t.bufByte b i = s.bufByte b i) (n i : Nat) :
    t.bufBytes b i n = s.bufBytes b i n := by
  induction n generalizing i with
  | zero => rfl
  | succ n ih => simp only [State.bufBytes, h, ih]

/-- The extractor's result is carried through the frame checks, not looked at. -/
theorem frameChecks_extraction (s : State) (ctrl : Ctrl) (ex : Option Extraction) (base len : Nat) :
    s.frameChecks ctrl ex base len =
      (s.frameChecks ctrl none base len).map (fun j => { j with extraction := ex }) := by
  simp only [State.frameChecks]
  repeat' split
  all_goals rfl

/-- The frame checks depend on the configuration and the bytes of RXBUF. -/
theorem frameChecks_congr {s t : State} (hc : t.cfg = s.cfg) (h : ∀ i, t.rx i = s.rx i) (ctrl : Ctrl)
    (ex : Option Extraction) (base len : Nat) : t.frameChecks ctrl ex base len = s.frameChecks ctrl ex base len := by
  have hb : t.windowByte = s.windowByte := by
    funext a i
    exact h (a + i)
  have hw : t.windowBytes = s.windowBytes := by
    funext a i stop
    exact bufBytes_congr h _ _
  have h16 : t.windowBe16 = s.windowBe16 := by
    funext a i
    simp only [State.windowBe16, hb]
  unfold State.frameChecks
  rw [hb, hw, h16, hc]

/-- The comparison of the extractor, byte by byte. -/
theorem echoMatches_iff (s : State) (n i : Nat) :
    s.echoMatches i n = true ↔ ∀ k, k < n → s.rx (i + k) = s.cb (i + k) := by
  induction n generalizing i with
  | zero => simp [State.echoMatches]
  | succ n ih =>
    simp only [State.echoMatches, Bool.and_eq_true, decide_eq_true_eq, ih]
    constructor
    · rintro ⟨h0, h⟩ k hk
      rcases k with _ | k
      · exact h0
      · have := h k (by omega)
        rwa [show i + 1 + k = i + (k + 1) by omega] at this
    · intro h
      refine ⟨h 0 (by omega), fun k hk => ?_⟩
      have := h (k + 1) (by omega)
      rwa [show i + (k + 1) = i + 1 + k by omega] at this

/-- The accumulator is the sum of the bytes, as far as 32 bits hold it (42_checksum16.md R150). -/
theorem ck16_eq_sum (bytes : List Byte) : ck16 bytes = BitVec.ofNat 32 (bytes.map (fun v => v.toNat)).sum := by
  have key : ∀ (bytes : List Byte) (acc : Word),
      bytes.foldl (fun acc v => acc + v.setWidth 32) acc =
        acc + BitVec.ofNat 32 (bytes.map (fun v => v.toNat)).sum := by
    intro bytes
    induction bytes with
    | nil => intro acc; simp
    | cons v bytes ih =>
      intro acc
      have hv : v.setWidth 32 = BitVec.ofNat 32 v.toNat := by
        apply BitVec.eq_of_toNat_eq
        simp
      rw [List.foldl_cons, ih, List.map_cons, List.sum_cons, BitVec.ofNat_add, hv, BitVec.add_assoc]
  rw [ck16, key]
  simp

end Sys2Proof.Laws
end

