-- ==== Sys2Proof/Laws/PerInstr.lean ====
section
/-! SUPPORT. A statement about every instruction as syntax, one lemma per constructor: a command's encoding is one word
whose reserved bits are 0, an element's encoding begins with its tag byte (30_encoding.md R80, R86). -/

namespace Sys2Proof.Laws.EncodingShape

/-- A command is one word with bits [31:17] and [7:4] zero; an element is at least one byte long. -/
def Statement (i : Instr) : Prop :=
  ∀ c : Config,
    match i.slot, encode c i with
    | none, .word w => bitField w 17 15 = 0 ∧ bitField w 4 4 = 0
    | some _, .bytes bs => 1 ≤ bs.length
    | _, _ => False

/-- The reserved bits of a command word with any operand. -/
theorem cmdw_reserved (src : BitVec 1) (tag : Byte) (op : BitVec 4) :
    bitField (cmdw src tag op) 17 15 = 0 ∧ bitField (cmdw src tag op) 4 4 = 0 := by
  have h1 := op.isLt
  have h2 := tag.isLt
  have h3 := src.isLt
  have hw : (cmdw src tag op).toNat = op.toNat + 256 * tag.toNat + 65536 * src.toNat := by
    simp only [cmdw, BitVec.toNat_append, Nat.shiftLeft_eq, BitVec.toNat_ofNat]
    have e0 : (0 % 2 ^ 15 * 2 ^ 1 ||| src.toNat) = src.toNat := by simp
    rw [e0, Nat.mul_comm src.toNat, ← Nat.two_pow_add_eq_or_of_lt h2, Nat.mul_comm _ (2 ^ 4)]
    simp only [Nat.zero_mod, Nat.or_zero]
    rw [Nat.mul_comm _ (2 ^ 4), ← Nat.two_pow_add_eq_or_of_lt h1]
    omega
  constructor <;> apply BitVec.eq_of_toNat_eq <;>
    simp only [bitField, BitVec.extractLsb'_toNat, hw, Nat.shiftRight_eq_div_pow, BitVec.ofNat_eq_ofNat,
      BitVec.toNat_ofNat, Nat.zero_mod, Nat.reducePow] <;> omega

theorem nop : Statement .nop := fun _ => cmdw_reserved _ _ _

theorem extract : Statement .extract := fun _ => cmdw_reserved _ _ _

theorem decode : Statement .decode := fun _ => cmdw_reserved _ _ _

theorem extractDecode : Statement .extractDecode := fun _ => cmdw_reserved _ _ _

theorem csum16 (src : Buffer) : Statement (.csum16 src) := fun _ => by
  cases src <;> exact cmdw_reserved _ _ _

theorem lookup (tag : Byte) : Statement (.lookup tag) := fun _ => cmdw_reserved _ _ _

theorem sreset : Statement .sreset := fun _ => cmdw_reserved _ _ _

theorem cellBlock (tag bc : Byte) (entries : List Byte) : Statement (.cellBlock tag bc entries) :=
  fun _ => Nat.le_add_left 1 _

theorem fixTmos (raw : Half) : Statement (.fixTmos raw) := fun _ => Nat.le_add_left 1 _

theorem fixTp1 (raw : Half) : Statement (.fixTp1 raw) := fun _ => Nat.le_add_left 1 _

theorem fixTp2 (raw : Half) : Statement (.fixTp2 raw) := fun _ => Nat.le_add_left 1 _

theorem fixVpack (raw : Half) : Statement (.fixVpack raw) := fun _ => Nat.le_add_left 1 _

theorem fixIpack (raw : Half) : Statement (.fixIpack raw) := fun _ => Nat.le_add_left 1 _

theorem fixSoc (raw : Byte) : Statement (.fixSoc raw) := fun _ => Nat.le_add_left 1 _

theorem xfield (tag : Byte) (value : List Byte) : Statement (.xfield tag value) :=
  fun _ => Nat.le_add_left 1 _

end Sys2Proof.Laws.EncodingShape
end

