-- ==== Sys2Proof/Tests/Slice0.lean ====
section
/-! SUPPORT. Tests. Expected values are those of spec/95_test_vectors.md and the examples of the rules, never the model's
own answers; each witness theorem shows that the hypotheses of one statement are met together. -/

namespace Sys2Proof.Tests

open Sys2Proof.Machine

/-! ### Helpers -/

/-- The test configuration of 95_test_vectors.md section 1. -/
def tCfg : Config :=
  { Config.default with
    fct :=
      [⟨0x87, 2, .numeric⟩, ⟨0x89, 4, .numeric⟩, ⟨0xAA, 4, .numeric⟩, ⟨0xB4, 8, .text⟩, ⟨0xB7, 15, .text⟩,
        ⟨0xBA, 24, .text⟩, ⟨0xC0, 1, .numeric⟩] }

/-- Bytes of a buffer from index `i` up. -/
def cells : Nat → List Byte → Memory
  | _, [] => []
  | i, v :: bytes => (i, v) :: cells (i + 1) bytes

/-- The machine after reset in the test configuration. -/
def idle : State := State.resetOf tCfg

/-- The request of 95_test_vectors.md section 1. -/
def req : List Byte :=
  [0x4E, 0x57, 0x00, 0x13, 0x00, 0x00, 0x00, 0x00, 0x06, 0x03, 0x00, 0x00, 0x00, 0x00, 0x00, 0x00, 0x68, 0x00, 0x00,
    0x01, 0x29]

/-- The frame F_P1 of 95_test_vectors.md section 1. -/
def fP1 : List Byte :=
  [0x4E, 0x57, 0x00, 0x1A, 0x00, 0x00, 0x00, 0x00, 0x06, 0x00, 0x01, 0x79, 0x06, 0x01, 0x0C, 0xE4, 0x02, 0x0C, 0xEE] ++
  [0x00, 0x00, 0x00, 0x00, 0x68, 0x00, 0x00, 0x03, 0x9A]

/-- An accepted command word with RXBUF bytes and a window (0, n), RX_LEN n. -/
def accepted (w : Word) (rx : List Byte) (n : Nat) : State :=
  State.placeCommand
    { idle with rxbuf := cells 0 rx, cmdbuf := cells 0 req, rxLen := BitVec.ofNat 32 n, winLen := BitVec.ofNat 32 n } w

/-- The command in flight of `accepted`. -/
def acceptedIn (w : Word) (n : Nat) : InFlight where
  word := w
  snap := { idle.snapshot with rxLen := BitVec.ofNat 32 n, winLen := BitVec.ofNat 32 n }
  phase := .accepted

/-- The working registers of a decode of a 28-byte frame whose length field selects the current encoding. -/
def job (off : Nat) : Job := { startJob none 0 26 922 28 28 922 with off := off }

/-- A command in flight that stands at a phase. -/
def flying (p : Phase) : InFlight where
  word := 0x2
  snap := { idle.snapshot with winLen := 28 }
  phase := p

/-- A decode of F_P1 in flight at a phase. -/
def inDecode (p : Phase) : State :=
  { idle with rxbuf := cells 0 fP1, winLen := 28, inflight := some (flying p) }

/-- The state a result answers, if it is a next state. -/
def stateOf : Result → Option State
  | .next t => some t
  | .fault _ => none
  | .refused _ => none

/-- What a host reads at an offset after an outcome. -/
def readAfter (r : Result) (off : Nat) : Option Word := (stateOf r).map (fun t => t.readWord off)

/-- The decode in flight after an outcome. -/
def jobAfter (r : Result) : Option Job :=
  match stateOf r with
  | none => none
  | some t =>
    match t.inflight with
    | none => none
    | some f => f.phase.job

/-- The record of the decode in flight after an outcome. -/
def recordAfter (r : Result) : Option Record := (jobAfter r).map (fun j => j.set.record)

/-! ### Well-formedness -/

theorem test_wf_cellBlock_too_long : (Instr.cellBlock 0x79 3 [1, 2, 3, 4]).wf tCfg = false := by decide

theorem test_wf_xfield_too_long : (Instr.xfield 0xC0 [5, 6]).wf tCfg = false := by decide

theorem test_wf_xfield_unknown_with_value : (Instr.xfield 0x99 [1]).wf tCfg = false := by decide

theorem test_wf_cut_off_is_not_whole :
    (Instr.cellBlock 0x79 6 [1, 2, 3]).wf tCfg = true ∧ (Instr.cellBlock 0x79 6 [1, 2, 3]).whole tCfg = false ∧
      (Instr.xfield 0xAA [0]).wf tCfg = true ∧ (Instr.xfield 0xAA [0]).whole tCfg = false := by decide

theorem test_config_legal : tCfg.legal = true ∧ Config.default.legal = true := by decide

/-- Each check of a configuration refuses one that breaks it (00_scope.md R8). -/
theorem test_config_illegal :
    ({ tCfg with rxbufSize := 20 } : Config).legal = false ∧ ({ tCfg with maxCells := 0 } : Config).legal = false ∧
      ({ tCfg with maxExtra := 33 } : Config).legal = false ∧ ({ tCfg with textCap := 57 } : Config).legal = false ∧
      ({ tCfg with fct := [⟨1, 25, .text⟩] } : Config).legal = false ∧
      ({ tCfg with fct := [⟨1, 2, .text⟩, ⟨1, 3, .numeric⟩] } : Config).legal = false := by decide

/-! ### Decoding: the words are written out from 30_encoding.md R80, R81, R87 to R89 -/

/-- [31:17] [16] SRC, [15:8] TAG, [7:4], [3:0] OP. -/
theorem test_decode_commands :
    decodeCommand 0b000000000000000_0_00000000_0000_0000 = .ok .nop ∧
      decodeCommand 0b000000000000000_0_00000000_0000_0001 = .ok .extract ∧
      decodeCommand 0b000000000000000_0_00000000_0000_0010 = .ok .decode ∧
      decodeCommand 0b000000000000000_0_00000000_0000_0011 = .ok .extractDecode ∧
      decodeCommand 0b000000000000000_0_00000000_0000_0100 = .ok (.csum16 .rxbuf) ∧
      decodeCommand 0b000000000000000_1_00000000_0000_0100 = .ok (.csum16 .cmdbuf) ∧
      decodeCommand 0b000000000000000_0_10000111_0000_0101 = .ok (.lookup 0x87) ∧
      decodeCommand 0b000000000000000_0_00000000_0000_1111 = .ok .sreset := by decide

/-- V-CMD-1: the illegal words. -/
theorem test_decode_illegal :
    decodeCommand 0x00000006 = .error (.illegalCommand 0x00000006) ∧
      decodeCommand 0x0000000E = .error (.illegalCommand 0x0000000E) ∧
      decodeCommand 0x00000010 = .error (.illegalCommand 0x00000010) ∧
      decodeCommand 0x00000101 = .error (.illegalCommand 0x00000101) ∧
      decodeCommand 0x00010005 = .error (.illegalCommand 0x00010005) ∧
      decodeCommand 0x0000FF04 = .error (.illegalCommand 0x0000FF04) ∧
      decodeCommand 0x00020000 = .error (.illegalCommand 0x00020000) ∧
      decodeCommand 0x80000002 = .error (.illegalCommand 0x80000002) ∧
      decodeCommand 0x0000010F = .error (.illegalCommand 0x0000010F) := by decide

theorem test_decode_cellBlock :
    decodeElement tCfg .cellBlock [0x79, 0x06, 0x01, 0x0C, 0xE4, 0x02, 0x0C, 0xEE, 0x80] =
      .ok (.cellBlock 0x79 6 [0x01, 0x0C, 0xE4, 0x02, 0x0C, 0xEE]) := by decide

theorem test_decode_fixed :
    decodeElement tCfg (.fixed .tmos) [0x80, 0x00, 0x65] = .ok (.fixTmos 101) ∧
      decodeElement tCfg (.fixed .tp1) [0x81, 0x00, 0x64, 0x82] = .ok (.fixTp1 100) ∧
      decodeElement tCfg (.fixed .tp2) [0x82, 0x00, 0x00] = .ok (.fixTp2 0) ∧
      decodeElement tCfg (.fixed .vpack) [0x83, 0x14, 0xC8] = .ok (.fixVpack 5320) ∧
      decodeElement tCfg (.fixed .ipack) [0x84, 0x26, 0xAC] = .ok (.fixIpack 9900) ∧
      decodeElement tCfg (.fixed .soc) [0x85, 0x57] = .ok (.fixSoc 87) := by decide

theorem test_decode_fixed_refused :
    decodeElement tCfg (.fixed .tmos) [0x85, 0x57, 0x00] = .error (.tagMismatch 0x85) ∧
      decodeElement tCfg (.fixed .tmos) [0x80, 0x19] = .error .outsideFrame ∧
      decodeElement tCfg .cellBlock [0x79] = .error .outsideFrame ∧
      decodeElement tCfg .extra [] = .error .outsideFrame := by decide

theorem test_decode_xfield :
    decodeElement tCfg .extra [0xAA, 0x00, 0x00, 0x01, 0xF4, 0xAA] = .ok (.xfield 0xAA [0x00, 0x00, 0x01, 0xF4]) ∧
      decodeElement tCfg .extra [0x99, 0xC0, 0x05] = .ok (.xfield 0x99 []) := by decide

/-! ### One step of each instruction -/

/-- 40_commands.md R104: NOP from reset leaves STATUS 0x00000002. -/
theorem test_nop : readAfter (exec .nop (accepted 0x0 [] 0)) 0x00C = some 0x00000002 := by decide

/-- V-FB-1 row 4: REQ ++ F_P1 gives (21, 28, 1). -/
theorem test_extract_strips :
    (stateOf (exec .extract (accepted 0x1 (req ++ fP1) 49))).map
        (fun t => (t.winBase, t.winLen, t.readWord 0x00C)) = some (21, 28, 0x00200002) := by decide

/-- V-FB-1 row 3: REQ alone gives (0, 21, 0). -/
theorem test_extract_echo_only :
    (stateOf (exec .extract (accepted 0x1 req 21))).map (fun t => (t.winBase, t.winLen, t.readWord 0x00C)) =
      some (0, 21, 0x00000002) := by decide

/-- V-FB-2b: N = 0 gives SHORT. -/
theorem test_decode_short : readAfter (exec .decode (accepted 0x2 [] 0)) 0x00C = some 0x00000202 := by decide

/-- V-FB-5: a frame of 20 bytes has no payload. -/
theorem test_decode_no_payload :
    (stateOf (exec .decode (accepted 0x2
        [0x4E, 0x57, 0x00, 0x12, 0x00, 0x00, 0x00, 0x00, 0x06, 0x00, 0x01, 0x00, 0x00, 0x00, 0x00, 0x68, 0x00, 0x00,
          0x01, 0x26] 20))).map (fun t => (t.readWord 0x00C, t.dec.frLen, t.dec.frCsum, t.dec.frPend)) =
      some (0x00000602, 0x00010012, 0x01260126, 0) := by decide

/-- V-FB-13, second part, its first move: the window is the second REQ; the frame checks pass. -/
theorem test_extractDecode_begins :
    (jobAfter (exec .extractDecode (accepted 0x3 (req ++ req ++ fP1) 70))).map
        (fun j => (j.base, j.eff, j.pe, j.set.frLen, j.set.frCsum)) =
      some (21, 21, 12, 0x00010013, 0x01290129) := by decide

/-- V-CK-2. -/
theorem test_csum16 :
    (stateOf (exec (.csum16 .rxbuf) (State.placeCommand
        { idle with rxbuf := cells 4 [0xFF, 0xFF, 0x02], csStart := 4, csCount := 3 } 0x4))).map
        (fun t => (t.readWord 0x024, t.readWord 0x028)) = some (0x00000200, 0x00000200) := by decide

/-- V-CK-11: no byte of CMDBUF. -/
theorem test_csum16_empty :
    (stateOf (exec (.csum16 .cmdbuf) (State.placeCommand
        { idle with csum := 7, csacc := 9, csStart := 21, csCount := 0 } 0x10004))).map
        (fun t => (t.csum, t.csacc)) = some (0, 0) := by decide

/-- V-TF-1. -/
theorem test_lookup :
    readAfter (exec (.lookup 0xAA) (accepted 0xAA05 [] 0)) 0x02C = some 0x020401AA ∧
      readAfter (exec (.lookup 0xB7) (accepted 0xB705 [] 0)) 0x02C = some 0x040F03B7 ∧
      readAfter (exec (.lookup 0x99) (accepted 0x9905 [] 0)) 0x02C = some 0x00000099 := by decide

/-- 40_commands.md R111: STATUS 0, REC_VMIN 5000, CTRL 4. -/
theorem test_sreset :
    (stateOf (exec .sreset { idle with ctrl := Ctrl.ofWord 7, cmd := 15, rxLen := 9, status := ⟨true, true, .busy, true⟩ })).map
        (fun t => (t.readWord 0x00C, t.readWord 0x084, t.readWord 0x004, t.readWord 0x008, t.readWord 0x010)) =
      some (0, 5000, 4, 0, 0) := by decide

/-- Program P1: the two cells, their statistics, OFF = 19. -/
theorem test_cellBlock :
    (jobAfter (exec (.cellBlock 0x79 6 [0x01, 0x0C, 0xE4, 0x02, 0x0C, 0xEE]) (inDecode (.cells (job 11))))).map
        (fun j => (j.off, j.set.cells.map (fun e => e.word), j.set.record.vmin, j.set.record.vmax, j.set.record.vdelta,
          j.set.record.cellhdr)) =
      some (19, [0x00010CE4, 0x00020CEE], 3300, 3310, 10, 0x00010679) := by decide

/-- 43_fixed_field.md R164's example: 3300, 0, 3310; and a tag that is not CELL_TAG. -/
theorem test_cellBlock_zero_cell :
    (jobAfter (exec (.cellBlock 0x7A 10 [0, 0x0C, 0xE4, 0, 0, 0, 0, 0x0C, 0xEE, 0]) (inDecode (.cells (job 11))))).map
        (fun j => (j.off, j.n, j.set.record.vmin, j.set.record.vmax, j.set.flags.celltagBad)) =
      some (23, 3, 3300, 3310, true) := by decide

/-- 43_fixed_field.md R167's example, V-FF-1 row 7. -/
theorem test_fixTmos :
    (recordAfter (exec (.fixTmos 101) (inDecode (.fixed .tmos (job 19))))).map (fun r => (r.tmos, r.fixvalid)) =
        some (0xFFFFFFFF, 1) ∧
      (recordAfter (exec (.fixTmos 65535) (inDecode (.fixed .tmos (job 19))))).map (fun r => r.tmos) =
        some 0xFFFF0065 := by decide

/-- 43_fixed_field.md R168's example. -/
theorem test_fixTp1 :
    (recordAfter (exec (.fixTp1 100) (inDecode (.fixed .tp1 (job 19))))).map (fun r => (r.tp1, r.fixvalid)) =
      some (100, 2) := by decide

/-- V-FF-1 row 6. -/
theorem test_fixTp2 :
    (recordAfter (exec (.fixTp2 200) (inDecode (.fixed .tp2 (job 19))))).map (fun r => (r.tp2, r.fixvalid)) =
      some (0xFFFFFF9C, 4) := by decide

/-- 43_fixed_field.md R170's example. -/
theorem test_fixVpack :
    (recordAfter (exec (.fixVpack 5320) (inDecode (.fixed .vpack (job 19))))).map (fun r => (r.vpack, r.fixvalid)) =
      some (5320, 8) := by decide

/-- V-FF-2 row 1: LENF 259, raw 0x8032. -/
theorem test_fixIpack_sign :
    (recordAfter (exec (.fixIpack 0x8032) (inDecode (.fixed .ipack { job 19 with lenf := 259 })))).map
        (fun r => (r.ipack, r.fixvalid)) = some (50, 16) ∧
      (recordAfter (exec (.fixIpack 0x0032) (inDecode (.fixed .ipack { job 19 with lenf := 259 })))).map
        (fun r => r.ipack) = some 0xFFFFFFCE := by decide

/-- V-FF-2 row 7: LENF 260, raw 9900. -/
theorem test_fixIpack_offset :
    (recordAfter (exec (.fixIpack 9900) (inDecode (.fixed .ipack { job 19 with lenf := 260 })))).map
        (fun r => r.ipack) = some 100 := by decide

/-- 43_fixed_field.md R172's example; the run starts where OFF stands. -/
theorem test_fixSoc :
    (jobAfter (exec (.fixSoc 0x57) (inDecode (.fixed .soc (job 22))))).map
        (fun j => (j.set.record.soc, j.set.record.fixvalid, j.set.frXoff)) = some (87, 32, 24) := by decide

/-- V-TF-5a: the text ends at the first byte that is not printable. -/
theorem test_xfield_text :
    (jobAfter (exec (.xfield 0xB4 [0x42, 0x4D, 0x53, 0x31, 0x00, 0x58, 0x59, 0x5A])
        (inDecode (.extra (job 19))))).map
        (fun j => (j.off, j.x, j.set.xe.map (fun e => [e.word 0, e.word 1, e.word 2, e.word 3]))) =
      some (28, 1, [[0x040801B4, 0x0058595A, 0x31534D42, 0]]) := by decide

/-- V-TF-3: an unknown tag is skipped by one byte; V-TF-4: an overrun ends the run at its tag. -/
theorem test_xfield_skip_and_overrun :
    (jobAfter (exec (.xfield 0x99 []) (inDecode (.extra (job 19))))).map (fun j => (j.off, j.set.flags.xunk)) =
        some (20, true) ∧
      (jobAfter (exec (.xfield 0xBA [0, 0, 0]) (inDecode (.extra (job 18))))).map
        (fun j => (j.off, j.x, j.set.flags.xovr)) = some (18, 0, true) := by decide

/-! ### The host's side -/

/-- V-CMD-1: an illegal word is stored and refused. -/
theorem test_issue_illegal :
    (stateOf (writeWord 0x008 0x00000006 idle)).map (fun t => (t.readWord 0x00C, t.readWord 0x008)) =
      some (0x00000014, 0x00000006) := by decide

/-- V-CMD-2b: WIN_BASE 1000, WIN_LEN 25 is refused with RANGE. -/
theorem test_issue_range :
    readAfter (writeWord 0x008 0x2 { idle with winBase := 1000, winLen := 25 }) 0x00C = some 0x00000024 := by decide

/-- V-CMD-4a, V-CMD-5a before the commit: BUSY and BUSY_WRITE. -/
theorem test_busy_refusals :
    readAfter (writeWord 0x008 0x0 (accepted 0x2 [] 28)) 0x00C = some 0x00000035 ∧
      readAfter (writeWord 0x018 27 (accepted 0x2 [] 28)) 0x00C = some 0x00000045 := by decide

/-- V-CMD-8: an 8-bit write to CMD and a misaligned one are bus errors. -/
theorem test_bus_errors :
    (stateOf (hostAccess (.write 0x008 1 0x01) idle)).map (fun t => (t.reply, t.cmd, t.readWord 0x00C)) =
        some (.busError 0, 0, 0) ∧
      (stateOf (hostAccess (.write 0x00A 4 0x01) idle)).map (fun t => (t.reply, t.cmd)) =
        some (.busError 0, 0) := by decide

/-- V-CMD-11, V-CMD-12. -/
theorem test_reads :
    readAfter (writeWord 0x004 0xFFFFFFFF idle) 0x004 = some 0x00000007 ∧
      (idle.readWord 0x000, idle.readWord 0x044, idle.readWord 0x058, idle.readWord 0x1000, idle.readWord 0x101C) =
        (0x434B3136, 0x00182018, 0, 0x80000287, 0) := by decide

/-- V-CMD-6: the acknowledgement of STATUS 0x00400136. -/
theorem test_acknowledge :
    (stateOf (writeWord 0x00C 0x4 { idle with
        status := ⟨true, true, .busy, false⟩, dec := { DecodeSet.default with result := .ok, valid := true } })).map
        (fun t => t.readWord 0x00C) = some 0x00400102 := by decide

/-- V-CMD-9b: IRQ rises at once where CTRL enables it. -/
theorem test_irq :
    (stateOf (writeWord 0x004 0x5 { idle with status := ⟨true, false, .none, false⟩ })).map (fun t => t.irq) =
      some true := by decide

/-- 20_memory.md R65: lanes are little-endian; program P1's first word. -/
theorem test_lanes :
    (stateOf (writeWord 0x20000 0x1A00574E idle)).map (fun t => (t.rx 0, t.rx 1, t.rx 2, t.rx 3)) =
      some (0x4E, 0x57, 0x00, 0x1A) := by decide

/-- The last word of CMDBUF holds one byte of it (20_memory.md R61). -/
theorem test_last_cmdbuf_word :
    (stateOf (writeWord 0x1814 0xAABBCC29 idle)).map (fun t => (t.cmdbuf, t.readWord 0x1814)) =
      some ([(20, 0x29)], 0x00000029) := by decide

/-- The expansion of LOADCB in 95_test_vectors.md section 1. -/
theorem test_loadcb :
    expand Config.default (.loadCb req) =
      [.host (.write 0x1800 4 0x1300574E), .host (.write 0x1804 4 0x00000000), .host (.write 0x1808 4 0x00000306),
        .host (.write 0x180C 4 0x00000000), .host (.write 0x1810 4 0x01000068),
        .host (.write 0x1814 4 0x00000029)] := by decide

/-- Program P1 as the pipeline computes it. -/
theorem test_pipeline_P1 :
    (refDecode tCfg (fun i => fP1.getD i 0) 28 Ctrl.reset).result = .ok ∧
      (refDecode tCfg (fun i => fP1.getD i 0) 28 Ctrl.reset).record.vdelta = 10 ∧
      (refDecode tCfg (fun i => fP1.getD i 0) 28 Ctrl.reset).frEoff = 0x13 := by decide

/-! ### Witnesses: the hypotheses of each statement, met together -/

/-- CommandWordsDecode, CommandRoundTrip: a decoded word. -/
theorem witness_CommandRoundTrip : decodeCommand 0x00010004 = .ok (.csum16 .cmdbuf) ∧ Instr.slot .nop = none := by decide

/-- ElementRoundTrip: a whole element of each slot, a cut-off one. -/
theorem witness_ElementRoundTrip :
    (Instr.slot (.cellBlock 0x79 3 [1, 2, 3]) = some .cellBlock ∧
        (Instr.cellBlock 0x79 3 [1, 2, 3]).whole tCfg = true) ∧
      (Instr.slot (.fixSoc 87) = some (.fixed .soc) ∧ (Instr.fixSoc 87).whole tCfg = true) ∧
      (Instr.slot (.xfield 0xC0 [5]) = some .extra ∧ (Instr.xfield 0xC0 [5]).whole tCfg = true) ∧
      (Instr.slot (.xfield 0xAA [5]) = some .extra ∧ (Instr.xfield 0xAA [5]).wf tCfg = true) := by decide

/-- DecodedElementIsThere. -/
theorem witness_DecodedElementIsThere :
    decodeElement tCfg .extra [0xC0, 0x05, 0x87] = .ok (.xfield 0xC0 [0x05]) := by decide

/-- StepIsTheNextEvent: each clause's events. -/
theorem witness_StepIsTheNextEvent :
    idle.cfg.legal = true ∧ idle.inputs = [] ∧ ({ idle with inputs := [.tick] } : State).inputs = [.tick] ∧
      ({ idle with inputs := [.wait] } : State).busy = false ∧
      ({ accepted 0x0 [] 0 with inputs := [.wait] } : State).busy = true := by decide

/-- StepRunsTheInstruction: an accepted command, and F_P1's cell block, a fixed field, an extra field at OFF. -/
theorem witness_StepRunsTheInstruction :
    (accepted 0x2 fP1 28).cfg.legal = true ∧ (accepted 0x2 fP1 28).inputs = [] ∧
      (accepted 0x2 fP1 28).inflight = some (acceptedIn 0x2 28) ∧ (acceptedIn 0x2 28).phase = .accepted ∧
      decodeCommand (acceptedIn 0x2 28).word = .ok .decode := by decide

theorem witness_StepRunsTheInstruction_cells :
    (inDecode (.cells (job 11))).inflight = some (flying (.cells (job 11))) ∧
      (inDecode (.cells (job 11))).inputs = [] ∧
      decodeElement tCfg .cellBlock ((inDecode (.cells (job 11))).windowBytes 0 11 28) =
        .ok (.cellBlock 0x79 6 [0x01, 0x0C, 0xE4, 0x02, 0x0C, 0xEE]) := by decide

/-- A frame whose bytes at OFF = 13 are FIX_SOC, then a known extra field. -/
def socFrame : State :=
  { inDecode (.fixed .soc (job 13)) with rxbuf := cells 13 [0x85, 0x57, 0xC0, 0x05, 0, 0, 0, 0, 0, 0, 0, 0, 0, 0, 0] }

theorem witness_StepRunsTheInstruction_fixed :
    socFrame.inflight = some (flying (.fixed .soc (job 13))) ∧ socFrame.cfg.legal = true ∧ socFrame.inputs = [] ∧
      decodeElement tCfg (.fixed .soc) (socFrame.windowBytes 0 13 28) = .ok (.fixSoc 0x57) := by decide

theorem witness_StepRunsTheInstruction_extra :
    ({ socFrame with inflight := some (flying (.extra (job 15))) } : State).inflight =
        some (flying (.extra (job 15))) ∧ (job 15).off < (job 15).pe ∧ (job 15).x < tCfg.maxExtra ∧
      decodeElement tCfg .extra
        (({ socFrame with inflight := some (flying (.extra (job 15))) } : State).windowBytes 0 15 28) =
          .ok (.xfield 0xC0 [0x05]) := by decide

/-- PlacedInstructionRuns: a command word, a tag of each slot. -/
theorem witness_PlacedInstructionRuns :
    decodeTableWord 32 0x00000003 = some .extractDecode ∧ decodeTableWord 8 0x79 = some (.cellBlock 0x79 0 []) ∧
      decodeTableWord 8 0x85 = some (.fixSoc 0) ∧ decodeTableWord 8 0x00 = some (.xfield 0 []) := by decide

/-- IssuePriority: each clause. -/
theorem witness_IssuePriority :
    (accepted 0x2 [] 28).busy = true ∧ idle.busy = false ∧ decodeCommand 0x6 = .error (.illegalCommand 0x6) ∧
      decodeCommand 0x1 = .ok .extract ∧ (0x1 : Word) ≠ 0x0000000F ∧
      idle.cfg.rxbufSize < (1025 : Word).toNat ∧ ¬ idle.cfg.rxbufSize < (1024 : Word).toNat ∧
      selects idle.cfg 0x00A = true ∧ (0x00A - idle.cfg.blockBase) % 4 ≠ 0 := by decide

/-- WritesWhileBusyAreLost: the last word of each buffer. -/
theorem witness_WritesWhileBusyAreLost :
    (accepted 0x2 [] 28).busy = true ∧ 20 % 4 = 0 ∧ 20 < 21 ∧ 1020 % 4 = 0 ∧
      1020 < (accepted 0x2 [] 28).cfg.rxbufSize := by decide

/-- ReservedReadsZeroIgnoresWrites: a boundary offset of each range. -/
theorem witness_ReservedReadsZeroIgnoresWrites :
    0x07C % 4 = 0 ∧ 0x058 ≤ 0x07C ∧ 0x07C < 0x080 ∧ 0x3FC % 4 = 0 ∧ 0x3FC < 0x400 ∧ 0x1FFFC % 4 = 0 ∧
      0x1FFFC < 0x20000 ∧ (0x20000 + idle.cfg.rxbufSize) % 4 = 0 := by decide

/-- BadAccessIsABusError: the last byte of the block, a word access; its first offset, a byte access. -/
theorem witness_BadAccessIsABusError :
    idle.cfg.blockBase ≤ 0x3FFFF ∧ 0x3FFFF < idle.cfg.blockBase + 0x40000 ∧
      (4 ≠ 4 ∨ (0x3FFFF - idle.cfg.blockBase) % 4 ≠ 0) ∧ (1 ≠ 4 ∨ (0 - idle.cfg.blockBase) % 4 ≠ 0) := by decide

/-- WordAccessIsServed: the last word. AccessOutsideTheBlockFaults: the word after it. -/
theorem witness_WordAccessIsServed :
    0x3FFFC % 4 = 0 ∧ 0x3FFFC < 0x40000 ∧ idle.cfg.blockBase + 0x40000 ≤ 0x40000 := by decide

/-- ByteLanes: the last word of each buffer, the last text byte of the last entry. -/
theorem witness_ByteLanes :
    idle.busy = false ∧ 1020 % 4 = 0 ∧ 1020 < idle.cfg.rxbufSize ∧ 20 % 4 = 0 ∧ 20 < 21 ∧ 31 < idle.cfg.maxExtra ∧
      ({ DecodeSet.default with xe := List.replicate 32 ⟨0xC0, .numeric, 1, 5, []⟩ } : DecodeSet).xe[31]? =
        some ⟨0xC0, .numeric, 1, 5, []⟩ ∧ 55 < 56 := by decide

/-- OperandWritesStore: the machine is IDLE right after reset. -/
theorem witness_OperandWritesStore : idle.busy = false ∧ (State.reset).busy = false := by decide

/-- StatusBits: the last codes of ECODE and RESULT and one between. -/
theorem witness_StatusBits :
    ({ idle with status := ⟨false, true, .busyWrite, false⟩ } : State).readWord 0x00C = 0x44 ∧
      ({ idle with dec := { DecodeSet.default with result := .noCells } } : State).readWord 0x00C = 0x800 ∧
      ({ idle with dec := { DecodeSet.default with result := .csumFatal } } : State).readWord 0x00C = 0x500 := by decide

/-- RegisterReads: a state with the invariant whose three words are as 95_test_vectors.md gives them. -/
theorem witness_RegisterReads :
    ({ idle with
        lkres := 0x020401AA
        dec :=
          { DecodeSet.default with
            frLen := 0x0001001A
            record := { Record.default with cellhdr := 0x00010679 } } } : State).Inv :=
  ⟨by decide, by decide, by decide, by decide, by decide, by decide⟩

/-- ArrayReads: an entry of each array, and places beyond them. -/
theorem witness_ArrayReads :
    idle.cfg.legal = true ∧ 0 < idle.cfg.maxCells ∧ 0 < idle.cfg.maxExtra ∧
      ([⟨1, 3300⟩] : List CellEntry)[0]? = some ⟨1, 3300⟩ ∧ idle.dec.cells.length ≤ 0 ∧
      idle.cfg.maxCells ≤ 255 ∧ idle.cfg.maxExtra ≤ 32 := by decide

/-- ConfigurationReads: the last row, the place after it. -/
theorem witness_ConfigurationReads :
    idle.cfg.legal = true ∧ idle.cfg.fct[6]? = some ⟨0xC0, 1, .numeric⟩ ∧ idle.cfg.fct.length ≤ 7 := by decide

/-- IrqIsALevel: a commit, a refusal and a CTRL write that raise it. -/
def irqBefore (inputs : List Input) : State :=
  { idle with ctrl := ⟨true, false, true⟩, inputs := inputs }

theorem witness_IrqIsALevel :
    ((irqBefore [.host (.write 0x008 4 0x6)]).irq = false ∧
        (stateOf (step (irqBefore [.host (.write 0x008 4 0x6)]))).map (fun t => t.irq) = some true) ∧
      (({ accepted 0x0 [] 0 with ctrl := ⟨true, false, true⟩ } : State).irq = false ∧
        (stateOf (step { accepted 0x0 [] 0 with ctrl := ⟨true, false, true⟩ })).map (fun t => t.irq) = some true) ∧
      (({ idle with
            status := ⟨true, false, .none, false⟩, inputs := [.host (.write 0x004 4 0x5)] } : State).irq = false ∧
        (stateOf (step { idle with
            status := ⟨true, false, .none, false⟩, inputs := [.host (.write 0x004 4 0x5)] })).map
          (fun t => t.irq) = some true) := by decide

/-- IrqIsALevel, its falling clause: a state with the invariant, IRQ 1 and one event to come. -/
def irqHigh (i : Input) : State :=
  { idle with ctrl := ⟨true, false, true⟩, status := ⟨true, false, .none, false⟩, inputs := [i] }

theorem witness_IrqIsALevel_high : (irqHigh .reset).Inv ∧ (irqHigh .reset).irq = true :=
  ⟨⟨by decide, by decide, by decide, by decide, by decide, by decide⟩, rfl⟩

theorem witness_IrqIsALevel_high_any (i : Input) : (irqHigh i).Inv ∧ (irqHigh i).irq = true :=
  witness_IrqIsALevel_high

/-- Each of those events drops IRQ. -/
abbrev dropsIrq (i : Input) : Prop := (stateOf (step (irqHigh i))).map (fun t => t.irq) = some false

theorem witness_IrqIsALevel_falls :
    dropsIrq .reset ∧ dropsIrq (.host (.write 0x00C 4 2)) ∧ dropsIrq (.host (.write 0x004 4 4)) ∧
      dropsIrq (.host (.write 0x008 4 0xF)) ∧ dropsIrq (.host (.write 0x008 4 0x0)) := by
  refine ⟨?_, ?_, ?_, ?_, ?_⟩ <;> exact of_decide_eq_true rfl

/-- The commands' statements: an accepted command. -/
theorem witness_acceptedCommand :
    (accepted 0x2 fP1 28).inflight = some (acceptedIn 0x2 28) ∧ (acceptedIn 0x2 28).phase = .accepted ∧
      (accepted 0x2 fP1 28).cfg.legal = true := by decide

/-- ExtractStripsOneEcho, ExtractDecodeRefinesPipeline: an echo with one byte after it, and an echo alone. -/
theorem witness_ExtractStripsOneEcho :
    (accepted 0x1 (req ++ [0]) 22).inflight = some (acceptedIn 0x1 22) ∧
      (21 ≤ (acceptedIn 0x1 22).snap.rxLen.toNat ∧
        (∀ i, i < 21 → (accepted 0x1 (req ++ [0]) 22).rx i = (accepted 0x1 (req ++ [0]) 22).cb i) ∧
        0 < (acceptedIn 0x1 22).snap.rxLen.toNat - 21) ∧
      ¬ 0 < (acceptedIn 0x1 21).snap.rxLen.toNat - 21 := by decide

/-- DecodeReportsFirstFailure: each stage fails on some window, the earlier ones passing. -/
theorem witness_DecodeReportsFirstFailure :
    (refDecode tCfg (fun i => fP1.getD i 0) 19 Ctrl.reset).result = .short ∧
      (refDecode tCfg (fun i => req.getD (i + 1) 0) 20 Ctrl.reset).result = .badStart ∧
      (refDecode tCfg (fun i => fP1.getD i 0) 27 Ctrl.reset).result = .incomplete ∧
      (refDecode tCfg (fun i => (fP1.take 27).getD i 0) 28 (Ctrl.ofWord 6)).result = .csumFatal ∧
      (refDecode tCfg (fun i => [0x4E, 0x57].getD i 0) 20 Ctrl.reset).result = .noPayload ∧
      (refDecode tCfg (fun i => (fP1.take 23).getD i 0) 28 Ctrl.reset).result = .badEnd ∧
      (refDecode tCfg (fun i => fP1.getD i 0) 28 Ctrl.reset).result = .ok := by decide

/-- ExtractDecodeIsExtractThenDecode: a window too short commits at once; F_P1 goes on. -/
theorem witness_ExtractDecodeIsExtractThenDecode :
    ((stateOf (exec .extract (accepted 0x3 [] 0))).map (fun t => t.busy) = some false ∧
        (stateOf (exec .decode (accepted 0x3 [] 0))).map (fun t => t.busy) = some false) ∧
      (stateOf (exec .decode (accepted 0x3 fP1 28))).map (fun t => t.busy) = some true := by decide

/-- Csum16SumsTheBytes: its second clause. -/
theorem witness_Csum16SumsTheBytes :
    ((State.placeCommand { idle with csCount := 3 } 0x4).snapshot.csCount).toNat ≤ 131072 := by decide

/-- LookupFindsTheRow: a row, and a code without one. -/
theorem witness_LookupFindsTheRow :
    idle.cfg.fct[2]? = some ⟨0xAA, 4, .numeric⟩ ∧ ∀ r ∈ idle.cfg.fct, r.code ≠ 0x99 := by decide

/-- ResultSetsAreExact: a command that commits and one that goes on. -/
theorem witness_ResultSetsAreExact :
    Instr.slot .decode = none ∧ Instr.decode ≠ .sreset ∧
      (stateOf (exec .decode (accepted 0x2 fP1 28))).isSome = true ∧
      (stateOf (exec .nop (accepted 0x0 [] 0))).isSome = true := by decide

/-- CellBlockDecodes, CellStatistics: a decode before its cell block. -/
theorem witness_atCells :
    (inDecode (.cells (job 11))).inflight = some (flying (.cells (job 11))) ∧
      (flying (.cells (job 11))).phase = .cells (job 11) := by decide

/-- TemperaturesAreRead, PackVoltageIsRead, PackCurrentIsRead, StateOfChargeIsRead, FixedFieldAttempt. -/
theorem witness_atFixed (k : FixedField) :
    (inDecode (.fixed k (job 19))).inflight = some (flying (.fixed k (job 19))) ∧
      (flying (.fixed k (job 19))).phase = .fixed k (job 19) ∧ (inDecode (.fixed k (job 19))).inputs = [] ∧
      (inDecode (.fixed k (job 19))).cfg.legal = true := by cases k <;> decide

/-- PackCurrentIsRead: each clause at the boundary values. -/
theorem witness_PackCurrentIsRead :
    (259 : Half).toNat < 260 ∧ (0x7FFF : Half).toNat < 32768 ∧ 32768 ≤ (0x8000 : Half).toNat ∧
      260 ≤ (260 : Half).toNat := by decide

/-- UnknownTagIsSkipped, DuplicateTagIsConsumed, OverrunEndsTheRun, KnownFieldIsRecorded: a tag of each kind. -/
theorem witness_atExtra :
    (inDecode (.extra { job 19 with seen := [0xC0] })).inflight =
        some (flying (.extra { job 19 with seen := [0xC0] })) ∧
      (inDecode (.extra (job 19))).cfg.legal = true ∧ (∀ r ∈ tCfg.fct, r.code ≠ 0x99) ∧
      (⟨0xC0, 1, .numeric⟩ ∈ tCfg.fct ∧ (0xC0 : Byte) ∈ ({ job 19 with seen := [0xC0] } : Job).seen) ∧
      (⟨0xAA, 4, .numeric⟩ ∈ tCfg.fct ∧ (0xAA : Byte) ∉ ({ job 19 with seen := [0xC0] } : Job).seen ∧
        ([1, 2, 3] : List Byte).length < 4 ∧ ([1, 2, 3, 4] : List Byte).length = 4) := by decide

/-- RunEndCommits: a run left by its break, one at the payload end, one at the capacity. -/
theorem witness_RunEndCommits :
    (inDecode (.finish (job 18))).inflight = some (flying (.finish (job 18))) ∧
      (inDecode (.extra (job 19))).inflight = some (flying (.extra (job 19))) ∧ (job 19).pe ≤ (job 19).off ∧
      tCfg.maxExtra ≤ ({ job 15 with x := 32 } : Job).x ∧ (inDecode (.finish (job 18))).inputs = [] := by decide

/-- ElementsChangeOnlyTheEngine: an element that answers a next state. -/
theorem witness_ElementsChangeOnlyTheEngine :
    Instr.slot (.xfield 0x99 []) ≠ none ∧
      (stateOf (exec (.xfield 0x99 []) (inDecode (.extra (job 15))))).isSome = true := by decide

/-- OutOfTurnIsRefused: an IDLE engine. -/
theorem witness_OutOfTurnIsRefused :
    Instr.slot .nop = none ∧ Instr.nop ≠ .sreset ∧ idle.inflight = none ∧ Instr.slot (.fixSoc 1) = some (.fixed .soc) := by
  decide

/-- AdderLaws: its fifth clause, and a list short enough for its second. -/
theorem witness_AdderLaws :
    decodeCommand (acceptedIn 0x4 0).word = .ok (.csum16 .rxbuf) ∧ ([1, 2] : List Byte).length ≤ 16843009 := by decide

theorem witness_AdderLaws_inv : (accepted 0x4 [] 0).Inv :=
  ⟨by decide, by decide, by decide, by decide, by decide, by decide⟩

/-- ChecksumRoundTrip: F_P1. -/
theorem witness_ChecksumRoundTrip :
    20 ≤ 2 + refBe16 (fun i => fP1.getD i 0) 2 ∧ 2 + refBe16 (fun i => fP1.getD i 0) 2 ≤ 28 ∧
      fP1.getD 26 0 = (sum16 (ck16 (refBytes (fun i => fP1.getD i 0) 0 24))).extractLsb' 8 8 ∧
      fP1.getD 27 0 = (sum16 (ck16 (refBytes (fun i => fP1.getD i 0) 0 24))).extractLsb' 0 8 := by decide

/-- WideValueIsLastFourBytes. -/
theorem witness_WideValueIsLastFourBytes :
    ([1, 2, 3, 4] : List Byte).length ≤ 4 ∧ ([0x35, 0x36, 0x37, 0x38] : List Byte).length = 4 := by decide

/-- TemperatureRule: the boundary. -/
theorem witness_TemperatureRule : (100 : Half).toNat ≤ 100 ∧ 100 < (101 : Half).toNat := by decide

/-- HardResetInAnyPhase: a RESET while a command is in flight. -/
theorem witness_HardResetInAnyPhase :
    ({ accepted 0x2 fP1 28 with inputs := [.reset] } : State).cfg.legal = true ∧
      ({ accepted 0x2 fP1 28 with inputs := [.reset] } : State).inputs = [.reset] := by decide

/-- InvariantAtReset: a legal configuration that is not the default. -/
theorem witness_InvariantAtReset : tCfg.legal = true ∧ tCfg ≠ Config.default := by decide

/-- The invariant holds of an accepted DECODE and of a decode before its cell block: the states the whole-machine
statements are met by. -/
theorem witness_Inv_accepted : (accepted 0x2 fP1 28).Inv :=
  ⟨by decide, by decide, by decide, by decide, by decide, by decide⟩

theorem witness_Inv_cells : (inDecode (.cells (job 11))).Inv :=
  ⟨by decide, by decide, by decide, by decide, by decide, by decide⟩

/-- StepKeepsInvariant, StepAlwaysCompletes, ReadOffsetNeverDecreases, StaleUntilCommit: from those two states a step
answers a next state, still BUSY. -/
theorem witness_step_busy :
    (stateOf (step (accepted 0x2 fP1 28))).map (fun t => t.busy) = some true ∧
      (stateOf (step (inDecode (.cells (job 11))))).map (fun t => t.busy) = some true ∧
      (accepted 0x2 fP1 28).inputs = [] ∧ (inDecode (.cells (job 11))).busy = true ∧
      (jobAfter (step (inDecode (.cells (job 11))))).isSome = true := by decide

/-- OnlyResetAbandonsACommand: an accepted NOP's step commits. -/
theorem witness_Inv_nop : (accepted 0x0 [] 0).Inv :=
  ⟨by decide, by decide, by decide, by decide, by decide, by decide⟩

theorem witness_OnlyResetAbandonsACommand :
    (accepted 0x0 [] 0).busy = true ∧ (stateOf (step (accepted 0x0 [] 0))).map (fun t => t.busy) = some false := by decide

/-- EngineNeverWritesBuffers. -/
theorem witness_EngineNeverWritesBuffers :
    (stateOf (engineStep (inDecode (.cells (job 11))))).isSome = true := by decide

/-- AcceptedCommandCommits, DecodeRefinesPipeline, ExtractDecodeRefinesPipeline: accepted words 0x2 and 0x3. -/
theorem witness_refinement :
    (accepted 0x2 fP1 28).inflight = some (acceptedIn 0x2 28) ∧ (acceptedIn 0x2 28).word = 0x2 ∧
      (accepted 0x2 fP1 28).busy = true ∧ (accepted 0x3 fP1 28).inflight = some (acceptedIn 0x3 28) ∧
      (acceptedIn 0x3 28).word = 0x3 ∧ (accepted 0x3 fP1 28).inputs = [] ∧
      (accepted 0x3 fP1 28).cfg.legal = true := by decide

end Sys2Proof.Tests
end

section
/-! SUPPORT. The word of a decoded command: the decoder accepts only what the encoder writes (30_encoding.md R80, R81). -/

namespace Sys2Proof.Proofs

open Sys2Proof.Machine Sys2Proof.Laws

/-- The fields of 30_encoding.md R80 put together are the word. -/
theorem eq_append_fields (w : Word) :
    w = bitField w 17 15 ++ bitField w 16 1 ++ bitField w 8 8 ++ bitField w 4 4 ++ bitField w 0 4 := by
  apply BitVec.eq_of_getLsbD_eq
  intro i hi
  simp only [bitField, BitVec.getLsbD_append, BitVec.getLsbD_extractLsb']
  grind

/-- A word whose reserved fields are 0 is the word of its SRC, TAG and OP fields. -/
theorem eq_cmdw_of_reserved {w : Word} (hhi : bitField w 17 15 = 0) (hmid : bitField w 4 4 = 0) :
    w = cmdw (bitField w 16 1) (bitField w 8 8) (bitField w 0 4) := by
  have hw := eq_append_fields w
  rwa [hhi, hmid] at hw

/-- SRC and TAG are 0 where bits [16:8] are. -/
theorem src_tag_eq_zero {w : Word} (h : bitField w 8 9 = 0) : bitField w 16 1 = 0 ∧ bitField w 8 8 = 0 := by
  have hn := congrArg BitVec.toNat h
  constructor <;> apply BitVec.eq_of_toNat_eq <;>
    simp only [bitField, BitVec.extractLsb'_toNat, Nat.shiftRight_eq_div_pow, BitVec.ofNat_eq_ofNat,
      BitVec.toNat_ofNat, Nat.zero_mod, Nat.reducePow] at hn ⊢ <;> omega

/-- A word the decoder accepts is the encoding of what it decodes to (30_encoding.md R81). -/
theorem encode_of_decodeCommand {w : Word} {i : Instr} (h : decodeCommand w = .ok i) (c : Config) :
    encode c i = .word w := by
  simp only [decodeCommand] at h
  split at h
  · cases h
  next hres =>
  obtain ⟨hhi, hmid⟩ := not_or.mp hres
  have hw : cmdw (bitField w 16 1) (bitField w 8 8) (bitField w 0 4) = w :=
    (eq_cmdw_of_reserved (not_not.mp hhi) (not_not.mp hmid)).symm
  have hplain : ∀ {op}, bitField w 0 4 = op ∧ bitField w 8 9 = 0 → Code.word (cmdw 0 0 op) = .word w := by
    rintro op ⟨hop, hzero⟩
    obtain ⟨hsrc, htag⟩ := src_tag_eq_zero hzero
    rw [← hw, hop, hsrc, htag]
  split at h
  · cases h; exact hplain ‹_›
  split at h
  · cases h; exact hplain ‹_›
  split at h
  · cases h; exact hplain ‹_›
  split at h
  · cases h; exact hplain ‹_›
  split at h
  · next hcs =>
    obtain ⟨hop, htag⟩ := hcs
    rw [hop, htag] at hw
    split at h
    · next hsrc =>
      cases h
      rw [hsrc] at hw
      exact congrArg Code.word hw
    · next hsrc =>
      cases h
      rw [(BitVec.eq_zero_or_eq_one _).resolve_left hsrc] at hw
      exact congrArg Code.word hw
  split at h
  · next hlk =>
    obtain ⟨hop, hsrc⟩ := hlk
    rw [hop, hsrc] at hw
    cases h
    exact congrArg Code.word hw
  split at h
  · cases h; exact hplain ‹_›
  · cases h

/-- The word of SRESET (40_commands.md R111). -/
theorem eq_of_decodeCommand_sreset {w : Word} (h : decodeCommand w = .ok .sreset) : w = 0xF :=
  (Code.word.inj (encode_of_decodeCommand h Config.default)).symm

/-- The word of DECODE (40_commands.md R106). -/
theorem eq_of_decodeCommand_decode {w : Word} (h : decodeCommand w = .ok .decode) : w = 0x2 :=
  (Code.word.inj (encode_of_decodeCommand h Config.default)).symm

/-- The word of EXTRACT_DECODE (40_commands.md R108). -/
theorem eq_of_decodeCommand_extractDecode {w : Word} (h : decodeCommand w = .ok .extractDecode) : w = 0x3 :=
  (Code.word.inj (encode_of_decodeCommand h Config.default)).symm

end Sys2Proof.Proofs
end

section
/-! SUPPORT. What one move of the engine can do, said once. -/

namespace Sys2Proof.Proofs

open Sys2Proof.Machine Sys2Proof.Laws

/-! ### Where the engine fetches from -/

theorem fetch_accepted {s : State} {f : InFlight} (hf : s.inflight = some f) (hp : f.phase = .accepted) :
    s.fetch = some (decodeCommand f.word) := by
  simp [State.fetch, hf, hp]

theorem fetch_fixed {s : State} {f : InFlight} {k : FixedField} {j : Job} (hf : s.inflight = some f)
    (hp : f.phase = .fixed k j) : s.fetch = some (s.fetchElement (.fixed k) j) := by
  simp [State.fetch, hf, hp]

theorem fetch_extra {s : State} {f : InFlight} {j : Job} (hf : s.inflight = some f) (hp : f.phase = .extra j) :
    s.fetch = if extraGoesOn s.cfg j then some (s.fetchElement .extra j) else none := by
  simp [State.fetch, hf, hp]

/-- A fixed field is fetched only where its value lies inside the frame (43_fixed_field.md R166). -/
theorem off_add_width_lt_of_fetch {s : State} {k : FixedField} {j : Job} {i : Instr}
    (h : s.fetchElement (.fixed k) j = .ok i) : j.off + k.width < j.eff := by
  have hlen : (s.elementBytes j).length = j.eff - j.off := windowBytes_length s j.base j.off j.eff
  unfold State.fetchElement at h
  cases hb : s.elementBytes j with
  | nil => rw [hb] at h; cases h
  | cons tag rest =>
    rw [hb] at h hlen
    cases hi : fixedInstr k rest with
    | none => simp [decodeElement, hi] at h
    | some i' =>
      have hw := (fixedInstr_some hi).1
      rw [List.length_cons] at hlen
      omega

/-- An element is decoded only in its own slot. -/
theorem slot_of_decodeElement {c : Config} {sl : Slot} {bytes : List Byte} {i : Instr}
    (h : decodeElement c sl bytes = .ok i) : i.slot = some sl := by
  cases sl with
  | cellBlock =>
    rcases bytes with _ | ⟨tag, _ | ⟨bc, rest⟩⟩ <;> cases h
    rfl
  | fixed k =>
    rcases bytes with _ | ⟨tag, rest⟩
    · cases h
    · cases hk : fixedInstr k rest with
      | none => simp [decodeElement, hk] at h
      | some i' =>
        simp only [decodeElement, hk] at h
        split at h <;> cases h
        exact (fixedInstr_some hk).2
  | extra =>
    rcases bytes with _ | ⟨tag, rest⟩ <;> cases h
    rfl

/-- A command is fetched only from an accepted word. -/
theorem accepted_of_fetch_command {s : State} {i : Instr} (h : s.fetch = some (.ok i)) (hi : i.slot = none) :
    ∃ f, s.inflight = some f ∧ f.phase = .accepted ∧ decodeCommand f.word = .ok i := by
  have hel : ∀ {sl j}, s.fetchElement sl j ≠ .ok i := fun {sl j} he => by
    simp [slot_of_decodeElement he] at hi
  unfold State.fetch at h
  cases hf : s.inflight with
  | none => simp [hf] at h
  | some f =>
    cases hp : f.phase with
    | accepted => exact ⟨f, rfl, hp, by simpa [hf, hp] using h⟩
    | cells j => simp [hf, hp, hel] at h
    | fixed k j => simp [hf, hp, hel] at h
    | extra j => simp [hf, hp, hel] at h
    | finish j => simp [hf, hp] at h

/-! ### The moves -/

/-- The window and the extraction with which an accepted command begins a decode (40_commands.md R106, R108). -/
inductive BeginsDecode (s : State) (f : InFlight) : Option Extraction → Nat → Nat → Prop
  | decode (hw : decodeCommand f.word = .ok .decode) :
      BeginsDecode s f none f.snap.winBase.toNat f.snap.winLen.toNat
  | extractDecode (hw : decodeCommand f.word = .ok .extractDecode) :
      BeginsDecode s f (some (s.extraction f.snap.rxLen)) (s.extraction f.snap.rxLen).base.toNat
        (s.extraction f.snap.rxLen).len.toNat

/-- `EngineMove s t`: the engine's move takes `s` to `t`. One case for each way 40_commands.md R101 to R111 lets it. Of a
matched fixed field's record it keeps that the cell block's registers are as they were. -/
inductive EngineMove (s : State) : State → Prop
  | idle (hi : s.inflight = none) : EngineMove s s
  | sreset (f : InFlight) (hf : s.inflight = some f) (hp : f.phase = .accepted)
      (hw : decodeCommand f.word = .ok .sreset) : EngineMove s (softReset s)
  | nop (f : InFlight) (hf : s.inflight = some f) (hp : f.phase = .accepted) (hw : decodeCommand f.word = .ok .nop) :
      EngineMove s (commit s)
  | extract (f : InFlight) (hf : s.inflight = some f) (hp : f.phase = .accepted)
      (hw : decodeCommand f.word = .ok .extract) :
      EngineMove s (commit (installExtraction (s.extraction f.snap.rxLen) s))
  | csum16 (f : InFlight) (hf : s.inflight = some f) (hp : f.phase = .accepted) (src : Buffer)
      (hw : decodeCommand f.word = .ok (.csum16 src)) :
      EngineMove s (commit
        { s with
          csacc := ck16 (s.bufBytes src f.snap.csStart.toNat f.snap.csCount.toNat)
          csum := sum16 (ck16 (s.bufBytes src f.snap.csStart.toNat f.snap.csCount.toNat)) })
  | lookup (f : InFlight) (hf : s.inflight = some f) (hp : f.phase = .accepted) (tag : Byte)
      (hw : decodeCommand f.word = .ok (.lookup tag)) :
      EngineMove s (commit { s with lkres := lookupWord s.cfg tag })
  | frameFails (f : InFlight) (hf : s.inflight = some f) (hp : f.phase = .accepted) {ex : Option Extraction}
      {base len : Nat} (hb : BeginsDecode s f ex base len) {set : DecodeSet}
      (hc : s.frameChecks f.snap.ctrl ex base len = .error set) : EngineMove s (commitDecode ex set s)
  | framePasses (f : InFlight) (hf : s.inflight = some f) (hp : f.phase = .accepted) {ex : Option Extraction}
      {base len : Nat} (hb : BeginsDecode s f ex base len) {j : Job}
      (hc : s.frameChecks f.snap.ctrl ex base len = .ok j) : EngineMove s (s.withPhase f (.cells j))
  | cellBlock (f : InFlight) (j : Job) (hf : s.inflight = some f) (hp : f.phase = .cells j) (tag bc : Byte)
      (entries : List Byte) : EngineMove s (s.withPhase f (.fixed .tmos (cellStage s.cfg tag bc entries j)))
  | fixedMatches (f : InFlight) (k : FixedField) (j : Job) (hf : s.inflight = some f) (hp : f.phase = .fixed k j)
      (hin : j.off + k.width < j.eff) (r : Record) (hn : r.ncells = j.set.record.ncells)
      (hh : r.cellhdr = j.set.record.cellhdr) :
      EngineMove s (s.withPhase f (phaseAfterFixed k (fixedStage k r j)))
  | fixedPassed (f : InFlight) (k : FixedField) (j : Job) (hf : s.inflight = some f) (hp : f.phase = .fixed k j) :
      EngineMove s (s.withPhase f (phaseAfterFixed k j))
  | extraField (f : InFlight) (j : Job) (hf : s.inflight = some f) (hp : f.phase = .extra j)
      (hgo : extraGoesOn s.cfg j = true) (tag : Byte) (value : List Byte) :
      EngineMove s (s.withPhase f (extraPhase s.cfg tag value j))
  | completes (f : InFlight) (j : Job) (hf : s.inflight = some f) (hp : f.phase = .extra j ∨ f.phase = .finish j) :
      EngineMove s (commitDecode j.extraction (completed s.cfg j) s)

/-- A decode begun is one of the engine's moves. -/
theorem engineMove_startDecode {s : State} {f : InFlight} {ex : Option Extraction} {base len : Nat}
    (hf : s.inflight = some f) (hp : f.phase = .accepted) (hb : BeginsDecode s f ex base len) :
    EngineMove s (s.startDecode f ex base len) := by
  rcases startDecode_cases s f ex base len with ⟨set, hc, ht⟩ | ⟨j, hc, ht⟩
  · rw [ht]; exact .frameFails f hf hp hb hc
  · rw [ht]; exact .framePasses f hf hp hb hc

/-- A fixed field fetched and executed is one of the engine's moves. -/
theorem engineMove_runFixed {k : FixedField} {write : Job → Record} {s t : State} {i : Instr}
    (hi : s.fetch = some (.ok i)) (h : runFixed k write s = .next t)
    (hn : ∀ j, (write j).ncells = j.set.record.ncells) (hh : ∀ j, (write j).cellhdr = j.set.record.cellhdr) :
    EngineMove s t := by
  obtain ⟨f, j, hf, hp, rfl⟩ := runFixed_next.mp h
  rw [fetch_fixed hf hp] at hi
  exact .fixedMatches f k j hf hp (off_add_width_lt_of_fetch (Option.some.inj hi)) _ (hn j) (hh j)

/-- An instruction fetched and executed is one of the engine's moves. -/
theorem engineMove_exec {s t : State} {i : Instr} (hi : s.fetch = some (.ok i)) (h : exec i s = .next t) :
    EngineMove s t := by
  cases i with
  | nop =>
    obtain ⟨f, hf, hp, rfl⟩ := runCommand_next.mp h
    rw [fetch_accepted hf hp] at hi
    exact .nop f hf hp (Option.some.inj hi)
  | extract =>
    obtain ⟨f, hf, hp, rfl⟩ := runCommand_next.mp h
    rw [fetch_accepted hf hp] at hi
    exact .extract f hf hp (Option.some.inj hi)
  | decode =>
    obtain ⟨f, hf, hp, rfl⟩ := runCommand_next.mp h
    rw [fetch_accepted hf hp] at hi
    exact engineMove_startDecode hf hp (.decode (Option.some.inj hi))
  | extractDecode =>
    obtain ⟨f, hf, hp, rfl⟩ := runCommand_next.mp h
    rw [fetch_accepted hf hp] at hi
    exact engineMove_startDecode hf hp (.extractDecode (Option.some.inj hi))
  | csum16 src =>
    obtain ⟨f, hf, hp, rfl⟩ := runCommand_next.mp h
    rw [fetch_accepted hf hp] at hi
    exact .csum16 f hf hp src (Option.some.inj hi)
  | lookup tag =>
    obtain ⟨f, hf, hp, rfl⟩ := runCommand_next.mp h
    rw [fetch_accepted hf hp] at hi
    exact .lookup f hf hp tag (Option.some.inj hi)
  | sreset =>
    obtain ⟨f, hf, hp, hw⟩ := accepted_of_fetch_command hi rfl
    cases h
    exact .sreset f hf hp hw
  | cellBlock tag bc entries =>
    obtain ⟨f, j, hf, hp, rfl⟩ := execCellBlock_next.mp h
    exact .cellBlock f j hf hp tag bc entries
  | fixTmos raw => exact engineMove_runFixed hi h (fun _ => rfl) (fun _ => rfl)
  | fixTp1 raw => exact engineMove_runFixed hi h (fun _ => rfl) (fun _ => rfl)
  | fixTp2 raw => exact engineMove_runFixed hi h (fun _ => rfl) (fun _ => rfl)
  | fixVpack raw => exact engineMove_runFixed hi h (fun _ => rfl) (fun _ => rfl)
  | fixIpack raw => exact engineMove_runFixed hi h (fun _ => rfl) (fun _ => rfl)
  | fixSoc raw => exact engineMove_runFixed hi h (fun _ => rfl) (fun _ => rfl)
  | xfield tag value =>
    obtain ⟨f, j, hf, hp, rfl⟩ := execXfield_next.mp h
    cases hgo : extraGoesOn s.cfg j with
    | true => exact .extraField f j hf hp hgo tag value
    | false => simp [fetch_extra hf hp, hgo] at hi

/-- Where the engine moves on, it makes one of its moves. -/
theorem engineMove_movesOn {s t : State} {r : Reject} (h : s.engineMovesOn r = .next t) : EngineMove s t := by
  rcases engineMovesOn_next h with ⟨hi, rfl⟩ | ⟨f, k, j, hf, hp, rfl⟩ | ⟨f, j, hf, hp, rfl⟩
  · exact .idle hi
  · exact .fixedPassed f k j hf hp
  · exact .completes f j hf hp

/-- What a move of the engine that answers a next state does. -/
theorem engineMove_of_engineStep {s t : State} (h : engineStep s = .next t) : EngineMove s t := by
  rcases engineStep_cases s with ⟨i, hi, he⟩ | ⟨r, -, he⟩ | ⟨-, he⟩ <;> rw [he] at h
  · exact engineMove_exec hi h
  · exact engineMove_movesOn h
  · exact engineMove_movesOn h

end Sys2Proof.Proofs
end

section
/-! SUPPORT. What a host write and a step can do, said once. -/

namespace Sys2Proof.Proofs

open Sys2Proof.Machine Sys2Proof.Laws

/-! ### The acknowledgement (60_exceptions.md R228) -/

theorem acknowledge_done (v : Word) (s : State) :
    (acknowledge v s).status.done = (s.status.done && !(v.getLsbD 1)) := by
  unfold acknowledge
  cases v.getLsbD 1 <;> simp

theorem acknowledge_err (v : Word) (s : State) :
    (acknowledge v s).status.err = (s.status.err && !(v.getLsbD 2)) := by
  unfold acknowledge
  cases v.getLsbD 2 <;> simp

theorem acknowledge_ecode (v : Word) (s : State) :
    (acknowledge v s).status.ecode = if v.getLsbD 2 then .none else s.status.ecode := rfl

/-! ### Host writes -/

/-- A register is located only at its own offset. -/
theorem offset_of_locate {off : Nat} {r : Reg} (h : locate off = .reg r) : off = r.offset := by
  unfold locate at h
  split at h
  · split at h
    · next r' hfind =>
      cases h
      have hoff := List.find?_some hfind
      exact (of_decide_eq_true hoff).symm
    · cases h
  · repeat' split at h
    all_goals cases h

/-- `WriteMove s off v t`: the host's write of `v` at offset `off` takes `s` to `t`. One case for each way 20_memory.md
R63, R68 and 40_commands.md R100 let it. A refusal may have stored CMD while IDLE; of the five operand registers it keeps
only that nothing else changes. -/
inductive WriteMove (s : State) (off : Nat) (v : Word) : State → Prop
  | ignored : WriteMove s off v s
  | refused (code : Ecode) (hc : code ≠ .none) (cmd : Word) (hb : s.busy = true → cmd = s.cmd) :
      WriteMove s off v (refuse code { s with cmd := cmd })
  | acknowledged (ho : off = 0x00C) : WriteMove s off v (acknowledge v s)
  | ctrl (ho : off = 0x004) (hb : s.busy = false) : WriteMove s off v { s with ctrl := Ctrl.ofWord v }
  | operand (hb : s.busy = false) (rxLen winBase winLen csStart csCount : Word) :
      WriteMove s off v
        { s with rxLen := rxLen, winBase := winBase, winLen := winLen, csStart := csStart, csCount := csCount }
  | buffer (hb : s.busy = false) (b : Buffer) (k : Nat) : WriteMove s off v (s.setBufWord b k v)
  | sreset (ho : off = 0x008) (hb : s.busy = false) (hw : decodeCommand v = .ok .sreset) :
      WriteMove s off v (softReset { s with cmd := v })
  | accepted (ho : off = 0x008) (hb : s.busy = false) (i : Instr) (hw : decodeCommand v = .ok i) (hi : i ≠ .sreset)
      (hr : rangeFail i { s with cmd := v } = false) : WriteMove s off v (accept v { s with cmd := v })

/-- A write that BUSY refuses is refused or stores. -/
theorem writeMove_refuseIfBusy {s t : State} {off : Nat} {v : Word} (h : s.busy = false → WriteMove s off v t) :
    WriteMove s off v (refuseIfBusy s t) := by
  unfold refuseIfBusy
  cases hb : s.busy with
  | true => exact .refused .busyWrite (by simp) s.cmd (fun _ => rfl)
  | false => exact h hb

/-- The issue of a word is one of the moves of a host write. -/
theorem writeMove_issue {s t : State} {v : Word} (h : issue v s = .next t) : WriteMove s 0x008 v t := by
  rcases issue_cases v s with ⟨-, he⟩ | ⟨hb, r, -, he⟩ | ⟨hb, hw, he⟩ | ⟨hb, i, -, -, -, he⟩ | ⟨hb, i, hw, hi, hr, he⟩ <;>
    rw [he] at h <;> cases h
  · exact .refused .busy (by simp) s.cmd (fun _ => rfl)
  · exact .refused .illegalCmd (by simp) v (by simp [hb])
  · exact .sreset rfl hb hw
  · exact .refused .range (by simp) v (by simp [hb])
  · exact .accepted rfl hb i hw hi hr

/-- A write to a named register is one of the moves of a host write. -/
theorem writeMove_writeReg {s t : State} {r : Reg} {v : Word} (h : writeReg r v s = .next t) :
    WriteMove s r.offset v t := by
  cases r with
  | ctrl => cases h; exact writeMove_refuseIfBusy (.ctrl rfl)
  | cmd => exact writeMove_issue h
  | status => cases h; exact .acknowledged rfl
  | rxLen => cases h; exact writeMove_refuseIfBusy (.operand · v s.winBase s.winLen s.csStart s.csCount)
  | winBase => cases h; exact writeMove_refuseIfBusy (.operand · s.rxLen v s.winLen s.csStart s.csCount)
  | winLen => cases h; exact writeMove_refuseIfBusy (.operand · s.rxLen s.winBase v s.csStart s.csCount)
  | csStart => cases h; exact writeMove_refuseIfBusy (.operand · s.rxLen s.winBase s.winLen v s.csCount)
  | csCount => cases h; exact writeMove_refuseIfBusy (.operand · s.rxLen s.winBase s.winLen s.csStart v)
  | _ => cases h; exact .ignored

/-- What a word write that answers a next state does. -/
theorem writeMove_of_writeWord {s t : State} {off : Nat} {v : Word} (h : writeWord off v s = .next t) :
    WriteMove s off v t := by
  unfold writeWord at h
  cases hl : locate off with
  | reg r =>
    rw [hl] at h
    rw [offset_of_locate hl]
    exact writeMove_writeReg h
  | buffer b k =>
    rw [hl] at h
    cases h
    unfold writeBuffer
    split
    · exact writeMove_refuseIfBusy (.buffer · b k)
    · exact .ignored
  | _ => rw [hl] at h; cases h; exact .ignored

/-! ### Steps -/

/-- `StepMove s t`: a step takes `s` to `t`. The engine's move where no event, a `tick` or a waiting host is at the head
of the events, a RESET, a host access that only answers, or a host write (log 5). -/
inductive StepMove (s : State) : State → Prop
  | engine (inputs : List Input) {t : State} (h : EngineMove { s with inputs := inputs } t) : StepMove s t
  | reset (rest : List Input) (hi : s.inputs = .reset :: rest) : StepMove s (hardReset { s with inputs := rest })
  | answered (inputs : List Input) (reply : Reply) : StepMove s { s with inputs := inputs, reply := reply }
  | write (off : Nat) (v : Word) (rest : List Input) {t : State}
      (hi : s.inputs = .host (.write (s.cfg.blockBase + off) 4 v) :: rest)
      (h : WriteMove { s with inputs := rest, reply := .written } off v t) : StepMove s t

/-- What a host read that answers a next state does. -/
theorem stepMove_of_hostRead {s t : State} {addr bytes : Nat} {rest : List Input}
    (h : hostAccess (.read addr bytes) { s with inputs := rest } = .next t) : StepMove s t := by
  simp only [hostAccess] at h
  repeat' split at h
  all_goals cases h
  all_goals exact .answered rest _

/-- What a host access that answers a next state does. -/
theorem stepMove_of_hostAccess {s t : State} {a : Access} {rest : List Input} (hi : s.inputs = .host a :: rest)
    (h : hostAccess a { s with inputs := rest } = .next t) : StepMove s t := by
  cases a with
  | read addr bytes => exact stepMove_of_hostRead h
  | write addr bytes v =>
    simp only [hostAccess] at h
    split at h
    · next hsel =>
      split at h
      · next hword =>
        simp only [selects, wordAccess, Bool.and_eq_true, decide_eq_true_eq] at hsel hword
        obtain ⟨rfl, -⟩ := hword
        refine .write (addr - s.cfg.blockBase) v rest ?_ (writeMove_of_writeWord h)
        rw [hi, Nat.add_sub_cancel' hsel.1]
      · cases h
        exact .answered rest _
    · cases h

/-- What a step that answers a next state does. -/
theorem stepMove_of_step {s t : State} (h : step s = .next t) : StepMove s t := by
  unfold step at h
  split at h
  · unfold nextEvent at h
    split at h
    · exact .engine s.inputs (engineMove_of_engineStep h)
    · next rest _ => exact .engine rest (engineMove_of_engineStep h)
    · next rest hi => cases h; exact .reset rest hi
    · next a rest hi => exact stepMove_of_hostAccess hi h
    · next rest _ =>
      split at h
      · exact .engine s.inputs (engineMove_of_engineStep h)
      · exact stepMove_of_hostRead h
  · cases h

end Sys2Proof.Proofs
end

section
/-! SUPPORT. The parts of the invariant: what each stage of a decode, each commit and each host write does to them. -/

namespace Sys2Proof.Proofs

open Sys2Proof.Machine Sys2Proof.Laws

/-! ### Result sets -/

@[simp] theorem withStats_ncells (r : Record) (n : Nat) (lo hi : Half) : (r.withStats n lo hi).ncells = r.ncells := by
  unfold Record.withStats
  split <;> rfl

@[simp] theorem withStats_cellhdr (r : Record) (n : Nat) (lo hi : Half) :
    (r.withStats n lo hi).cellhdr = r.cellhdr := by
  unfold Record.withStats
  split <;> rfl

/-- A legal configuration's array sizes (00_scope.md R7, R8). -/
theorem legal_capacities {c : Config} (h : c.legal = true) : c.maxCells ≤ 255 ∧ c.maxExtra ≤ 32 ∧ c.textCap ≤ 56 := by
  simp only [Config.legal, Config.sizesLegal, Bool.and_eq_true, decide_eq_true_eq] at h
  omega

/-- A legal configuration's RXBUF and FCT sizes (00_scope.md R7, R8). -/
theorem legal_sizes {c : Config} (h : c.legal = true) : c.rxbufSize ≤ 131072 ∧ c.fct.length ≤ 256 := by
  simp only [Config.legal, Config.sizesLegal, Config.fctLegal, Bool.and_eq_true, decide_eq_true_eq] at h
  omega

/-- A result set without cells and extra fields is within every capacity. -/
theorem listsOk_of_empty (c : Config) {d : DecodeSet} (hcells : d.cells = []) (hxe : d.xe = [])
    (hn : d.record.ncells = 0) (hcap : d.flags.cellCap = false) : d.listsOk c := by
  simp [DecodeSet.listsOk, hcells, hxe, hn, hcap]

/-- Such a set is a well-formed commit where its RESULT is not OK. -/
theorem committedOk_of_empty (c : Config) {d : DecodeSet} (hcells : d.cells = []) (hxe : d.xe = [])
    (hn : d.record.ncells = 0) (hcap : d.flags.cellCap = false) (hx : d.record.nextra = 0) (hv : d.valid = false)
    (hr : d.result ≠ .ok) : d.committedOk c :=
  ⟨listsOk_of_empty c hcells hxe hn hcap, by simp [hx, hxe], by simp [hv, hr], by simp [hr, hcells]⟩

/-- The result registers after reset. -/
theorem committedOk_default (c : Config) : DecodeSet.default.committedOk c :=
  committedOk_of_empty c rfl rfl rfl rfl rfl rfl (by decide)

/-- A word of 0 has no bit in a reserved field. -/
theorem bitField_zero (lo n : Nat) : bitField 0 lo n = 0 := by simp [bitField]

theorem reservedOk_default : DecodeSet.default.reservedOk := ⟨bitField_zero 17 15, bitField_zero 17 15⟩

/-- FR_LEN of a soft failure was written by stage 3 or not at all (40_commands.md R113). -/
theorem frLen_of_frameChecks_error {s : State} {ctrl : Ctrl} {ex : Option Extraction} {base len : Nat}
    {set : DecodeSet} (h : s.frameChecks ctrl ex base len = .error set) :
    set.frLen = 0 ∨ ∃ lenf, set.frLen = frLenWord lenf := by
  simp only [State.frameChecks] at h
  repeat' split at h
  all_goals cases h
  all_goals simp [softFailure]

/-- A soft failure commits a well-formed result set. -/
theorem committedOk_of_frameChecks_error {s : State} {ctrl : Ctrl} {ex : Option Extraction} {base len : Nat}
    {set : DecodeSet} (h : s.frameChecks ctrl ex base len = .error set) : set.committedOk s.cfg := by
  obtain ⟨frLen, frCsum, frPend, bad, code, rfl, hcode⟩ := frameChecks_error h
  have hok : code ≠ .ok := by rintro rfl; simp at hcode
  exact committedOk_of_empty s.cfg rfl rfl rfl rfl rfl rfl hok

theorem reservedOk_of_frameChecks_error {s : State} {ctrl : Ctrl} {ex : Option Extraction} {base len : Nat}
    {set : DecodeSet} (h : s.frameChecks ctrl ex base len = .error set) : set.reservedOk := by
  refine ⟨?_, ?_⟩
  · rcases frLen_of_frameChecks_error h with hz | ⟨lenf, hl⟩
    · rw [hz]; exact bitField_zero 17 15
    · rw [hl]; exact frLenWord_reserved lenf
  · obtain ⟨_, _, _, _, _, rfl, -⟩ := frameChecks_error h
    exact bitField_zero 17 15

/-! ### The working registers of a decode -/

/-- A frame that lies inside RXBUF starts a decode with well-formed working registers. -/
theorem jobOk_startJob {c : Config} {base : Nat} {lenf : Half} (hmin : 21 ≤ 2 + lenf.toNat)
    (hwin : base + (2 + lenf.toNat) ≤ c.rxbufSize) (ex : Option Extraction) (acc : Word) (stored : Half) :
    (startJob ex base lenf acc (2 + lenf.toNat) (2 + lenf.toNat) stored).ok c := by
  refine ⟨rfl, rfl, hmin, ?_, hwin, ?_, ?_, rfl, rfl, rfl, rfl, rfl, frLenWord_reserved lenf,
    bitField_zero 17 15⟩
  · simp only [startJob]; omega
  · simp [startJob, payloadStart]
  · exact listsOk_of_empty c rfl rfl rfl rfl

/-- The cell block keeps the working registers well-formed: OFF is at most 13 + 255 (43_fixed_field.md R163). -/
theorem jobOk_cellStage {c : Config} (hc : c.legal = true) {j : Job} (h : j.ok c) (tag bc : Byte)
    (entries : List Byte) : (cellStage c tag bc entries j).ok c := by
  obtain ⟨htot, heff, hmin, hpe, hwin, -, hlists, -, hx, hseen, hres, hval, hfr, -⟩ := h
  obtain ⟨-, -, hxe, hnodup, htext, -⟩ := hlists
  obtain ⟨hcap, -, hflags⟩ := cellLoop_bounds (k := bc.toNat / 3) (bytes := entries) (Nat.zero_le c.maxCells)
  obtain ⟨hcap255, -⟩ := legal_capacities hc
  refine ⟨htot, heff, hmin, hpe, hwin, ?_, ⟨?_, hcap, hxe, hnodup, htext, hflags⟩, rfl, hx, hseen, hres, hval, hfr, ?_⟩
  · have := bc.isLt
    simp only [cellStage, payloadStart]
    omega
  · simp only [cellStage, withStats_ncells, BitVec.toNat_ofNat]
    omega
  · simp only [cellStage, withStats_cellhdr]
    exact cellHeader_reserved tag bc

/-- A matched fixed field keeps the working registers well-formed: its value lies inside the frame. -/
theorem jobOk_fixedStage {c : Config} {j : Job} (h : j.ok c) {k : FixedField} (hin : j.off + k.width < j.eff)
    {r : Record} (hn : r.ncells = j.set.record.ncells) (hh : r.cellhdr = j.set.record.cellhdr) :
    (fixedStage k r j).ok c := by
  obtain ⟨htot, heff, hmin, hpe, hwin, -, hlists, hcells, hx, hseen, hres, hval, hfr, hhdr⟩ := h
  obtain ⟨hncells, hlists⟩ := hlists
  refine ⟨htot, heff, hmin, hpe, hwin, ?_, ⟨?_, hlists⟩, hcells, hx, hseen, hres, hval, hfr, ?_⟩
  · simp only [fixedStage]; omega
  · simp only [fixedStage, hn]; exact hncells
  · simp only [fixedStage, hh]; exact hhdr

/-- A new OFF within its bound and other flags than the cell block's keep the working registers well-formed. -/
theorem jobOk_of_off_flags {c : Config} {j : Job} (h : j.ok c) {off : Nat} (hoff : off ≤ max 268 (j.pe + 24))
    {flags : Flags} (hcap : flags.cellCap = j.set.flags.cellCap) (hshort : flags.cellShort = j.set.flags.cellShort) :
    Job.ok c { j with off := off, set := { j.set with flags := flags } } := by
  obtain ⟨htot, heff, hmin, hpe, hwin, -, ⟨hncells, hcells, hxe, hnodup, htext, hflags⟩, hrest⟩ := h
  exact ⟨htot, heff, hmin, hpe, hwin, hoff, ⟨hncells, hcells, hxe, hnodup, htext, by simpa [hcap, hshort] using hflags⟩,
    hrest⟩

/-- The text kept of a field is at most TEXT_CAP long (44_tagged_field.md R199). -/
theorem xentry_text_length (c : Config) (row : FctRow) (t : Byte) (bytes : List Byte) :
    (xentry c row t bytes).text.length ≤ c.textCap := by
  unfold xentry
  cases row.kind with
  | numeric => exact Nat.zero_le _
  | text => exact List.length_take_le _ _

/-- A field recorded while XE has room keeps the working registers well-formed: a new tag, one entry more. -/
theorem jobOk_recordField {c : Config} {j : Job} (h : j.ok c) {row : FctRow} (hwidth : row.width ≤ 24)
    (hoff : j.off < j.pe) (hroom : j.x < c.maxExtra) {t : Byte} (hnew : t ∉ j.seen) (bytes : List Byte) :
    (recordField c row t bytes j).ok c := by
  obtain ⟨htot, heff, hmin, hpe, hwin, -, ⟨hncells, hcells, -, hnodup, htext, hflags⟩, hn, hx, hseen, hrest⟩ := h
  have htag : (xentry c row t bytes).tag = t := rfl
  have hfresh : t ∉ j.set.xe.map (fun e => e.tag) := by rwa [← hseen, List.mem_reverse]
  refine ⟨htot, heff, hmin, hpe, hwin, ?_, ⟨hncells, hcells, ?_, ?_, ?_, hflags⟩, hn, ?_, ?_, hrest⟩
  · simp only [recordField]; omega
  · simp only [recordField, List.length_append, List.length_singleton]; omega
  · simp only [recordField, List.map_append, List.map_cons, List.map_nil, htag]
    exact hnodup.append (List.nodup_singleton t) (List.disjoint_singleton.mpr hfresh)
  · intro e he
    simp only [recordField, List.mem_append, List.mem_singleton] at he
    rcases he with he | rfl
    · exact htext e he
    · exact xentry_text_length c row t bytes
  · simp only [recordField, List.length_append, List.length_singleton, hx]
  · simp only [recordField, List.reverse_cons, hseen, List.map_append, List.map_cons, List.map_nil, htag]

/-- What the end of the run commits is well-formed (44_tagged_field.md R200, 43_fixed_field.md R177). -/
theorem committedOk_completed {c : Config} (hc : c.legal = true) {j : Job} (h : j.ok c) :
    (completed c j).committedOk c := by
  obtain ⟨-, -, -, -, -, -, hlists, hn, hx, -⟩ := h
  obtain ⟨-, hroom, -⟩ := legal_capacities hc
  have hxe : j.set.xe.length ≤ c.maxExtra := by obtain ⟨-, -, hxe, -⟩ := hlists; exact hxe
  refine ⟨hlists, ?_, ?_, ?_⟩
  · simp only [completed, BitVec.toNat_ofNat]; omega
  · by_cases h1 : 1 ≤ j.n <;> simp [completed, h1]
  · have hne : 1 ≤ j.n ↔ j.set.cells ≠ [] := by rw [hn, Nat.one_le_iff_ne_zero, ne_eq, List.length_eq_zero_iff]
    by_cases h1 : 1 ≤ j.n <;> simp [completed, h1, ← hne]

theorem reservedOk_completed {c : Config} {j : Job} (h : j.ok c) : (completed c j).reservedOk := by
  obtain ⟨-, -, -, -, -, -, -, -, -, -, -, -, hreserved⟩ := h
  exact hreserved

end Sys2Proof.Proofs
end

section
/-! SUPPORT. Every step keeps the invariant. -/

namespace Sys2Proof.Proofs

open Sys2Proof.Machine Sys2Proof.Laws

/-! ### What the invariant says of a command in flight -/

theorem engineOk_of_idle {s : State} (h : s.inflight = none) : s.engineOk := by
  intro f hf
  rw [h] at hf
  cases hf

/-- The events to come and the last answer are no part of the invariant (log 5, 8). -/
theorem inv_environment {s : State} (hs : s.Inv) (inputs : List Input) (reply : Reply) :
    State.Inv { s with inputs := inputs, reply := reply } := hs

/-- A decode in flight has its command's word and well-formed working registers. -/
theorem decode_of_inv {s : State} (hs : s.Inv) {f : InFlight} (hf : s.inflight = some f) {j : Job}
    (hj : f.phase.job = some j) : (f.word = if j.extraction.isSome then 0x3 else 0x2) ∧ j.ok s.cfg := by
  obtain ⟨-, -, -, -, -, hengine⟩ := hs
  obtain ⟨-, -, hword, -, hjob, -⟩ := hengine f hf
  exact ⟨by simpa [InFlight.wordOk, hj] using hword, hjob j hj⟩

/-- The place of the engine in the decode (10_state.md R40). -/
theorem placeOk_of_inv {s : State} (hs : s.Inv) {f : InFlight} (hf : s.inflight = some f) :
    f.phase.placeOk s.cfg = true := by
  obtain ⟨-, -, -, -, -, hengine⟩ := hs
  obtain ⟨-, -, -, -, -, hplace⟩ := hengine f hf
  exact hplace

/-- DONE is 0 while BUSY (10_state.md R24). -/
theorem done_of_inv {s : State} (hs : s.Inv) {f : InFlight} (hf : s.inflight = some f) : s.status.done = false := by
  obtain ⟨-, -, -, -, -, hengine⟩ := hs
  exact (hengine f hf).1

/-- SRESET is never in flight (40_commands.md R111). -/
theorem not_sreset_of_inv {s : State} (hs : s.Inv) {f : InFlight} (hf : s.inflight = some f)
    (hp : f.phase = .accepted) : decodeCommand f.word ≠ .ok .sreset := by
  obtain ⟨-, -, -, -, -, hengine⟩ := hs
  obtain ⟨-, -, hword, -⟩ := hengine f hf
  intro hw
  simp [InFlight.wordOk, hp, Phase.job, eq_of_decodeCommand_sreset hw] at hword

/-- The extractor's window lies inside what was received (41_frame_boundary.md R130). -/
theorem extraction_inside (s : State) (len : Word) :
    (s.extraction len).base.toNat + (s.extraction len).len.toNat ≤ len.toNat := by
  have hlen := len.isLt
  unfold State.extraction
  split
  · next h =>
    simp only [Bool.and_eq_true, decide_eq_true_eq] at h
    simp only [BitVec.toNat_ofNat, cmdLen] at h ⊢
    omega
  · simp

/-- A decode begins on a window inside RXBUF, for the word that it belongs to (20_memory.md R76). -/
theorem window_of_beginsDecode {s : State} (hs : s.Inv) {f : InFlight} (hf : s.inflight = some f)
    (hp : f.phase = .accepted) {ex : Option Extraction} {base len : Nat} (hb : BeginsDecode s f ex base len) :
    base + len ≤ s.cfg.rxbufSize ∧ f.word = if ex.isSome then 0x3 else 0x2 := by
  obtain ⟨-, -, -, -, -, hengine⟩ := hs
  obtain ⟨-, -, -, hrange, -⟩ := hengine f hf
  cases hb with
  | decode hw =>
    simp only [InFlight.rangeOk, hp, hw, decide_eq_true_eq] at hrange
    exact ⟨hrange, eq_of_decodeCommand_decode hw⟩
  | extractDecode hw =>
    simp only [InFlight.rangeOk, hp, hw, decide_eq_true_eq] at hrange
    exact ⟨(extraction_inside s _).trans hrange, eq_of_decodeCommand_extractDecode hw⟩

/-! ### The shared operations -/

/-- The engine's move to another place of a decode keeps the invariant where the new place is well-formed. -/
theorem inv_withPhase {s : State} (hs : s.Inv) {f : InFlight} (hf : s.inflight = some f) {p : Phase} {j : Job}
    (hj : p.job = some j) (hw : f.word = if j.extraction.isSome then 0x3 else 0x2) (hok : j.ok s.cfg)
    (hp : p.placeOk s.cfg = true) : (s.withPhase f p).Inv := by
  obtain ⟨hcfg, hbuf, hstat, hdec, hres, hengine⟩ := hs
  obtain ⟨hdone, hsnap, -⟩ := hengine f hf
  refine ⟨hcfg, hbuf, hstat, hdec, hres, ?_⟩
  rintro g hg
  cases hg
  refine ⟨hdone, hsnap, by simp [InFlight.wordOk, hj, hw], ?_, ?_, hp⟩
  · cases p with
    | accepted => cases hj
    | _ => rfl
  · intro j' hj'
    rw [show p.job = some j' from hj'] at hj
    cases hj
    exact hok

/-- The same from one place of a decode to the next. -/
theorem inv_advance {s : State} (hs : s.Inv) {f : InFlight} (hf : s.inflight = some f) {p : Phase} {j j' : Job}
    (hj : f.phase.job = some j) (hj' : p.job = some j') (hex : j'.extraction = j.extraction) (hok : j'.ok s.cfg)
    (hp : p.placeOk s.cfg = true) : (s.withPhase f p).Inv :=
  inv_withPhase hs hf hj' (hex ▸ (decode_of_inv hs hf hj).1) hok hp

/-- The commit of a decode keeps the invariant where its result set is well-formed. -/
theorem inv_commitDecode {s : State} (hs : s.Inv) (ex : Option Extraction) {d : DecodeSet} (hd : d.committedOk s.cfg)
    (hr : d.reservedOk) : (commitDecode ex d s).Inv := by
  obtain ⟨hcfg, hbuf, hstat, -, ⟨hlk1, hlk2, -⟩, -⟩ := hs
  cases ex with
  | none => exact ⟨hcfg, hbuf, hstat, hd, ⟨hlk1, hlk2, hr⟩, engineOk_of_idle rfl⟩
  | some e => exact ⟨hcfg, hbuf, hstat, hd, ⟨hlk1, hlk2, hr⟩, engineOk_of_idle rfl⟩

/-- ERR and ECODE, and the registers with reserved bits, after reset. -/
theorem statusOk_reset : Status.reset.err = false ↔ Status.reset.ecode = .none := by decide

theorem reservedOk_reset : bitField 0 10 6 = 0 ∧ bitField 0 21 3 = 0 ∧ DecodeSet.default.reservedOk :=
  ⟨bitField_zero 10 6, bitField_zero 21 3, reservedOk_default⟩

/-- Every register at its reset value: the invariant needs the buffers and the configuration alone. -/
theorem inv_softReset {s : State} (hcfg : s.cfg.legal = true) (hbuf : s.buffersOk) : (softReset s).Inv :=
  ⟨hcfg, hbuf, statusOk_reset, committedOk_default s.cfg, reservedOk_reset, engineOk_of_idle rfl⟩

theorem inv_hardReset {s : State} (hcfg : s.cfg.legal = true) : (hardReset s).Inv :=
  ⟨hcfg, ⟨.nil, by simp, .nil, by simp⟩, statusOk_reset, committedOk_default s.cfg, reservedOk_reset,
    engineOk_of_idle rfl⟩

/-- The acknowledgement clears ERR and ECODE together (60_exceptions.md R228). -/
theorem statusOk_acknowledge {s : State} (h : s.statusOk) (v : Word) : (acknowledge v s).statusOk := by
  rw [State.statusOk, acknowledge_err, acknowledge_ecode]
  cases v.getLsbD 2 with
  | true => simp
  | false => simpa using h

/-- A buffer write keeps the buffers canonical and inside their sizes (10_state.md R45, R46). -/
theorem buffersOk_setBufWord {s : State} (h : s.buffersOk) (b : Buffer) (k : Nat) (v : Word) :
    (s.setBufWord b k v).buffersOk := by
  obtain ⟨hrx, hrxlt, hcb, hcblt⟩ := h
  cases b with
  | rxbuf => exact ⟨setWord_wf _ k v hrx, setWord_bound _ k v hrxlt, hcb, hcblt⟩
  | cmdbuf => exact ⟨hrx, hrxlt, setWord_wf _ k v hcb, setWord_bound _ k v hcblt⟩

/-- An accepted command's operands are in range (40_commands.md R100). -/
theorem rangeOk_of_not_rangeFail {s : State} {w : Word} {i : Instr} (hw : decodeCommand w = .ok i)
    (hr : rangeFail i s = false) :
    InFlight.rangeOk s.cfg { word := w, snap := s.snapshot, phase := .accepted } = true := by
  simp only [InFlight.rangeOk, hw]
  cases i with
  | extract => exact decide_eq_true (Nat.le_of_not_lt (of_decide_eq_false hr))
  | extractDecode => exact decide_eq_true (Nat.le_of_not_lt (of_decide_eq_false hr))
  | decode => exact decide_eq_true (Nat.le_of_not_lt (of_decide_eq_false hr))
  | csum16 src => exact decide_eq_true (Nat.le_of_not_lt (of_decide_eq_false hr))
  | _ => rfl

/-- The acceptance of a legal command other than SRESET keeps the invariant. -/
theorem inv_accept {s : State} (hs : s.Inv) {w : Word} {i : Instr} (hw : decodeCommand w = .ok i) (hi : i ≠ .sreset)
    (hr : rangeFail i s = false) : (accept w s).Inv := by
  obtain ⟨hcfg, hbuf, hstat, hdec, hres, -⟩ := hs
  refine ⟨hcfg, hbuf, hstat, hdec, hres, ?_⟩
  rintro f hf
  cases hf
  have hne : w ≠ 0xF := by
    rintro rfl
    exact hi (Except.ok.inj hw).symm
  exact ⟨rfl, rfl, by simpa [InFlight.wordOk, Phase.job, hw, Except.toOption] using hne, rangeOk_of_not_rangeFail hw hr,
    by simp [Phase.job], rfl⟩

/-! ### The moves -/

/-- The phase after a fixed field keeps the invariant: the next field, or the extra-field run. -/
theorem inv_phaseAfterFixed {s : State} (hs : s.Inv) {f : InFlight} (hf : s.inflight = some f) {j j' : Job}
    (hj : f.phase.job = some j) (hex : j'.extraction = j.extraction) (hok : j'.ok s.cfg) (k : FixedField)
    (hlo : payloadStart + 2 ≤ j'.off) (hhi : j'.off ≤ max 268 j'.eff) (hx : j'.x = 0) :
    (s.withPhase f (phaseAfterFixed k j')).Inv := by
  rcases phaseAfterFixed_cases k j' with ⟨k', -, hp⟩ | ⟨-, hp⟩
  · rw [hp]
    exact inv_advance hs hf hj rfl hex hok (decide_eq_true ⟨hlo, hhi, hx⟩)
  · rw [hp]
    exact inv_advance hs hf hj rfl hex hok (decide_eq_true hlo)

/-- A pass of the extra-field run keeps the invariant. -/
theorem inv_extraPhase {s : State} (hs : s.Inv) {f : InFlight} (hf : s.inflight = some f) {j : Job}
    (hp : f.phase = .extra j) (hgo : extraGoesOn s.cfg j = true) (t : Byte) (value : List Byte) :
    (s.withPhase f (extraPhase s.cfg t value j)).Inv := by
  have hj : f.phase.job = some j := by rw [hp]; rfl
  have hok := (decode_of_inv hs hf hj).2
  have hplace := placeOk_of_inv hs hf
  simp only [hp, Phase.placeOk, decide_eq_true_eq] at hplace
  simp only [extraGoesOn, Bool.and_eq_true, decide_eq_true_eq] at hgo
  obtain ⟨hoff, hroom⟩ := hgo
  have hwidth : ∀ {k row}, fctLookup s.cfg t = some (k, row) → row.width ≤ 24 := fun h =>
    (legal_width hs.1 (List.mem_of_getElem? (fctLookup_some h).1)).2
  rcases extraPhase_cases s.cfg t value j with ⟨-, he⟩ | ⟨k, row, hrow, -, he⟩ | ⟨k, row, -, -, -, he⟩ |
    ⟨k, row, hrow, hnew, -, he⟩ <;> rw [he]
  case inl =>
    exact inv_advance hs hf hj rfl rfl (jobOk_of_off_flags hok (by omega) rfl rfl)
      (decide_eq_true (by simp only [skipUnknown]; omega))
  case inr.inl =>
    have := hwidth hrow
    exact inv_advance hs hf hj rfl rfl (jobOk_of_off_flags hok (by omega) rfl rfl)
      (decide_eq_true (by simp only [skipDuplicate]; omega))
  case inr.inr.inl =>
    exact inv_advance hs hf hj rfl rfl (jobOk_of_off_flags hok (by omega) rfl rfl)
      (decide_eq_true ⟨hplace, hoff, hroom⟩)
  case inr.inr.inr =>
    exact inv_advance hs hf hj rfl rfl (jobOk_recordField hok (hwidth hrow) hoff hroom hnew _)
      (decide_eq_true (by simp only [recordField]; omega))

/-- Every move of the engine keeps the invariant. -/
theorem inv_engineMove {s t : State} (hs : s.Inv) (h : EngineMove s t) : t.Inv := by
  obtain ⟨hcfg, hbuf, hstat, hdec, hres, -⟩ := id hs
  cases h with
  | idle => exact hs
  | sreset f hf hp hw => exact absurd hw (not_sreset_of_inv hs hf hp)
  | nop => exact ⟨hcfg, hbuf, hstat, hdec, hres, engineOk_of_idle rfl⟩
  | extract => exact ⟨hcfg, hbuf, hstat, hdec, hres, engineOk_of_idle rfl⟩
  | csum16 => exact ⟨hcfg, hbuf, hstat, hdec, hres, engineOk_of_idle rfl⟩
  | lookup _ _ _ tag =>
    obtain ⟨hlk1, hlk2⟩ := lookupWord_reserved s.cfg tag
    obtain ⟨-, -, hdecres⟩ := hres
    exact ⟨hcfg, hbuf, hstat, hdec, ⟨hlk1, hlk2, hdecres⟩, engineOk_of_idle rfl⟩
  | frameFails f hf hp hb hc =>
    exact inv_commitDecode hs _ (committedOk_of_frameChecks_error hc) (reservedOk_of_frameChecks_error hc)
  | framePasses f hf hp hb hc =>
    obtain ⟨hwin, hword⟩ := window_of_beginsDecode hs hf hp hb
    obtain ⟨hmin, hlen, -, -, -, rfl⟩ := frameChecks_ok hc
    exact inv_withPhase hs hf rfl hword (jobOk_startJob hmin (by omega) _ _ _) rfl
  | cellBlock f j hf hp tag bc entries =>
    have hj : f.phase.job = some j := by rw [hp]; rfl
    have hplace := placeOk_of_inv hs hf
    simp only [hp, Phase.placeOk, decide_eq_true_eq] at hplace
    obtain ⟨-, -, hx⟩ := hplace
    refine inv_advance hs hf hj rfl rfl (jobOk_cellStage hcfg (decode_of_inv hs hf hj).2 tag bc entries) ?_
    have := bc.isLt
    refine decide_eq_true ⟨?_, ?_, hx⟩ <;> simp only [cellStage, payloadStart] <;> omega
  | fixedMatches f k j hf hp hin r hn hh =>
    have hj : f.phase.job = some j := by rw [hp]; rfl
    have hplace := placeOk_of_inv hs hf
    simp only [hp, Phase.placeOk, decide_eq_true_eq] at hplace
    obtain ⟨hlo, -, hx⟩ := hplace
    have hok : (fixedStage k r j).ok s.cfg := jobOk_fixedStage (decode_of_inv hs hf hj).2 hin hn hh
    refine inv_phaseAfterFixed hs hf hj (by rfl) hok k ?_ ?_ hx <;> simp only [fixedStage] <;> omega
  | fixedPassed f k j hf hp =>
    have hj : f.phase.job = some j := by rw [hp]; rfl
    have hplace := placeOk_of_inv hs hf
    simp only [hp, Phase.placeOk, decide_eq_true_eq] at hplace
    obtain ⟨hlo, hhi, hx⟩ := hplace
    exact inv_phaseAfterFixed hs hf hj rfl (decode_of_inv hs hf hj).2 k hlo hhi hx
  | extraField f j hf hp hgo tag value => exact inv_extraPhase hs hf hp hgo tag value
  | completes f j hf hp =>
    have hj : f.phase.job = some j := by rcases hp with hp | hp <;> rw [hp] <;> rfl
    have hok := (decode_of_inv hs hf hj).2
    exact inv_commitDecode hs _ (committedOk_completed hcfg hok) (reservedOk_completed hok)

/-- Every host write keeps the invariant. -/
theorem inv_writeMove {s t : State} {off : Nat} {v : Word} (hs : s.Inv) (h : WriteMove s off v t) : t.Inv := by
  obtain ⟨hcfg, hbuf, hstat, hdec, hres, hengine⟩ := id hs
  cases h with
  | ignored => exact hs
  | refused code hc cmd hb => exact ⟨hcfg, hbuf, by simp [State.statusOk, hc], hdec, hres, hengine⟩
  | acknowledged =>
    exact ⟨hcfg, hbuf, statusOk_acknowledge hstat v, hdec, hres, fun f hf => by
      obtain ⟨hdone, hflight⟩ := hengine f hf
      exact ⟨by simp [acknowledge_done, hdone], hflight⟩⟩
  | ctrl _ hb => exact ⟨hcfg, hbuf, hstat, hdec, hres, engineOk_of_idle ((not_busy_iff s).mp hb)⟩
  | operand hb => exact ⟨hcfg, hbuf, hstat, hdec, hres, engineOk_of_idle ((not_busy_iff s).mp hb)⟩
  | buffer hb b k =>
    have hidle : (s.setBufWord b k v).inflight = none :=
      (setBufWord_inflight s b k v).trans ((not_busy_iff s).mp hb)
    cases b with
    | rxbuf => exact ⟨hcfg, buffersOk_setBufWord hbuf .rxbuf k v, hstat, hdec, hres, engineOk_of_idle hidle⟩
    | cmdbuf => exact ⟨hcfg, buffersOk_setBufWord hbuf .cmdbuf k v, hstat, hdec, hres, engineOk_of_idle hidle⟩
  | sreset => exact inv_softReset hcfg hbuf
  | accepted _ hb i hw hi hr =>
    have hcmd : State.Inv { s with cmd := v } := hs
    exact inv_accept hcmd hw hi hr

/-- Settles O52: by the inversion of a step, one lemma for each kind of move. -/
theorem stepKeepsInvariant : Obligations.StepKeepsInvariant := by
  intro s t hs hstep
  cases stepMove_of_step hstep with
  | engine inputs h => exact inv_engineMove (inv_environment hs inputs s.reply) h
  | reset rest => exact inv_hardReset hs.1
  | answered inputs reply => exact inv_environment hs inputs reply
  | write off v rest _ h => exact inv_writeMove (inv_environment hs rest .written) h

end Sys2Proof.Proofs
end

section
/-! SUPPORT. What a host reads and stores at the named registers. -/

namespace Sys2Proof.Proofs

open Sys2Proof.Machine Sys2Proof.Laws

/-! ### Named registers -/

/-- A read at a named register's offset reads that register. -/
theorem readWord_reg (s : State) (r : Reg) : s.readWord r.offset = s.readReg r := by
  rw [State.readWord, locate_reg, State.readLoc]

/-- A write at a named register's offset writes that register. -/
theorem writeWord_reg (s : State) (r : Reg) (v : Word) : writeWord r.offset v s = writeReg r v s := by
  rw [writeWord, locate_reg, writeLoc]

/-- While IDLE no write is refused. -/
theorem refuseIfBusy_idle {s : State} (h : s.busy = false) (t : State) : refuseIfBusy s t = t := by
  simp [refuseIfBusy, h]

/-- Settles O16: each of the six registers by its offset, with no refusal while IDLE. -/
theorem operandWritesStore : Obligations.OperandWritesStore := by
  intro s v hb
  have hstore : ∀ (r : Reg) (t : State), writeReg r v s = .next (refuseIfBusy s t) →
      writeWord r.offset v s = .next t := fun r t h => by
    rw [writeWord_reg, h, refuseIfBusy_idle hb]
  exact ⟨hstore .ctrl _ rfl, hstore .rxLen _ rfl, hstore .winBase _ rfl, hstore .winLen _ rfl,
    hstore .csStart _ rfl, hstore .csCount _ rfl⟩

/-- Settles O17: a STATUS write is the acknowledgement, field by field. -/
theorem acknowledgeClears : Obligations.AcknowledgeClears := by
  intro s v
  refine ⟨acknowledge v s, writeWord_reg s .status v, rfl, rfl, acknowledge_done v s, acknowledge_err v s, ?_, ?_⟩
  · intro hv; rw [acknowledge_ecode, if_pos hv]
  · intro hv; rw [acknowledge_ecode, hv]; rfl

/-! ### STATUS -/

theorem ecode_code_inj {a b : Ecode} : a = b ↔ a.code = b.code := by
  cases a <;> cases b <;> decide

theorem resultCode_code_inj {a b : ResultCode} : a = b ↔ a.code = b.code := by
  cases a <;> cases b <;> decide

/-- STATUS [7:4] is ECODE's code (10_state.md R24). -/
theorem statusWord_ecode (s : State) : s.statusWord.extractLsb' 4 4 = s.status.ecode.code := by
  apply BitVec.eq_of_getLsbD_eq
  intro i hi
  simp only [State.statusWord, BitVec.getLsbD_extractLsb', BitVec.getLsbD_append]
  grind

/-- STATUS [11:8] is RESULT's code (10_state.md R24). -/
theorem statusWord_result (s : State) : s.statusWord.extractLsb' 8 4 = s.dec.result.code := by
  apply BitVec.eq_of_getLsbD_eq
  intro i hi
  simp only [State.statusWord, BitVec.getLsbD_extractLsb', BitVec.getLsbD_append]
  grind

/-- STATUS [31:23] reads 0 (10_state.md R24). -/
theorem statusWord_reserved (s : State) : s.statusWord.extractLsb' 23 9 = 0 := by
  apply BitVec.eq_of_getLsbD_eq
  intro i hi
  simp only [State.statusWord, BitVec.getLsbD_extractLsb', BitVec.getLsbD_append]
  grind

/-- STATUS [3:0]: BUSY, DONE, ERR and a reserved bit (10_state.md R24). -/
theorem statusWord_control (s : State) :
    s.statusWord.getLsbD 0 = s.inflight.isSome ∧ s.statusWord.getLsbD 1 = s.status.done ∧
      s.statusWord.getLsbD 2 = s.status.err ∧ s.statusWord.getLsbD 3 = false := by
  simp only [State.statusWord, BitVec.getLsbD_append]
  refine ⟨?_, ?_, ?_, ?_⟩ <;> simp [bit, State.busy]

/-- STATUS [20:12]: the decode's flags in their order (10_state.md R24). -/
theorem statusWord_flags (s : State) {i : Nat} (hi : i < 9) :
    s.statusWord.getLsbD (12 + i) = s.dec.flags.bits.getLsbD i := by
  simp only [State.statusWord, BitVec.getLsbD_append]
  grind

theorem flags_bits (f : Flags) :
    f.bits.getLsbD 0 = f.csumBad ∧ f.bits.getLsbD 1 = f.celltagBad ∧ f.bits.getLsbD 2 = f.cellCap ∧
      f.bits.getLsbD 3 = f.cellShort ∧ f.bits.getLsbD 4 = f.xcap ∧ f.bits.getLsbD 5 = f.xovr ∧
      f.bits.getLsbD 6 = f.xunk ∧ f.bits.getLsbD 7 = f.xdup ∧ f.bits.getLsbD 8 = f.txtTrunc := by
  simp only [Flags.bits, BitVec.getLsbD_append]
  simp [bit]

/-- STATUS [22:21]: ECHO and VALID (10_state.md R24). -/
theorem statusWord_echo_valid (s : State) :
    s.statusWord.getLsbD 21 = s.status.echo ∧ s.statusWord.getLsbD 22 = s.dec.valid := by
  simp only [State.statusWord, BitVec.getLsbD_append]
  simp [bit]

/-- Settles O18: the fields of the STATUS word, the codes by their injectivity. -/
theorem statusBits : Obligations.StatusBits := by
  intro s
  have hw : s.readWord 0x00C = s.statusWord := readWord_reg s .status
  obtain ⟨hbusy, hdone, herr, hzero⟩ := statusWord_control s
  obtain ⟨h0, h1, h2, h3, h4, h5, h6, h7, h8⟩ := flags_bits s.dec.flags
  obtain ⟨hecho, hvalid⟩ := statusWord_echo_valid s
  have hflag : ∀ i, i < 9 → s.statusWord.getLsbD (12 + i) = s.dec.flags.bits.getLsbD i :=
    fun i => statusWord_flags s
  simp only [hw, statusWord_ecode, statusWord_result, statusWord_reserved]
  exact ⟨hbusy, hdone, herr, hzero,
    ecode_code_inj, ecode_code_inj, ecode_code_inj, ecode_code_inj, ecode_code_inj,
    resultCode_code_inj, resultCode_code_inj, resultCode_code_inj, resultCode_code_inj, resultCode_code_inj,
    resultCode_code_inj, resultCode_code_inj, resultCode_code_inj, resultCode_code_inj,
    (hflag 0 (by decide)).trans h0, (hflag 1 (by decide)).trans h1, (hflag 2 (by decide)).trans h2,
    (hflag 3 (by decide)).trans h3, (hflag 4 (by decide)).trans h4, (hflag 5 (by decide)).trans h5,
    (hflag 6 (by decide)).trans h6, (hflag 7 (by decide)).trans h7, (hflag 8 (by decide)).trans h8,
    hecho, hvalid, trivial⟩

end Sys2Proof.Proofs
end

section
/-! SUPPORT. What a host reads of the registers, the arrays and the configuration, as numbers. -/

namespace Sys2Proof.Proofs

open Sys2Proof.Machine Sys2Proof.Laws

/-- Two bit strings put together, as a number. -/
theorem toNat_append_eq_add {m n : Nat} (x : BitVec m) (y : BitVec n) :
    (x ++ y).toNat = x.toNat * 2 ^ n + y.toNat := by
  rw [BitVec.toNat_append, Nat.shiftLeft_eq, Nat.mul_comm, ← Nat.two_pow_add_eq_or_of_lt y.isLt]

/-- A register narrower than 32 bits reads with 0 above it (20_memory.md R63). -/
theorem toNat_readWord_narrow {s : State} {r : Reg} {n : Nat} (hn : n ≤ 32) {v : BitVec n}
    (h : s.readReg r = v.setWidth 32) : (s.readWord r.offset).toNat = v.toNat := by
  rw [readWord_reg, h, BitVec.toNat_setWidth_of_le hn]

/-- CTRL's three bits as a number (10_state.md R22). -/
theorem ctrl_toWord_toNat (c : Ctrl) :
    c.toWord.toNat = c.irqEn.toNat + 2 * c.csumStrict.toNat + 4 * c.endCheck.toNat := by
  rcases c with ⟨_ | _, _ | _, _ | _⟩ <;> rfl

/-- Settles O19: each register by its offset, the reserved bits by the invariant. -/
theorem registerReads : Obligations.RegisterReads := by
  intro s
  have hreg := readWord_reg s
  have hctrl := (congrArg BitVec.toNat (hreg .ctrl)).trans (ctrl_toWord_toNat s.ctrl)
  have hnarrow : ∀ (r : Reg) {n : Nat} (v : BitVec n), n ≤ 32 → s.readReg r = v.setWidth 32 →
      (s.readWord r.offset).toNat = v.toNat := fun _ _ _ hn h => toNat_readWord_narrow hn h
  refine ⟨hreg .id, hctrl, hreg .cmd, hreg .rxLen, hreg .winBase, hreg .winLen, hreg .csStart, hreg .csCount,
    hnarrow .csum _ (by decide) rfl, hreg .csacc, hreg .lkres, hreg .frLen, hreg .frCsum, hreg .frPend, hreg .frXoff,
    hreg .frEoff, hnarrow .recNcells _ (by decide) rfl, hnarrow .recVmin _ (by decide) rfl,
    hnarrow .recVmax _ (by decide) rfl, hnarrow .recVdelta _ (by decide) rfl, hreg .recTmos, hreg .recTp1, hreg .recTp2,
    hnarrow .recVpack _ (by decide) rfl, hreg .recIpack, hnarrow .recSoc _ (by decide) rfl,
    hnarrow .recFixvalid _ (by decide) rfl, hnarrow .recNextra _ (by decide) rfl, hreg .recCellhdr, ?_⟩
  rintro ⟨-, -, -, -, ⟨hlk10, hlk21, hfr, hhdr⟩, -⟩
  have hlkres : s.readWord 0x02C = s.lkres := hreg .lkres
  have hfrLen : s.readWord 0x030 = s.dec.frLen := hreg .frLen
  have hcellhdr : s.readWord 0x0B0 = s.dec.record.cellhdr := hreg .recCellhdr
  rw [hlkres, hfrLen, hcellhdr]
  exact ⟨hlk10, hlk21, hfr, hhdr⟩

/-! ### CELL and XE -/

theorem readWord_cell (s : State) {i : Nat} (hi : i < 256) : s.readWord (0x400 + 4 * i) = s.readCell i := by
  rw [State.readWord, locate_cell hi, State.readLoc]

theorem readWord_xe (s : State) {j w : Nat} (hj : j < 32) (hw : w < 16) :
    s.readWord (0x800 + 64 * j + 4 * w) = s.readXe j w := by
  rw [State.readWord, locate_xe hj hw, State.readLoc]

theorem readCell_some {s : State} {i : Nat} {e : CellEntry} (hi : i < s.cfg.maxCells)
    (he : s.dec.cells[i]? = some e) : s.readCell i = e.word := by
  simp [State.readCell, hi, he]

theorem readCell_beyond {s : State} {i : Nat} (h : s.cfg.maxCells ≤ i ∨ s.dec.cells.length ≤ i) :
    s.readCell i = 0 := by
  unfold State.readCell
  rcases h with h | h
  · rw [if_neg (Nat.not_lt.mpr h)]
  · rw [List.getElem?_eq_none h, ite_self]

theorem readXe_some {s : State} {j : Nat} {e : XEntry} (hj : j < s.cfg.maxExtra) (he : s.dec.xe[j]? = some e)
    (w : Nat) : s.readXe j w = e.word w := by
  simp [State.readXe, hj, he]

theorem readXe_beyond {s : State} {j : Nat} (h : s.cfg.maxExtra ≤ j ∨ s.dec.xe.length ≤ j) (w : Nat) :
    s.readXe j w = 0 := by
  unfold State.readXe
  rcases h with h | h
  · rw [if_neg (Nat.not_lt.mpr h)]
  · rw [List.getElem?_eq_none h, ite_self]

/-- A word of CELL as a number (10_state.md R43). -/
theorem cellEntry_word_toNat (e : CellEntry) : e.word.toNat = e.mv.toNat + 65536 * e.info.toNat := by
  simp only [CellEntry.word, toNat_append_eq_add, BitVec.toNat_ofNat]
  omega

/-- KIND as a number (10_state.md R44). -/
theorem kindBit_toNat (k : Kind) : (kindBit k).toNat = if k = .text then 1 else 0 := by
  cases k <;> rfl

/-- The header of an XE entry as a number (10_state.md R44). -/
theorem xentry_header_toNat {e : XEntry} (h : e.text.length < 256) :
    (e.word 0).toNat =
      e.tag.toNat + (if e.kind = .text then 256 else 0) + 65536 * e.width.toNat + 16777216 * e.text.length := by
  simp only [XEntry.word, if_true, toNat_append_eq_add, kindBit_toNat, BitVec.toNat_ofNat]
  split <;> omega

/-- Settles O20: the two windows by their addresses, an entry by its word. -/
theorem arrayReads : Obligations.ArrayReads := by
  intro s i _
  refine ⟨fun hi => ⟨fun e hcap he => ?_, fun h => ?_⟩, fun hi => ⟨fun e hcap he htext => ⟨?_, ?_⟩, fun h w hw => ?_⟩⟩
  · rw [readWord_cell s hi, readCell_some hcap he, cellEntry_word_toNat]
  · rw [readWord_cell s hi, readCell_beyond h]
  · rw [show 0x800 + 64 * i = 0x800 + 64 * i + 4 * 0 from rfl, readWord_xe s hi (by decide), readXe_some hcap he,
      xentry_header_toNat htext]
  · rw [show 0x800 + 64 * i + 4 = 0x800 + 64 * i + 4 * 1 from rfl, readWord_xe s hi (by decide), readXe_some hcap he]
    rfl
  · rw [readWord_xe s hi hw, readXe_beyond h]

/-! ### The configuration -/

theorem readWord_fct (s : State) {k : Nat} (hk : k < 256) : s.readWord (0x1000 + 4 * k) = s.readFct k := by
  rw [State.readWord, locate_fct hk, State.readLoc]

/-- The FCT is read-only (10_state.md R47). -/
theorem writeWord_fct (s : State) {k : Nat} (hk : k < 256) (v : Word) : writeWord (0x1000 + 4 * k) v s = .next s := by
  rw [writeWord, locate_fct hk, writeLoc]

/-- The read-back word of an FCT row as a number (30_encoding.md R90). -/
theorem fctRow_word_toNat {r : FctRow} (h : r.width ≤ 24) :
    (FctRow.word r).toNat = r.code.toNat + 256 * r.width + (if r.kind = .text then 65536 else 0) + 2147483648 := by
  simp only [FctRow.word, toNat_append_eq_add, kindBit_toNat, BitVec.toNat_ofNat]
  split <;> omega

/-- CFG0 to CFG4 as numbers (10_state.md R38). -/
theorem configRegisters_toNat {s : State} (hc : s.cfg.legal = true) :
    (s.readReg .cfg0).toNat = s.cfg.maxCells + 256 * s.cfg.maxExtra + 65536 * s.cfg.textCap ∧
      (s.readReg .cfg1).toNat = s.cfg.rxbufSize ∧
      (s.readReg .cfg2).toNat =
        s.cfg.start0.toNat + 256 * s.cfg.start1.toNat + 65536 * s.cfg.endMarker.toNat +
          16777216 * s.cfg.cellTag.toNat ∧
      (s.readReg .cfg3).toNat =
        s.cfg.tagTmos.toNat + 256 * s.cfg.tagTp1.toNat + 65536 * s.cfg.tagTp2.toNat +
          16777216 * s.cfg.tagVpack.toNat ∧
      (s.readReg .cfg4).toNat = s.cfg.tagIpack.toNat + 256 * s.cfg.tagSoc.toNat + 65536 * s.cfg.fct.length := by
  have hcap := legal_capacities hc
  have hsize := legal_sizes hc
  simp only [State.readReg, toNat_append_eq_add, BitVec.toNat_ofNat]
  refine ⟨?_, ?_, ?_, ?_, ?_⟩ <;> omega

end Sys2Proof.Proofs
end

section
/-! SUPPORT. What the engine, a host write and a step leave unchanged, and the statements on steps. -/

namespace Sys2Proof.Proofs

open Sys2Proof.Machine Sys2Proof.Laws

/-! ### Frames -/

/-- The engine writes no buffer and no parameter (10_state.md R45 to R47). -/
theorem engineMove_frame {s t : State} (h : EngineMove s t) :
    t.cfg = s.cfg ∧ t.rxbuf = s.rxbuf ∧ t.cmdbuf = s.cmdbuf ∧ t.epoch = s.epoch := by
  cases h with
  | frameFails => simp only [commitDecode_cfg, commitDecode_rxbuf, commitDecode_cmdbuf, commitDecode_epoch, and_self]
  | completes => simp only [commitDecode_cfg, commitDecode_rxbuf, commitDecode_cmdbuf, commitDecode_epoch, and_self]
  | _ => exact ⟨rfl, rfl, rfl, rfl⟩

/-- No host write changes a parameter. -/
theorem writeMove_cfg {s t : State} {off : Nat} {v : Word} (h : WriteMove s off v t) : t.cfg = s.cfg := by
  cases h with
  | buffer _ b k => exact setBufWord_cfg s b k v
  | _ => rfl

/-- No step changes a parameter (10_state.md R38). -/
theorem step_cfg {s t : State} (h : step s = .next t) : t.cfg = s.cfg := by
  cases stepMove_of_step h with
  | engine _ he => exact (engineMove_frame he).1
  | reset => rfl
  | answered => rfl
  | write _ _ _ _ hw => exact (writeMove_cfg hw :)

/-- Settles O57: the frame of an engine move. -/
theorem engineNeverWritesBuffers : Obligations.EngineNeverWritesBuffers :=
  fun _ _ h => (engineMove_frame (engineMove_of_engineStep h)).2

/-- Settles O21: the registers and rows as numbers, RO by their addresses, the frame of a step. -/
theorem configurationReads : Obligations.ConfigurationReads := by
  intro s hc
  have hcfg := configRegisters_toNat hc
  simp only [← readWord_reg] at hcfg
  refine ⟨hcfg, fun k hk => ⟨fun r hr => ?_, fun hlen => ?_, writeWord_fct s hk⟩, fun t => step_cfg⟩
  · have hwidth := (legal_width hc (List.mem_of_getElem? hr)).2
    rw [readWord_fct s hk, State.readFct, hr]
    exact fctRow_word_toNat hwidth
  · rw [readWord_fct s hk, State.readFct, List.getElem?_eq_none hlen]

/-- A host write leaves the command in flight alone, but for SRESET and an issue while IDLE (10_state.md R41). -/
theorem writeMove_inflight_of_busy {s t : State} {off : Nat} {v : Word} (h : WriteMove s off v t)
    (hb : s.busy = true) : t.inflight = s.inflight := by
  cases h with
  | sreset _ hidle => simp [hb] at hidle
  | accepted _ hidle => simp [hb] at hidle
  | buffer hidle => simp [hb] at hidle
  | _ => rfl

/-! ### OFF -/

/-- The move past a fixed field keeps OFF, PE and E. -/
theorem phaseAfterFixed_off {k : FixedField} {j j' : Job} (h : (phaseAfterFixed k j).job = some j') :
    j'.off = j.off ∧ j'.pe = j.pe ∧ j'.eff = j.eff := by
  rcases phaseAfterFixed_cases k j with ⟨k', -, he⟩ | ⟨-, he⟩ <;> rw [he] at h <;> cases h <;> exact ⟨rfl, rfl, rfl⟩

/-- A pass of the extra-field run moves OFF forward or leaves it (44_tagged_field.md R193 to R197). -/
theorem extraPhase_off {c : Config} {t : Byte} {value : List Byte} {j j' : Job}
    (h : (extraPhase c t value j).job = some j') : j.off ≤ j'.off ∧ j'.pe = j.pe ∧ j'.eff = j.eff := by
  rcases extraPhase_cases c t value j with ⟨-, he⟩ | ⟨k, row, -, -, he⟩ | ⟨k, row, -, -, -, he⟩ |
    ⟨k, row, -, -, -, he⟩ <;> rw [he] at h <;> cases h
  · exact ⟨Nat.le_add_right j.off 1, rfl, rfl⟩
  · exact ⟨by simp only [skipDuplicate]; omega, rfl, rfl⟩
  · exact ⟨le_rfl, rfl, rfl⟩
  · exact ⟨by simp only [recordField]; omega, rfl, rfl⟩

/-- What one engine move does to OFF, E and PE between two places of a decode: OFF moves forward only. -/
theorem engineMove_off {s t : State} (hs : s.Inv) (h : EngineMove s t) {f g : InFlight} {j j' : Job}
    (hf : s.inflight = some f) (hj : f.phase.job = some j) (hg : t.inflight = some g) (hj' : g.phase.job = some j') :
    j.off ≤ j'.off ∧ j'.pe = j.pe ∧ j'.eff = j.eff := by
  have hplace := placeOk_of_inv hs hf
  have hadvance : ∀ {f' : InFlight} {p : Phase}, (s.withPhase f' p).inflight = some g → p.job = some j' := by
    rintro f' p hg; cases hg; exact hj'
  cases h with
  | idle hi => rw [hi] at hf; cases hf
  | sreset => cases hg
  | nop => cases hg
  | extract => cases hg
  | csum16 => cases hg
  | lookup => cases hg
  | frameFails => rw [commitDecode_inflight] at hg; cases hg
  | completes => rw [commitDecode_inflight] at hg; cases hg
  | framePasses f' hf' hp =>
    rw [hf] at hf'; cases hf'
    rw [hp] at hj; cases hj
  | cellBlock f' i hf' hp tag bc =>
    rw [hf] at hf'; cases hf'
    rw [hp] at hj hplace; cases hj
    cases hadvance hg
    simp only [Phase.placeOk, decide_eq_true_eq] at hplace
    refine ⟨?_, rfl, rfl⟩
    simp only [cellStage]
    omega
  | fixedMatches f' k i hf' hp _ r =>
    rw [hf] at hf'; cases hf'
    rw [hp] at hj; cases hj
    obtain ⟨hoff, hpe, heff⟩ := phaseAfterFixed_off (hadvance hg)
    refine ⟨?_, hpe, heff⟩
    simp only [hoff, fixedStage]
    omega
  | fixedPassed f' k i hf' hp =>
    rw [hf] at hf'; cases hf'
    rw [hp] at hj; cases hj
    obtain ⟨hoff, hpe, heff⟩ := phaseAfterFixed_off (hadvance hg)
    exact ⟨hoff.ge, hpe, heff⟩
  | extraField f' i hf' hp _ tag value =>
    rw [hf] at hf'; cases hf'
    rw [hp] at hj; cases hj
    exact extraPhase_off (hadvance hg)

/-- Settles O54: OFF by the engine's moves, its bounds by the invariant after the step. -/
theorem readOffsetNeverDecreases : Obligations.ReadOffsetNeverDecreases := by
  intro s t f g j j' hs hstep hf hj hg hj'
  have hmoves : j.off ≤ j'.off ∧ j'.pe = j.pe ∧ j'.eff = j.eff := by
    have hsame : t.inflight = s.inflight → j.off ≤ j'.off ∧ j'.pe = j.pe ∧ j'.eff = j.eff := fun h => by
      rw [hg, hf] at h; cases h
      rw [hj] at hj'; cases hj'
      exact ⟨le_rfl, rfl, rfl⟩
    cases stepMove_of_step hstep with
    | engine inputs h => exact engineMove_off (inv_environment hs inputs s.reply) h hf hj hg hj'
    | reset => cases hg
    | answered => exact hsame rfl
    | write _ _ _ _ h =>
      have hbusy : s.busy = true := (busy_iff s).mpr ⟨f, hf⟩
      exact hsame (writeMove_inflight_of_busy h hbusy :)
  have hok := (decode_of_inv (stepKeepsInvariant s t hs hstep) hg hj').2
  obtain ⟨htot, heff, -, hpe, -, hoff, -⟩ := hok
  have hlenf := j'.lenf.isLt
  obtain ⟨hle, hpes, heffs⟩ := hmoves
  exact ⟨hle, hoff, by omega, hpes, heffs⟩

end Sys2Proof.Proofs
end

section
/-! SUPPORT. The interrupt output over a step. -/

namespace Sys2Proof.Proofs

open Sys2Proof.Machine Sys2Proof.Laws

/-- A move of the engine changes nothing but the engine, or commits, or is an SRESET taken as in flight. -/
theorem engineMove_outcome {s t : State} (h : EngineMove s t) :
    t = { s with inflight := t.inflight } ∨
    (s.busy = true ∧ t.busy = false ∧ t.status.done = true ∧ t.ctrl = s.ctrl) ∨
    (t = softReset s ∧ ∃ f, s.inflight = some f ∧ f.phase = .accepted ∧ decodeCommand f.word = .ok .sreset) := by
  have hbusy : ∀ {f}, s.inflight = some f → s.busy = true := fun hf => (busy_iff s).mpr ⟨_, hf⟩
  have hcommits : ∀ (ex : Option Extraction) (d : DecodeSet), (commitDecode ex d s).busy = false := fun ex d => by
    rw [not_busy_iff, commitDecode_inflight]
  cases h with
  | idle => exact .inl rfl
  | sreset f hf hp hw => exact .inr (.inr ⟨rfl, f, hf, hp, hw⟩)
  | nop f hf => exact .inr (.inl ⟨hbusy hf, rfl, rfl, rfl⟩)
  | extract f hf => exact .inr (.inl ⟨hbusy hf, rfl, rfl, rfl⟩)
  | csum16 f hf => exact .inr (.inl ⟨hbusy hf, rfl, rfl, rfl⟩)
  | lookup f hf => exact .inr (.inl ⟨hbusy hf, rfl, rfl, rfl⟩)
  | frameFails f hf =>
    exact .inr (.inl ⟨hbusy hf, hcommits _ _, commitDecode_done _ _ s, commitDecode_ctrl _ _ s⟩)
  | completes f j hf =>
    exact .inr (.inl ⟨hbusy hf, hcommits _ _, commitDecode_done _ _ s, commitDecode_ctrl _ _ s⟩)
  | _ => exact .inl rfl

/-- IRQ as a function of the state it reports (10_state.md R48). -/
theorem irq_iff (s : State) :
    s.irq = true ↔ s.ctrl.irqEn = true ∧ (s.status.done = true ∨ s.status.err = true) := by
  simp [State.irq]

/-- The engine raises IRQ by a commit only. -/
theorem engineMove_irq_rises {s t : State} (h : EngineMove s t) (hlow : s.irq = false) (hhigh : t.irq = true) :
    s.busy = true ∧ t.busy = false ∧ t.status.done = true ∧ t.ctrl = s.ctrl := by
  rcases engineMove_outcome h with ht | hcommit | ⟨rfl, -⟩
  · have hsame : t.irq = s.irq := by rw [ht]; rfl
    rw [hsame, hlow] at hhigh
    cases hhigh
  · exact hcommit
  · cases hhigh

/-- The engine never drops IRQ: what it commits sets DONE. -/
theorem engineMove_irq_keeps {s t : State} (hs : s.Inv) (h : EngineMove s t) (hhigh : s.irq = true) :
    t.irq = true := by
  rcases engineMove_outcome h with ht | ⟨-, -, hdone, hctrl⟩ | ⟨-, f, hf, hp, hw⟩
  · rw [ht]; exact hhigh
  · exact (irq_iff t).mpr ⟨hctrl ▸ ((irq_iff s).mp hhigh).1, .inl hdone⟩
  · exact absurd hw (not_sreset_of_inv hs hf hp)

/-- A host write raises IRQ by a refusal that sets ERR, or by setting IRQ_EN. -/
theorem writeMove_irq_rises {s t : State} {off : Nat} {v : Word} (h : WriteMove s off v t) (hlow : s.irq = false)
    (hhigh : t.irq = true) :
    (∃ code, s.ctrl.irqEn = true ∧ s.status.err = false ∧ code ≠ .none ∧
      t = { s with cmd := t.cmd, status := { s.status with err := true, ecode := code } }) ∨
    (off = 0x004 ∧ s.busy = false ∧ s.ctrl.irqEn = false ∧ v.getLsbD 0 = true ∧
      (s.status.done = true ∨ s.status.err = true) ∧ t.status = s.status) := by
  have hs : ¬ (s.ctrl.irqEn = true ∧ (s.status.done = true ∨ s.status.err = true)) := by
    rw [← irq_iff, hlow]; decide
  obtain ⟨hen, hset⟩ := (irq_iff t).mp hhigh
  cases h with
  | ignored => exact absurd ⟨hen, hset⟩ hs
  | refused code hc =>
    refine .inl ⟨code, hen, ?_, hc, rfl⟩
    exact Bool.eq_false_iff.mpr fun herr => hs ⟨hen, .inr herr⟩
  | acknowledged =>
    simp only [acknowledge_done, acknowledge_err, Bool.and_eq_true] at hset
    exact absurd ⟨hen, hset.imp And.left And.left⟩ hs
  | ctrl ho hb =>
    refine .inr ⟨ho, hb, ?_, hen, hset, rfl⟩
    exact Bool.eq_false_iff.mpr fun hold => hs ⟨hold, hset⟩
  | operand => exact absurd ⟨hen, hset⟩ hs
  | buffer _ b k =>
    rw [setBufWord_ctrl] at hen
    rw [setBufWord_status] at hset
    exact absurd ⟨hen, hset⟩ hs
  | sreset => cases hhigh
  | accepted =>
    exact absurd ⟨hen, .inr (hset.resolve_left (by simp))⟩ hs

/-- A host write drops IRQ by an acknowledgement, by clearing IRQ_EN, by SRESET or by an accepted issue. -/
theorem writeMove_irq_falls {s t : State} {off : Nat} {v : Word} (h : WriteMove s off v t) (hhigh : s.irq = true)
    (hlow : t.irq = false) :
    (off = 0x00C ∧ (s.status.done = true → v.getLsbD 1 = true) ∧ (s.status.err = true → v.getLsbD 2 = true)) ∨
    (off = 0x004 ∧ s.busy = false ∧ v.getLsbD 0 = false) ∨
    (off = 0x008 ∧ v = 0xF ∧ s.busy = false) ∨
    (off = 0x008 ∧ s.busy = false ∧ t.busy = true ∧ s.status.err = false ∧ t.status.done = false) := by
  obtain ⟨hen, hset⟩ := (irq_iff s).mp hhigh
  have ht : ¬ (t.ctrl.irqEn = true ∧ (t.status.done = true ∨ t.status.err = true)) := by
    rw [← irq_iff, hlow]; decide
  cases h with
  | ignored => exact absurd ⟨hen, hset⟩ ht
  | refused => exact absurd ⟨hen, .inr rfl⟩ ht
  | acknowledged ho =>
    refine .inl ⟨ho, fun hdone => ?_, fun herr => ?_⟩
    · by_contra hv
      exact ht ⟨hen, .inl (by simp only [acknowledge_done, hdone, hv]; rfl)⟩
    · by_contra hv
      exact ht ⟨hen, .inr (by simp only [acknowledge_err, herr, hv]; rfl)⟩
  | ctrl ho hb =>
    exact .inr (.inl ⟨ho, hb, Bool.eq_false_iff.mpr fun hv => ht ⟨hv, hset⟩⟩)
  | operand => exact absurd ⟨hen, hset⟩ ht
  | buffer _ b k =>
    rw [setBufWord_ctrl, setBufWord_status] at ht
    exact absurd ⟨hen, hset⟩ ht
  | sreset ho hb hw => exact .inr (.inr (.inl ⟨ho, eq_of_decodeCommand_sreset hw, hb⟩))
  | accepted ho hb =>
    refine .inr (.inr (.inr ⟨ho, hb, rfl, ?_, rfl⟩))
    exact Bool.eq_false_iff.mpr fun herr => ht ⟨hen, .inr herr⟩

/-- Settles O22: the level by definition; a rise and a fall by the kind of move that makes the step. -/
theorem irqIsALevel : Obligations.IrqIsALevel := by
  refine ⟨fun _ => rfl, fun _ => rfl, fun s t hstep hlow hhigh => ?_, fun s t hs hstep hhigh hlow => ?_⟩
  · cases stepMove_of_step hstep with
    | engine inputs h => exact .inl (engineMove_irq_rises h hlow hhigh :)
    | reset => cases hhigh
    | answered =>
      have hsame : s.irq = true := hhigh
      simp [hlow] at hsame
    | write off v rest hi h =>
      rcases writeMove_irq_rises h hlow hhigh with ⟨code, hen, herr, hc, ht⟩ | ⟨rfl, hctrl⟩
      · exact .inr (.inl ⟨off, v, rest, code, hi, hen, herr, hc, ht⟩)
      · exact .inr (.inr ⟨v, rest, hi, hctrl⟩)
  · cases stepMove_of_step hstep with
    | engine inputs h =>
      have hkeeps : t.irq = true := engineMove_irq_keeps (inv_environment hs inputs s.reply) h hhigh
      simp [hlow] at hkeeps
    | reset rest hi => exact .inl ⟨rest, hi⟩
    | answered =>
      have hsame : s.irq = false := hlow
      simp [hhigh] at hsame
    | write off v rest hi h =>
      rcases writeMove_irq_falls h hhigh hlow with ⟨rfl, hack⟩ | ⟨rfl, hctrl⟩ | ⟨rfl, rfl, hb⟩ | ⟨rfl, hissue⟩
      · exact .inr (.inl ⟨v, rest, hi, hack⟩)
      · exact .inr (.inr (.inl ⟨v, rest, hi, hctrl⟩))
      · exact .inr (.inr (.inr (.inl ⟨rest, hi, hb⟩)))
      · exact .inr (.inr (.inr (.inr ⟨v, rest, hi, hissue⟩)))

end Sys2Proof.Proofs
end

section
/-! SUPPORT. The byte lanes of a bus word (20_memory.md R65): what a word write leaves in a buffer, what a word read
returns of it, and the text words of XE. -/

namespace Sys2Proof.Proofs

open Sys2Proof.Machine Sys2Proof.Laws

/-! ### Lanes of a word -/

/-- Lane `j` of four bytes put together, the lowest last, is byte `j`. -/
theorem lane_append (f : Nat → Byte) {j : Nat} (hj : j < 4) :
    (f 3 ++ f 2 ++ f 1 ++ f 0).extractLsb' (8 * j) 8 = f j := by
  apply BitVec.eq_of_getLsbD_eq
  intro i hi
  simp only [BitVec.getLsbD_extractLsb', BitVec.getLsbD_append, hi, decide_true, Bool.true_and]
  match j, hj with
  | 0, _ => simp [show i < 8 by omega]
  | 1, _ => grind
  | 2, _ => grind
  | 3, _ => grind

/-! ### Buffer words -/

/-- Lane `j` of a buffer word read at index `k` is byte `k+j`, 0 beyond the buffer (20_memory.md R63, R65). -/
theorem bufWord_lane (s : State) (b : Buffer) (k : Nat) {j : Nat} (hj : j < 4) :
    (s.bufWord b k).extractLsb' (8 * j) 8 = s.laneByte b (k + j) :=
  lane_append (fun j => s.laneByte b (k + j)) hj

/-- What a word write at index `k` leaves at index `i` of the buffer (20_memory.md R65). -/
theorem bufByte_setBufWord (s : State) (b : Buffer) (k : Nat) (v : Word) (i : Nat) :
    (s.setBufWord b k v).bufByte b i =
      if k ≤ i ∧ i < k + 4 ∧ i < bufferSize s.cfg b then laneOf v (i - k) else s.bufByte b i := by
  have hget : Memory.get? ((s.setBufWord b k v).bufferOf b) i =
      if k ≤ i ∧ i < k + 4 ∧ i < bufferSize s.cfg b then some (laneOf v (i - k))
      else Memory.get? (s.bufferOf b) i := by
    cases b <;> exact get?_setWord _ k v i _
  rw [State.bufByte, hget, setBufWord_epoch]
  split <;> rfl

/-- While IDLE a write at an index inside a buffer stores the word (60_exceptions.md R223). -/
theorem writeBuffer_idle {s : State} (hb : s.busy = false) {b : Buffer} {k : Nat} (hk : k < bufferSize s.cfg b)
    (v : Word) : writeBuffer b k v s = s.setBufWord b k v := by
  rw [writeBuffer, if_pos hk, refuseIfBusy_idle hb]

theorem readWord_rxbuf (s : State) (k : Nat) : s.readWord (0x20000 + k) = s.bufWord .rxbuf k := by
  rw [State.readWord, locate_rxbuf, State.readLoc]

theorem readWord_cmdbuf (s : State) {k : Nat} (hk : k < 24) : s.readWord (0x1800 + k) = s.bufWord .cmdbuf k := by
  rw [State.readWord, locate_cmdbuf hk, State.readLoc]

theorem writeWord_rxbuf (k : Nat) (v : Word) (s : State) :
    writeWord (0x20000 + k) v s = .next (writeBuffer .rxbuf k v s) := by
  rw [writeWord, locate_rxbuf, writeLoc]

theorem writeWord_cmdbuf {k : Nat} (hk : k < 24) (v : Word) (s : State) :
    writeWord (0x1800 + k) v s = .next (writeBuffer .cmdbuf k v s) := by
  rw [writeWord, locate_cmdbuf hk, writeLoc]

/-! ### Text words -/

/-- Text byte `k` of an entry stands in lane `k mod 4` of its text word `k div 4` (10_state.md R44). -/
theorem xentry_text_lane (e : XEntry) (k : Nat) :
    (e.word (2 + k / 4)).extractLsb' (8 * (k % 4)) 8 = e.text.getD k 0 := by
  have hw : e.word (2 + k / 4) =
      e.textByte (4 * (k / 4) + 3) ++ e.textByte (4 * (k / 4) + 2) ++ e.textByte (4 * (k / 4) + 1) ++
        e.textByte (4 * (k / 4) + 0) := by
    rw [XEntry.word, if_neg (by omega), if_neg (by omega), Nat.add_sub_cancel_left]
    rfl
  rw [hw, lane_append (fun j => e.textByte (4 * (k / 4) + j)) (Nat.mod_lt k (by decide)), Nat.div_add_mod]
  rfl

/-- Settles O15: a word write and a word read of each buffer lane by lane, a text word by its lanes. -/
theorem byteLanes : Obligations.ByteLanes := by
  refine ⟨fun s k v hb _ => ⟨fun hk => ?_, fun hk => ?_⟩, fun s k j _ hj => ⟨?_, fun hk => ?_⟩,
    fun s e m k hcap hm he hk => ?_⟩
  · refine ⟨s.setBufWord .rxbuf k v, ?_, rfl, bufByte_setBufWord s .rxbuf k v⟩
    rw [writeWord_rxbuf, writeBuffer_idle hb hk]
  · refine ⟨s.setBufWord .cmdbuf k v, ?_, rfl, bufByte_setBufWord s .cmdbuf k v⟩
    rw [writeWord_cmdbuf (by omega), writeBuffer_idle hb hk]
  · rw [readWord_rxbuf, bufWord_lane s .rxbuf k hj]
    rfl
  · rw [readWord_cmdbuf s hk, bufWord_lane s .cmdbuf k hj]
    rfl
  · have hoff : 0x800 + 64 * m + 8 + 4 * (k / 4) = 0x800 + 64 * m + 4 * (2 + k / 4) := by omega
    rw [hoff, readWord_xe s hm (by omega), readXe_some hcap he, xentry_text_lane]

end Sys2Proof.Proofs
end

section
/-! SUPPORT. Reserved offsets, reserved fields and read-only offsets of the address map (20_memory.md R61, R63). -/

namespace Sys2Proof.Proofs

open Sys2Proof.Machine Sys2Proof.Laws

/-! ### Reserved offsets -/

/-- The named registers stand in two runs of offsets (20_memory.md R61). -/
theorem offset_range (r : Reg) : r.offset ≤ 0x054 ∨ (0x080 ≤ r.offset ∧ r.offset ≤ 0x0B0) := by
  cases r <;> decide

/-- The offsets of the two register pages that name no register (20_memory.md R61). -/
theorem locate_unnamed {off : Nat} (h : (0x058 ≤ off ∧ off < 0x080) ∨ (0x0B4 ≤ off ∧ off < 0x400)) :
    locate off = .reserved := by
  have hnone : allRegs.find? (fun r => r.offset = off) = none := by
    refine List.find?_eq_none.mpr fun r _ hr => ?_
    have hoff : r.offset = off := of_decide_eq_true hr
    have hrange := offset_range r
    omega
  rw [locate, if_pos (by omega), hnone]

/-- The reserved gaps before and after the window of CMDBUF (20_memory.md R61). -/
theorem locate_gap {off : Nat} (h : (0x1400 ≤ off ∧ off < 0x1800) ∨ (0x1818 ≤ off ∧ off < 0x20000)) :
    locate off = .reserved := by
  rw [locate, if_neg (by omega), if_neg (by omega), if_neg (by omega), if_neg (by omega)]
  rcases h with h | h
  · rw [if_pos h.2]
  · rw [if_neg (by omega), if_neg (by omega), if_pos h.2]

/-- A reserved offset is RAZ/WI (20_memory.md R63). -/
theorem reserved_raz_wi {off : Nat} (h : locate off = .reserved) (v : Word) (s : State) :
    s.readWord off = 0 ∧ writeWord off v s = .next s := by
  rw [State.readWord, writeWord, h]
  exact ⟨rfl, rfl⟩

/-- A word wholly beyond the end of RXBUF is RAZ/WI (20_memory.md R61, R63). -/
theorem rxbuf_beyond_raz_wi {s : State} {k : Nat} (h : s.cfg.rxbufSize ≤ k) (v : Word) :
    s.readWord (0x20000 + k) = 0 ∧ writeWord (0x20000 + k) v s = .next s := by
  have hlane : ∀ j, s.laneByte .rxbuf (k + j) = 0 := fun j =>
    if_neg (Nat.not_lt.mpr (Nat.le_add_right_of_le h))
  have hread : s.bufWord .rxbuf k = 0 := by
    rw [State.bufWord, hlane 3, hlane 2, hlane 1, show s.laneByte .rxbuf k = 0 from hlane 0]
    rfl
  have hwrite : writeBuffer .rxbuf k v s = s := if_neg (Nat.not_lt.mpr h)
  rw [readWord_rxbuf, writeWord_rxbuf, hread, hwrite]
  exact ⟨rfl, rfl⟩

/-! ### Read-only offsets -/

/-- Every register but the eight from CTRL to CS_COUNT is RO (10_state.md R21 to R42). -/
theorem writeReg_readOnly {r : Reg} (h : r.offset = 0 ∨ 0x024 ≤ r.offset) (v : Word) (s : State) :
    writeReg r v s = .next s := by
  cases r with
  | ctrl | cmd | status | rxLen | winBase | winLen | csStart | csCount => exact absurd h (by decide)
  | _ => rfl

/-- The buffers' windows start at offset 0x1800 (20_memory.md R61). -/
theorem le_of_locate_buffer {off : Nat} {b : Buffer} {k : Nat} (h : locate off = .buffer b k) : 0x1800 ≤ off := by
  unfold locate at h
  repeat' split at h
  all_goals cases h
  all_goals omega

/-- A write at an RO register or window is ignored (20_memory.md R63). -/
theorem writeWord_readOnly {off : Nat} (h : off = 0 ∨ (0x024 ≤ off ∧ off < 0x1800)) (v : Word) (s : State) :
    writeWord off v s = .next s := by
  unfold writeWord
  cases hl : locate off with
  | reg r =>
    have hoff := offset_of_locate hl
    exact writeReg_readOnly (by omega) v s
  | buffer b k =>
    have hle := le_of_locate_buffer hl
    omega
  | _ => rfl

/-! ### Reserved fields -/

/-- A field of a word is 0 where each of its bits is. -/
theorem and_eq_zero_of_bits {w mask : Word} (h : ∀ i < 32, mask.getLsbD i = true → w.getLsbD i = false) :
    w &&& mask = 0 := by
  apply BitVec.eq_of_getLsbD_eq
  intro i hi
  rw [BitVec.getLsbD_and]
  cases hm : mask.getLsbD i with
  | false => simp
  | true => simp [h i hi hm]

/-- CTRL [31:3] read 0 (10_state.md R22). -/
theorem ctrl_toWord_reserved (c : Ctrl) : c.toWord &&& 0xFFFFFFF8 = 0 := by
  rcases c with ⟨_ | _, _ | _, _ | _⟩ <;> rfl

/-- CTRL [31:3] ignore a write (10_state.md R22). -/
theorem ctrl_ofWord_and (v : Word) : Ctrl.ofWord (v &&& 0x7) = Ctrl.ofWord v := by
  simp [Ctrl.ofWord]

/-- STATUS bit 3 and bits [31:23] read 0 (10_state.md R24). -/
theorem statusWord_and_reserved (s : State) : s.statusWord &&& 0xFF800008 = 0 := by
  obtain ⟨-, -, -, hthree⟩ := statusWord_control s
  have hmask : ∀ i < 32, (0xFF800008 : Word).getLsbD i = true → i = 3 ∨ 23 ≤ i := by decide
  refine and_eq_zero_of_bits fun i hi hbit => ?_
  rcases hmask i hi hbit with rfl | hhi
  · exact hthree
  · have hhigh := congrArg (fun x : BitVec 9 => x.getLsbD (i - 23)) (statusWord_reserved s)
    simpa [BitVec.getLsbD_extractLsb', Nat.add_sub_cancel' hhi, show i - 23 < 9 by omega] using hhigh

/-- An acknowledgement looks at bits 1 and 2 alone (60_exceptions.md R228). -/
theorem acknowledge_and (v : Word) (s : State) : acknowledge (v &&& 0x6) s = acknowledge v s := by
  simp [acknowledge]

/-- A word write depends only on the lanes that lie inside the buffer (20_memory.md R65). -/
theorem setLanes_congr {size k : Nat} {v w : Word} (n j : Nat) (m : Memory)
    (h : ∀ i, k + i < size → laneOf v i = laneOf w i) :
    Memory.setLanes size k v j n m = Memory.setLanes size k w j n m := by
  induction n generalizing j m with
  | zero => rfl
  | succ n ih =>
    simp only [Memory.setLanes]
    rw [ih]
    split
    · next hin => rw [h j hin]
    · rfl

/-- The last word of CMDBUF holds one byte: its lanes 1 to 3 ignore a write (20_memory.md R61, R63). -/
theorem writeBuffer_cmdbuf_last (v : Word) (s : State) :
    writeBuffer .cmdbuf 20 (v &&& 0xFF) s = writeBuffer .cmdbuf 20 v s := by
  have hlane : ∀ i, 20 + i < cmdLen → laneOf (v &&& 0xFF) i = laneOf v i := by
    intro i hi
    obtain rfl : i = 0 := by unfold cmdLen at hi; omega
    have hmask : ∀ i < 8, (0xFF : Word).getLsbD i = true := by decide
    apply BitVec.eq_of_getLsbD_eq
    intro i hi
    rw [laneOf, laneOf, BitVec.getLsbD_extractLsb', BitVec.getLsbD_extractLsb', BitVec.getLsbD_and, Nat.mul_zero,
      Nat.zero_add, hmask i hi, Bool.and_true]
  simp only [writeBuffer, State.setBufWord, Memory.setWord, setLanes_congr 4 0 s.cmdbuf hlane]

/-- The last word of CMDBUF holds one byte: its bits [31:8] read 0 (20_memory.md R61, R63). -/
theorem bufWord_cmdbuf_last (s : State) : s.bufWord .cmdbuf 20 &&& 0xFFFFFF00 = 0 := by
  have hmask : ∀ i < 32, (0xFFFFFF00 : Word).getLsbD i = true → 8 ≤ i := by decide
  have hword : s.bufWord .cmdbuf 20 = 0#8 ++ 0#8 ++ 0#8 ++ s.laneByte .cmdbuf 20 := rfl
  refine and_eq_zero_of_bits fun i hi hbit => ?_
  have hhi := hmask i hi hbit
  simp only [hword, BitVec.getLsbD_append, Nat.not_lt.mpr hhi, BitVec.getLsbD_zero, ite_self, if_false]

/-- Settles O11: the reserved offsets and the RO offsets by what they address, the reserved fields register by
register. -/
theorem reservedReadsZeroIgnoresWrites : Obligations.ReservedReadsZeroIgnoresWrites := by
  intro s v off _
  refine ⟨fun h => ?_, fun h => writeWord_readOnly h v s, ⟨?_, ?_⟩, ⟨?_, ?_⟩, ?_, ?_⟩
  · rcases h with h | h | h | h | h
    · exact reserved_raz_wi (locate_unnamed (.inl h)) v s
    · exact reserved_raz_wi (locate_unnamed (.inr h)) v s
    · exact reserved_raz_wi (locate_gap (.inl h)) v s
    · exact reserved_raz_wi (locate_gap (.inr h)) v s
    · obtain ⟨k, rfl⟩ := Nat.exists_eq_add_of_le (Nat.le_of_add_right_le h)
      exact rxbuf_beyond_raz_wi (Nat.le_of_add_le_add_left h) v
  · exact readWord_reg s .ctrl ▸ ctrl_toWord_reserved s.ctrl
  · have hwrite : ∀ w, writeWord 0x004 w s = .next (refuseIfBusy s { s with ctrl := Ctrl.ofWord w }) :=
      writeWord_reg s .ctrl
    rw [hwrite, hwrite, ctrl_ofWord_and]
  · exact readWord_reg s .status ▸ statusWord_and_reserved s
  · have hwrite : ∀ w, writeWord 0x00C w s = .next (acknowledge w s) := writeWord_reg s .status
    rw [hwrite, hwrite, acknowledge_and]
  · rw [show 0x1814 = 0x1800 + 20 from rfl, readWord_cmdbuf s (by decide), bufWord_cmdbuf_last]
  · rw [show 0x1814 = 0x1800 + 20 from rfl, writeWord_cmdbuf (by decide), writeWord_cmdbuf (by decide),
      writeBuffer_cmdbuf_last]

end Sys2Proof.Proofs
end

section
/-! SUPPORT. One host access (20_memory.md R61, R62, 60_exceptions.md R224) and the next event (log 5). -/

namespace Sys2Proof.Proofs

open Sys2Proof.Machine Sys2Proof.Laws

/-! ### One bus access -/

/-- The block answers the 0x40000 bus addresses from BLOCK_BASE up (20_memory.md R60, R61). -/
theorem selects_iff (c : Config) (addr : Nat) :
    selects c addr = true ↔ c.blockBase ≤ addr ∧ addr < c.blockBase + 0x40000 := by
  rw [selects, blockBytes, Bool.and_eq_true, decide_eq_true_iff, decide_eq_true_iff]

/-- An access that is served is 4 bytes at a multiple of 4 (20_memory.md R62). -/
theorem wordAccess_iff (off bytes : Nat) : wordAccess off bytes = true ↔ bytes = 4 ∧ off % 4 = 0 := by
  simp only [wordAccess, Bool.and_eq_true, decide_eq_true_eq]

/-- The block answers its own offsets. -/
theorem selects_offset (c : Config) {off : Nat} (h : off < 0x40000) : selects c (c.blockBase + off) = true :=
  (selects_iff c _).mpr ⟨Nat.le_add_right _ _, Nat.add_lt_add_left h _⟩

/-- A word read is answered with the word. -/
theorem hostAccess_readWord (s : State) {off : Nat} (ha : off % 4 = 0) (h : off < 0x40000) :
    hostAccess (.read (s.cfg.blockBase + off) 4) s = .next { s with reply := .data (s.readWord off) } := by
  rw [hostAccess, if_pos (selects_offset s.cfg h), Nat.add_sub_cancel_left,
    if_pos ((wordAccess_iff off 4).mpr ⟨rfl, ha⟩)]

/-- A word write does what its offset says. -/
theorem hostAccess_writeWord (s : State) {off : Nat} (ha : off % 4 = 0) (h : off < 0x40000) (v : Word) :
    hostAccess (.write (s.cfg.blockBase + off) 4 v) s = writeWord off v { s with reply := .written } := by
  rw [hostAccess, if_pos (selects_offset s.cfg h), Nat.add_sub_cancel_left,
    if_pos ((wordAccess_iff off 4).mpr ⟨rfl, ha⟩)]

/-- No host write touches the port's answer (log 8). -/
theorem writeMove_reply {s t : State} {off : Nat} {v : Word} (h : WriteMove s off v t) : t.reply = s.reply := by
  cases h with
  | buffer _ b k => exact setBufWord_reply s b k v
  | _ => rfl

/-- Settles O13: a read by its own equation; a write by the moves of a host write, each of which keeps `cfg` and
`reply`. -/
theorem wordAccessIsServed : Obligations.WordAccessIsServed := by
  intro s off v ha hlt
  refine ⟨hostAccess_readWord s ha hlt, ?_⟩
  obtain ⟨t, ht⟩ := writeWord_next off v { s with reply := .written }
  have hmove := writeMove_of_writeWord ht
  exact ⟨t, (hostAccess_writeWord s ha hlt v).trans ht, writeMove_reply hmove, (writeMove_cfg hmove :), ht⟩

/-- Settles O12: the block is selected and the access is no word access. -/
theorem badAccessIsABusError : Obligations.BadAccessIsABusError := by
  intro s addr bytes v hlo hhi hbad
  have hsel : selects s.cfg addr = true := (selects_iff s.cfg addr).mpr ⟨hlo, hhi⟩
  have hword : ¬ wordAccess (addr - s.cfg.blockBase) bytes = true := by
    rw [wordAccess_iff, not_and_or]
    exact hbad
  constructor
  · rw [hostAccess, if_pos hsel, if_neg hword]
  · rw [hostAccess, if_pos hsel, if_neg hword]

/-- Settles O14: the block is not selected. -/
theorem accessOutsideTheBlockFaults : Obligations.AccessOutsideTheBlockFaults := by
  intro s addr bytes v hout
  have hsel : ¬ selects s.cfg addr = true := by
    rw [selects_iff]
    omega
  constructor
  · rw [hostAccess, if_neg hsel]
  · rw [hostAccess, if_neg hsel]

/-! ### The next event -/

/-- Settles O6: a legal configuration's step is `nextEvent`, by the head of the events; the poll that ends a WAIT is a
word read of STATUS. -/
theorem stepIsTheNextEvent : Obligations.StepIsTheNextEvent := by
  intro s rest a hc
  have hstep : step s = nextEvent s := if_pos hc
  rw [hstep, nextEvent]
  refine ⟨fun h => ?_, fun h => ?_, fun h => ?_, fun h => ?_, fun h hb => ?_, fun h hb => ?_⟩
  · rw [h]
  · rw [h]
  · rw [h]
  · rw [h]
  · rw [h]
    exact if_pos hb
  · have hread : ({ s with inputs := rest } : State).readWord 0x00C = s.readWord 0x00C :=
      readWord_congr (show sameRegisters s { s with inputs := rest } from rfl) rfl 0x00C
    rw [h, ← hread]
    exact (if_neg (by simp [hb])).trans (hostAccess_readWord { s with inputs := rest } (by decide) (by decide))

end Sys2Proof.Proofs
end

section
/-! SUPPORT. The encodings of commands (30_encoding.md R80, R81): the decoder of command words is the inverse of the
encoder, and the legal words are the listed ones. -/

namespace Sys2Proof.Proofs

open Sys2Proof.Machine Sys2Proof.Laws

/-! ### The fields of an encoded word -/

/-- The OP, TAG and SRC fields of a command word (30_encoding.md R80). -/
@[simp] theorem bitField_cmdw (src : BitVec 1) (tag : Byte) (op : BitVec 4) :
    bitField (cmdw src tag op) 0 4 = op ∧ bitField (cmdw src tag op) 8 8 = tag ∧
      bitField (cmdw src tag op) 16 1 = src := by
  refine ⟨?_, ?_, ?_⟩
  all_goals
    apply BitVec.eq_of_getLsbD_eq
    intro i hi
    simp only [bitField, cmdw, BitVec.getLsbD_append, BitVec.getLsbD_extractLsb']
    grind

/-- The word of LOOKUP as 30_encoding.md R81 writes it. -/
theorem cmdw_lookup (tag : Byte) : cmdw 0 tag 0x5 = 0x00000005 ||| (tag.setWidth 32 <<< 8) := by
  have hlow : ∀ i < 4, (0x5 : BitVec 4).getLsbD i = (0x00000005 : Word).getLsbD i := by decide
  have hhigh (i : Nat) (h : 4 ≤ i) : (0x00000005 : Word).getLsbD i = false :=
    Nat.testBit_lt_two_pow (Nat.lt_of_lt_of_le (by decide) (Nat.pow_le_pow_right (n := 2) (by decide) h))
  apply BitVec.eq_of_getLsbD_eq
  intro i hi
  simp only [cmdw, BitVec.getLsbD_append, BitVec.getLsbD_or, BitVec.getLsbD_shiftLeft, BitVec.getLsbD_setWidth]
  grind

/-! ### The round trip -/

/-- LOOKUP is read back with any TAG. -/
theorem decodeCommand_lookup (tag : Byte) : decodeCommand (cmdw 0 tag 0x5) = .ok (.lookup tag) := by
  have hres := EncodingShape.cmdw_reserved 0 tag 0x5
  simpa [decodeCommand] using hres

/-- The commands are the instructions whose encoding is a word. -/
theorem slot_eq_none_iff_word (c : Config) (i : Instr) : i.slot = none ↔ ∃ w, encode c i = .word w := by
  cases i with
  | csum16 src => cases src <;> simp [Instr.slot, encode]
  | _ => simp [Instr.slot, encode]

/-- A word decodes to an instruction exactly when it is that instruction's encoding. -/
theorem decodeCommand_ok_iff (c : Config) {w : Word} {i : Instr} : decodeCommand w = .ok i ↔ encode c i = .word w := by
  refine ⟨fun h => encode_of_decodeCommand h c, fun h => ?_⟩
  cases i with
  | nop | extract | decode | extractDecode | sreset => cases h; decide
  | csum16 src => cases src <;> (cases h; decide)
  | lookup tag => cases h; exact decodeCommand_lookup tag
  | _ => cases h

/-- Settles O2: a command is what has a word for its encoding, and the decoder accepts exactly the encodings. -/
theorem commandRoundTrip : Obligations.CommandRoundTrip := by
  refine ⟨fun c i hi => ?_, fun c w i h => ?_⟩
  · obtain ⟨w, hw⟩ := (slot_eq_none_iff_word c i).mp hi
    exact ⟨w, hw, (decodeCommand_ok_iff c).mpr hw⟩
  · have hw := (decodeCommand_ok_iff c).mp h
    exact ⟨(slot_eq_none_iff_word c i).mpr ⟨w, hw⟩, hw⟩

/-! ### The legal words -/

/-- The list of 30_encoding.md R81 is the encoder's table. -/
theorem encode_eq_word_iff (c : Config) (w : Word) (i : Instr) :
    encode c i = .word w ↔
      (w = 0x00000000 ∧ i = .nop) ∨ (w = 0x00000001 ∧ i = .extract) ∨ (w = 0x00000002 ∧ i = .decode) ∨
      (w = 0x00000003 ∧ i = .extractDecode) ∨ (w = 0x00000004 ∧ i = .csum16 .rxbuf) ∨
      (w = 0x00010004 ∧ i = .csum16 .cmdbuf) ∨
      (∃ tag : Byte, w = 0x00000005 ||| (tag.setWidth 32 <<< 8) ∧ i = .lookup tag) ∨
      (w = 0x0000000F ∧ i = .sreset) := by
  refine ⟨fun h => ?_, ?_⟩
  · cases i with
    | nop | extract | decode | extractDecode | sreset => cases h; simp [cmdw]
    | csum16 src => cases src <;> (cases h; simp [cmdw])
    | lookup tag => cases h; simpa using cmdw_lookup tag
    | _ => cases h
  · rintro (⟨rfl, rfl⟩ | ⟨rfl, rfl⟩ | ⟨rfl, rfl⟩ | ⟨rfl, rfl⟩ | ⟨rfl, rfl⟩ | ⟨rfl, rfl⟩ | ⟨tag, rfl, rfl⟩ | ⟨rfl, rfl⟩)
    · rfl
    · rfl
    · rfl
    · rfl
    · rfl
    · rfl
    · exact congrArg Code.word (cmdw_lookup tag)
    · rfl

/-- The decoder in the words of 30_encoding.md R81: bits [31:17] and [7:4] are 0, and by OP the unused fields. -/
abbrev legalFields (w : Word) : Prop :=
  bitField w 17 15 = 0 ∧ bitField w 4 4 = 0 ∧
  ((bitField w 0 4 ∈ [0x0, 0x1, 0x2, 0x3, 0xF] ∧ bitField w 8 9 = 0) ∨
    (bitField w 0 4 = 0x4 ∧ bitField w 8 8 = 0) ∨ (bitField w 0 4 = 0x5 ∧ bitField w 16 1 = 0))

/-- The unused fields of an encoded command are 0. -/
theorem legalFields_of_encode {c : Config} {i : Instr} {w : Word} (h : encode c i = .word w) : legalFields w := by
  cases i with
  | nop | extract | decode | extractDecode | sreset => cases h; decide
  | csum16 src => cases src <;> (cases h; decide)
  | lookup tag =>
    cases h
    obtain ⟨hop, -, hsrc⟩ := bitField_cmdw 0 tag 0x5
    obtain ⟨hhi, hmid⟩ := EncodingShape.cmdw_reserved 0 tag 0x5
    exact ⟨hhi, hmid, .inr (.inr ⟨hop, hsrc⟩)⟩
  | _ => cases h

/-- A word whose unused fields are 0 is a command's: by OP, and by SRC for CSUM16. -/
theorem exists_encode_of_legalFields (c : Config) {w : Word} (h : legalFields w) : ∃ i, encode c i = .word w := by
  obtain ⟨hhi, hmid, hop⟩ := h
  rw [eq_cmdw_of_reserved hhi hmid]
  rcases hop with ⟨hop, hzero⟩ | ⟨hop, htag⟩ | ⟨hop, hsrc⟩
  · obtain ⟨hsrc, htag⟩ := src_tag_eq_zero hzero
    rw [hsrc, htag]
    simp only [List.mem_cons, List.not_mem_nil, or_false] at hop
    rcases hop with hop | hop | hop | hop | hop <;> rw [hop]
    · exact ⟨.nop, rfl⟩
    · exact ⟨.extract, rfl⟩
    · exact ⟨.decode, rfl⟩
    · exact ⟨.extractDecode, rfl⟩
    · exact ⟨.sreset, rfl⟩
  · rw [hop, htag]
    rcases BitVec.eq_zero_or_eq_one (bitField w 16 1) with hsrc | hsrc <;> rw [hsrc]
    · exact ⟨.csum16 .rxbuf, rfl⟩
    · exact ⟨.csum16 .cmdbuf, rfl⟩
  · rw [hop, hsrc]
    exact ⟨.lookup (bitField w 8 8), rfl⟩

/-- Settles O1: by the round trip the legal words are the encodings, listed by command and characterised by their
fields. -/
theorem commandWordsDecode : Obligations.CommandWordsDecode := by
  have hdec {w : Word} {i : Instr} : decodeCommand w = .ok i ↔ encode Config.default i = .word w :=
    decodeCommand_ok_iff Config.default
  refine ⟨fun w i => hdec.trans (encode_eq_word_iff Config.default w i), fun w => ⟨?_, ?_⟩⟩
  · rintro ⟨i, h⟩
    exact legalFields_of_encode (hdec.mp h)
  · intro h
    obtain ⟨i, hi⟩ := exists_encode_of_legalFields Config.default h
    exact ⟨i, hdec.mpr hi⟩

end Sys2Proof.Proofs
end

section
/-! SUPPORT. The encodings of payload elements (30_encoding.md R87 to R89): what is decoded in a slot is what stands
encoded at the beginning of the bytes. -/

namespace Sys2Proof.Proofs

open Sys2Proof.Machine Sys2Proof.Laws

/-! ### Fixed fields -/

/-- A 16-bit field is put together from the two bytes it is written as (20_memory.md R64). -/
theorem be16Of_bytes (v : Half) : be16Of (v.extractLsb' 8 8) (v.extractLsb' 0 8) = v := by
  apply BitVec.eq_of_getLsbD_eq
  intro i hi
  simp only [be16Of, BitVec.getLsbD_append, BitVec.getLsbD_extractLsb']
  grind

/-- The two bytes a 16-bit field is read from are the ones it is written as. -/
theorem be16Bytes_be16Of (hi lo : Byte) : be16Bytes (be16Of hi lo) = [hi, lo] := by
  have hhi : (hi ++ lo).extractLsb' 8 8 = hi := BitVec.extractLsb'_append_eq_left
  have hlo : (hi ++ lo).extractLsb' 0 8 = lo := BitVec.extractLsb'_append_eq_right
  rw [be16Bytes, be16Of, hhi, hlo]

/-- A fixed field is encoded as its tag and value bytes, and read back from these, whatever follows. -/
theorem encode_of_fixed_slot (c : Config) {i : Instr} {k : FixedField} (h : i.slot = some (.fixed k)) :
    ∃ value, encode c i = .bytes (c.fixedTag k :: value) ∧ ∀ rest, fixedInstr k (value ++ rest) = some i := by
  cases i with
  | fixTmos raw | fixTp1 raw | fixTp2 raw | fixVpack raw | fixIpack raw =>
    cases h
    exact ⟨be16Bytes raw, rfl, fun rest => by simp [be16Bytes, fixedInstr, be16Of_bytes]⟩
  | fixSoc raw =>
    cases h
    exact ⟨[raw], rfl, fun _ => rfl⟩
  | _ => cases h

/-- What is read as a fixed field's value begins with the value bytes of the field's encoding. -/
theorem encode_of_fixedInstr (c : Config) {k : FixedField} {bytes : List Byte} {i : Instr}
    (h : fixedInstr k bytes = some i) :
    ∃ value rest, encode c i = .bytes (c.fixedTag k :: value) ∧ bytes = value ++ rest := by
  cases k with
  | tmos | tp1 | tp2 | vpack | ipack =>
    rcases bytes with _ | ⟨hi, _ | ⟨lo, rest⟩⟩ <;> cases h
    refine ⟨[hi, lo], rest, ?_, rfl⟩
    rw [encode, be16Bytes_be16Of]
    rfl
  | soc =>
    rcases bytes with _ | ⟨v, rest⟩ <;> cases h
    exact ⟨[v], rest, rfl, rfl⟩

/-- The attempt at a fixed field succeeds exactly where its tag stands and its value lies inside the frame
(43_fixed_field.md R166). -/
theorem decodeElement_fixed_iff {c : Config} {k : FixedField} {tag : Byte} {bytes : List Byte} {i : Instr} :
    decodeElement c (.fixed k) (tag :: bytes) = .ok i ↔ tag = c.fixedTag k ∧ fixedInstr k bytes = some i := by
  cases hi : fixedInstr k bytes with
  | none => simp [decodeElement, hi]
  | some i' => by_cases htag : tag = c.fixedTag k <;> simp [decodeElement, hi, htag]

/-- A fixed field carries every byte of its encoding. -/
theorem whole_of_fixed_slot (c : Config) {i : Instr} {k : FixedField} (h : i.slot = some (.fixed k)) :
    i.whole c = true := by
  cases i with
  | cellBlock | xfield => cases h
  | _ => rfl

/-- A whole element is well-formed. -/
theorem wf_of_whole {c : Config} {i : Instr} (h : i.whole c = true) : i.wf c = true := by
  cases i with
  | cellBlock tag bc entries => exact decide_eq_true (of_decide_eq_true h).le
  | xfield t value => exact decide_eq_true (of_decide_eq_true h).le
  | _ => rfl

/-! ### The round trip -/

/-- The bytes of a counted run are read back where all of them are there, or nothing follows them. -/
theorem take_append_of_run {value rest : List Byte} {n : Nat}
    (h : value.length = n ∨ (value.length ≤ n ∧ rest = [])) : (value ++ rest).take n = value := by
  rcases h with rfl | ⟨hle, rfl⟩
  · exact List.take_left
  · rw [List.append_nil, List.take_of_length_le hle]

/-- An element is read back from its encoding where it is whole, whatever follows, or where nothing follows it. -/
theorem decodeElement_encode {c : Config} {i : Instr} {sl : Slot} (hsl : i.slot = some sl) :
    ∃ bs, encode c i = .bytes bs ∧
      ∀ rest, (i.whole c = true ∨ (i.wf c = true ∧ rest = [])) → decodeElement c sl (bs ++ rest) = .ok i := by
  cases sl with
  | fixed k =>
    obtain ⟨value, henc, hread⟩ := encode_of_fixed_slot c hsl
    exact ⟨_, henc, fun rest _ => decodeElement_fixed_iff.mpr ⟨rfl, hread rest⟩⟩
  | cellBlock =>
    cases i with
    | cellBlock tag bc entries =>
      refine ⟨_, rfl, fun rest h => ?_⟩
      simp only [Instr.whole, Instr.wf, decide_eq_true_eq] at h
      simp [decodeElement, take_append_of_run h]
    | _ => cases hsl
  | extra =>
    cases i with
    | xfield tag value =>
      refine ⟨_, rfl, fun rest h => ?_⟩
      simp only [Instr.whole, Instr.wf, decide_eq_true_eq, ← elementWidth_eq] at h
      simp [decodeElement, take_append_of_run h]
    | _ => cases hsl

/-- Settles O3: the two cases in which an element is read back. -/
theorem elementRoundTrip : Obligations.ElementRoundTrip := by
  refine ⟨fun c i sl hsl hwhole => ?_, fun c i sl hsl hwf => ?_⟩
  · obtain ⟨bs, henc, hread⟩ := decodeElement_encode (c := c) hsl
    exact ⟨bs, henc, fun rest => hread rest (.inl hwhole)⟩
  · obtain ⟨bs, henc, hread⟩ := decodeElement_encode (c := c) hsl
    have hnil := hread [] (.inr ⟨hwf, rfl⟩)
    rw [List.append_nil] at hnil
    exact ⟨bs, henc, hnil⟩

/-! ### Soundness of the decoder -/

/-- Settles O4: a counted run is a beginning of the bytes it is taken from, a fixed field stands where it is read. -/
theorem decodedElementIsThere : Obligations.DecodedElementIsThere := by
  intro c sl bytes i h
  have hslot := slot_of_decodeElement h
  cases sl with
  | cellBlock =>
    rcases bytes with _ | ⟨tag, _ | ⟨bc, rest⟩⟩ <;> cases h
    refine ⟨decide_eq_true (List.length_take_le ..), hslot, _, rest.drop bc.toNat, rfl, ?_⟩
    simp
  | fixed k =>
    rcases bytes with _ | ⟨tag, bytes⟩
    · cases h
    · obtain ⟨rfl, hread⟩ := decodeElement_fixed_iff.mp h
      obtain ⟨value, rest, henc, rfl⟩ := encode_of_fixedInstr c hread
      exact ⟨wf_of_whole (whole_of_fixed_slot c hslot), hslot, _, rest, henc, rfl⟩
  | extra =>
    rcases bytes with _ | ⟨tag, rest⟩ <;> cases h
    refine ⟨decide_eq_true ?_, hslot, _, rest.drop (elementWidth c tag), rfl, ?_⟩
    · rw [← elementWidth_eq]
      exact List.length_take_le ..
    · simp

/-- A whole element that was read is read again whatever bytes are added behind. -/
theorem decodeElement_append {c : Config} {sl : Slot} {bytes : List Byte} {i : Instr}
    (h : decodeElement c sl bytes = .ok i) (hwhole : i.whole c = true) (rest : List Byte) :
    decodeElement c sl (bytes ++ rest) = .ok i := by
  obtain ⟨-, hslot, bs, behind, henc, rfl⟩ := decodedElementIsThere c sl bytes i h
  obtain ⟨bs', henc', hread⟩ := elementRoundTrip.1 c i sl hslot hwhole
  obtain rfl : bs = bs' := Code.bytes.inj (henc.symm.trans henc')
  rw [List.append_assoc]
  exact hread (behind ++ rest)

/-! ### Samples -/

/-- Settles O5: each by running the decoder. -/
theorem sampleEncodings : Obligations.SampleEncodings := by
  refine ⟨?_, ?_, ?_, ?_, ?_, ?_⟩ <;> decide

end Sys2Proof.Proofs
end

section
/-! SUPPORT. An instruction placed where the next step fetches it (log 12). -/

namespace Sys2Proof.Proofs

open Sys2Proof.Machine Sys2Proof.Laws

/-! ### The fields of the placed state

Each is read off the unfolded definition: to compare the whole states would evaluate the placed memory. -/

@[simp] theorem placeElement_cfg (s : State) (t : Byte) : (s.placeElement t).cfg = s.cfg := by
  rw [State.placeElement]

@[simp] theorem placeElement_inputs (s : State) (t : Byte) : (s.placeElement t).inputs = [] := by
  rw [State.placeElement]

theorem placeElement_rxbuf (s : State) (t : Byte) : (s.placeElement t).rxbuf =
    placeBytes (placedJob (slotOfTag s.cfg t)).off (zeroPadded t) s.rxbuf := by
  rw [State.placeElement]

theorem placeElement_inflight (s : State) (t : Byte) : (s.placeElement t).inflight =
    some { word := 0x2, snap := s.snapshot, phase := placedPhase (slotOfTag s.cfg t) } := by
  rw [State.placeElement]

/-! ### The placed bytes -/

/-- What a run of bytes written to a buffer leaves at an index. -/
theorem get?_placeBytes (bytes : List Byte) (i k : Nat) (m : Memory) :
    Memory.get? (placeBytes i bytes m) k =
      if i ≤ k ∧ k < i + bytes.length then bytes[k - i]? else Memory.get? m k := by
  induction bytes generalizing i m with
  | nil =>
    have hout : ¬ (i ≤ k ∧ k < i + ([] : List Byte).length) := by simp
    rw [if_neg hout, placeBytes]
  | cons v bytes ih =>
    rw [placeBytes, ih, get?_set, List.length_cons]
    by_cases hk : k = i
    · have hout : ¬ (i + 1 ≤ k ∧ k < i + 1 + bytes.length) := by omega
      have hin : i ≤ k ∧ k < i + (bytes.length + 1) := by omega
      rw [if_neg hout, if_pos hin, if_pos hk, hk, Nat.sub_self, List.getElem?_cons_zero]
    · rw [if_neg hk]
      refine if_ctx_congr (by omega) (fun hin => ?_) (fun _ => rfl)
      rw [show k - i = (k - (i + 1)) + 1 by omega, List.getElem?_cons_succ]

/-- A run of RXBUF from where bytes were placed begins with them. -/
theorem bufBytes_of_placeBytes {s : State} {bytes : List Byte} {i n : Nat} {m : Memory}
    (hrx : s.rxbuf = placeBytes i bytes m) (hn : bytes.length ≤ n) : ∃ rest, bytes ++ rest = s.bufBytes .rxbuf i n := by
  have htake : (s.bufBytes .rxbuf i n).take bytes.length = bytes := by
    refine List.ext_getElem? fun d => ?_
    rw [List.getElem?_take]
    split
    · next hd =>
      rw [bufBytes_getElem? s .rxbuf n i d (by omega), State.bufByte, State.bufferOf, hrx, get?_placeBytes,
        if_pos (by omega), Nat.add_sub_cancel_left, List.getElem?_eq_getElem hd, Option.getD_some]
    · next hd => exact (List.getElem?_eq_none (Nat.le_of_not_lt hd)).symm
  refine ⟨(s.bufBytes .rxbuf i n).drop bytes.length, ?_⟩
  calc bytes ++ (s.bufBytes .rxbuf i n).drop bytes.length
      = (s.bufBytes .rxbuf i n).take bytes.length ++ (s.bufBytes .rxbuf i n).drop bytes.length := by rw [htake]
    _ = s.bufBytes .rxbuf i n := List.take_append_drop ..

@[simp] theorem placedJob_base (sl : Slot) : (placedJob sl).base = 0 := rfl

@[simp] theorem placedJob_eff (sl : Slot) : (placedJob sl).eff = 64 := rfl

/-- A placed element stands at window offset 11 or 13. -/
theorem placedJob_off_le (sl : Slot) : (placedJob sl).off ≤ 13 := by
  cases sl with
  | cellBlock => decide
  | fixed k => exact Nat.le_refl 13
  | extra => decide

@[simp] theorem zeroPadded_length (t : Byte) : (zeroPadded t).length = 25 := rfl

/-- The frame of a placed element begins, at OFF, with the tag and the zeros behind it. -/
theorem elementBytes_placeElement (s : State) (t : Byte) :
    ∃ rest, zeroPadded t ++ rest = (s.placeElement t).elementBytes (placedJob (slotOfTag s.cfg t)) := by
  have hoff := placedJob_off_le (slotOfTag s.cfg t)
  rw [State.elementBytes, State.windowBytes, placedJob_base, placedJob_eff, Nat.zero_add]
  exact bufBytes_of_placeBytes (placeElement_rxbuf s t) (by rw [zeroPadded_length]; omega)

/-! ### The step -/

/-- A step with no event pending executes the instruction the engine stands at. -/
theorem step_of_fetch {s : State} {i : Instr} (hc : s.cfg.legal = true) (hi : s.inputs = [])
    (hf : s.fetch = some (.ok i)) : step s = exec i s := by
  simp [step, nextEvent, engineStep, hc, hi, hf]

/-- A placed extra field stands inside the frame, and there is room to record it. -/
theorem extraGoesOn_placedJob {c : Config} (hc : c.legal = true) : extraGoesOn c (placedJob .extra) = true := by
  have hoff : (placedJob .extra).off < (placedJob .extra).pe := by decide
  have hmax : 0 < c.maxExtra := by
    simp only [Config.legal, Config.sizesLegal, Bool.and_eq_true, decide_eq_true_eq] at hc
    omega
  rw [extraGoesOn, Bool.and_eq_true, decide_eq_true_eq, decide_eq_true_eq]
  exact ⟨hoff, hmax⟩

/-- The engine fetches the placed element in the slot of its tag's row. -/
theorem fetch_placeElement {s : State} (hc : s.cfg.legal = true) (t : Byte) :
    (s.placeElement t).fetch =
      some ((s.placeElement t).fetchElement (slotOfTag s.cfg t) (placedJob (slotOfTag s.cfg t))) := by
  have hf := placeElement_inflight s t
  cases hsl : slotOfTag s.cfg t with
  | cellBlock => simp [State.fetch, hf, hsl, placedPhase]
  | fixed k => exact fetch_fixed hf (by rw [hsl]; rfl)
  | extra =>
    rw [fetch_extra hf (by rw [hsl]; rfl), placeElement_cfg, if_pos (extraGoesOn_placedJob hc)]

/-- The width of a legal configuration's tag is at most 24 (00_scope.md R8). -/
theorem elementWidth_le {c : Config} (hc : c.legal = true) (t : Byte) : elementWidth c t ≤ 24 := by
  unfold elementWidth
  split
  · next row hrow => exact (legal_width hc (List.mem_of_getElem? (fctLookup_some hrow).1)).2
  · exact Nat.zero_le 24

/-- Before 24 zeros every element is whole. -/
theorem whole_of_decodeElement_zeroPadded {c : Config} (hc : c.legal = true) {sl : Slot} {t : Byte} {i : Instr}
    (h : decodeElement c sl (zeroPadded t) = .ok i) : i.whole c = true := by
  cases sl with
  | cellBlock => cases h; rfl
  | fixed k => exact whole_of_fixed_slot c (slot_of_decodeElement h)
  | extra =>
    cases h
    have hw := elementWidth_le hc t
    simpa [Instr.whole, ← elementWidth_eq] using hw

/-- A placed element is the one the next step runs, in any legal configuration. -/
theorem step_placeElement {s : State} (hc : s.cfg.legal = true) {t : Byte} {i : Instr}
    (h : decodeElement s.cfg (slotOfTag s.cfg t) (zeroPadded t) = .ok i) :
    step (s.placeElement t) = exec i (s.placeElement t) := by
  obtain ⟨rest, hbytes⟩ := elementBytes_placeElement s t
  have hread := decodeElement_append h (whole_of_decodeElement_zeroPadded hc h) rest
  refine step_of_fetch ((placeElement_cfg s t).symm ▸ hc) (placeElement_inputs s t) ?_
  rw [fetch_placeElement hc, State.fetchElement, ← hbytes, placeElement_cfg, hread]

/-- A placed command is the one the next step runs, in any legal configuration. -/
theorem step_placeCommand {s : State} (hc : s.cfg.legal = true) {w : Word} {i : Instr}
    (h : decodeCommand w = .ok i) : step (s.placeCommand w) = exec i (s.placeCommand w) :=
  step_of_fetch hc rfl (congrArg some h)

theorem eq_ok_of_toOption {r : Except Reject Instr} {i : Instr} (h : r.toOption = some i) : r = .ok i := by
  cases r with
  | error e => cases h
  | ok i' => cases h; rfl

/-- Settles O8: a command is fetched from the word in flight, an element from the bytes at OFF, whole before the zeros
placed behind its tag. -/
theorem placedInstructionRuns : Obligations.PlacedInstructionRuns := by
  have hc : State.reset.cfg.legal = true := by decide
  exact ⟨fun w i h => step_placeCommand hc (eq_ok_of_toOption h),
    fun w i h => step_placeElement hc (eq_ok_of_toOption h)⟩

end Sys2Proof.Proofs
end

section
/-! SUPPORT. The bytes of a buffer and of a window as numbers, in the terms of the pipeline's one function
(00_scope.md R13, 42_checksum16.md R150 to R152), and the frame checks in these terms. -/

namespace Sys2Proof.Proofs

open Sys2Proof.Machine Sys2Proof.Laws

/-! ### Runs of bytes -/

/-- The bytes of a buffer from an index up, one by one. -/
theorem bufBytes_eq_map (s : State) (b : Buffer) (n i : Nat) :
    s.bufBytes b i n = (List.range n).map (fun k => s.bufByte b (i + k)) := by
  induction n generalizing i with
  | zero => rfl
  | succ n ih =>
    simp only [State.bufBytes, ih, List.range_succ_eq_map, List.map_cons, List.map_map, Nat.add_zero]
    refine congrArg _ (List.map_congr_left fun k _ => ?_)
    simp only [Function.comp_apply, Nat.succ_eq_add_one, Nat.add_comm k 1, Nat.add_assoc]

/-- `bytes(i, n)` of the window (00_scope.md R13). -/
theorem windowBytes_eq_refBytes (s : State) (base i stop : Nat) :
    s.windowBytes base i stop = refBytes (s.windowByte base) i (stop - i) := by
  simp only [State.windowBytes, bufBytes_eq_map, refBytes, State.windowByte, State.rx, Nat.add_assoc]

@[simp] theorem refBytes_length (b : Nat → Byte) (i n : Nat) : (refBytes b i n).length = n := by simp [refBytes]

theorem refBytes_succ (b : Nat → Byte) (i n : Nat) : refBytes b i (n + 1) = b i :: refBytes b (i + 1) n := by
  simp only [refBytes, List.range_succ_eq_map, List.map_cons, List.map_map, Nat.add_zero]
  refine congrArg _ (List.map_congr_left fun k _ => ?_)
  simp only [Function.comp_apply, Nat.succ_eq_add_one, Nat.add_comm k 1, Nat.add_assoc]

theorem refBytes_succ_last (b : Nat → Byte) (i n : Nat) : refBytes b i (n + 1) = refBytes b i n ++ [b (i + n)] := by
  simp [refBytes, List.range_succ]

theorem take_refBytes (b : Nat → Byte) (i n m : Nat) : (refBytes b i n).take m = refBytes b i (min m n) := by
  simp [refBytes, ← List.map_take, List.take_range]

/-! ### Big-endian fields -/

/-- A 16-bit field of the window as a number (00_scope.md R13). -/
theorem windowBe16_toNat (s : State) (base i : Nat) :
    (s.windowBe16 base i).toNat = refBe16 (s.windowByte base) i := be16Of_toNat _ _

theorem be16Of_eq_ofNat (b : Nat → Byte) (i : Nat) : be16Of (b i) (b (i + 1)) = BitVec.ofNat 16 (refBe16 b i) := by
  rw [refBe16, ← be16Of_toNat, BitVec.ofNat_toNat, BitVec.setWidth_eq]

/-! ### Checksums -/

/-- The accumulator over a run of a buffer's bytes is their sum (42_checksum16.md R150). -/
theorem ck16_bufBytes (s : State) (b : Buffer) (i n : Nat) :
    ck16 (s.bufBytes b i n) = BitVec.ofNat 32 (refSum (fun k => s.bufByte b (i + k)) n) := by
  rw [ck16_eq_sum, bufBytes_eq_map, List.map_map]
  rfl

/-- The accumulator over the window's first bytes (42_checksum16.md R152). -/
theorem ck16_windowBytes (s : State) (base n : Nat) :
    ck16 (s.windowBytes base 0 n) = BitVec.ofNat 32 (refSum (s.windowByte base) n) :=
  ck16_bufBytes s .rxbuf base n

theorem sum16_ofNat (m : Nat) : sum16 (BitVec.ofNat 32 m) = BitVec.ofNat 16 m := by
  apply BitVec.eq_of_toNat_eq
  simp only [sum16, BitVec.toNat_setWidth, BitVec.toNat_ofNat]
  omega

/-- A sum of bytes is at most 255 for each. -/
theorem refSum_le (b : Nat → Byte) (n : Nat) : refSum b n ≤ 255 * n := by
  induction n with
  | zero => rfl
  | succ n ih =>
    have hlast := (b n).isLt
    simp only [refSum, List.range_succ, List.map_append, List.map_cons, List.map_nil, List.sum_append,
      List.sum_singleton] at ih ⊢
    omega

/-! ### Result words -/

/-- FR_LEN as a number (10_state.md R33). -/
theorem frLenWord_eq_ofNat (lenf : Half) : frLenWord lenf = BitVec.ofNat 32 (65536 + lenf.toNat) := by
  apply BitVec.eq_of_toNat_eq
  simp only [frLenWord, toNat_append_eq_add, BitVec.toNat_ofNat]
  omega

/-- FR_CSUM as a number (10_state.md R34). -/
theorem frCsumWord_eq_ofNat (stored comp : Half) :
    frCsumWord stored comp = BitVec.ofNat 32 (65536 * stored.toNat + comp.toNat) := by
  apply BitVec.eq_of_toNat_eq
  simp only [frCsumWord, toNat_append_eq_add, BitVec.toNat_ofNat]
  omega

/-! ### The frame checks -/

/-- Steps 1 to 6 and the end-marker check of 40_commands.md R107 on the window bytes `b`: the result set of the first
stage that fails (60_exceptions.md R226), or the result set with which the decode goes on. -/
def refChecks (c : Config) (b : Nat → Byte) (len : Nat) (ctrl : Ctrl) : Except DecodeSet DecodeSet :=
  let total := 2 + refBe16 b 2
  let comp := refSum b (total - 4) % 65536
  let stored := refBe16 b (total - 2)
  let measured := { DecodeSet.default with frLen := BitVec.ofNat 32 (65536 + refBe16 b 2) }
  let summed := { measured with
    frCsum := BitVec.ofNat 32 (65536 * stored + comp)
    flags := { Flags.clear with csumBad := decide (comp ≠ stored) } }
  let delimited := { summed with frPend := BitVec.ofNat 32 (total - 9) }
  if len < 20 then .error { DecodeSet.default with result := .short }
  else if b 0 ≠ c.start0 ∨ b 1 ≠ c.start1 then .error { DecodeSet.default with result := .badStart }
  else if len < total then .error { measured with result := .incomplete }
  else if comp ≠ stored ∧ ctrl.csumStrict = true then .error { summed with result := .csumFatal }
  else if total ≤ 20 then .error { summed with result := .noPayload }
  else if ctrl.endCheck = true ∧ b (total - 5) ≠ c.endMarker then .error { delimited with result := .badEnd }
  else .ok delimited

/-- The pipeline is its checks and, where they pass, the payload (40_commands.md R107). -/
theorem refDecode_eq (c : Config) (b : Nat → Byte) (len : Nat) (ctrl : Ctrl) :
    refDecode c b len ctrl =
      match refChecks c b len ctrl with
      | .error d => d
      | .ok d => refPayload c b (refBe16 b 2) (2 + refBe16 b 2) d := by
  simp only [refDecode, refChecks, Nat.mul_comm 65536]
  by_cases hlen : len < 2 + refBe16 b 2
  · simp only [if_pos hlen]
    split_ifs <;> rfl
  · simp only [Nat.min_eq_left (Nat.le_of_not_lt hlen), if_neg hlen]
    split_ifs <;> rfl

/-- The decode whose frame checks passed with the result set `d`. -/
def frameJob (s : State) (ex : Option Extraction) (base : Nat) (d : DecodeSet) : Job :=
  let total := 2 + refBe16 (s.windowByte base) 2
  { startJob ex base (s.windowBe16 base 2) (ck16 (s.windowBytes base 0 (total - 4))) total total
      (s.windowBe16 base (total - 2)) with set := d }

/-- The machine's frame checks are those of the pipeline. -/
theorem frameChecks_eq (s : State) (ctrl : Ctrl) (ex : Option Extraction) (base len : Nat) :
    s.frameChecks ctrl ex base len = (refChecks s.cfg (s.windowByte base) len ctrl).map (frameJob s ex base) := by
  have hcomp (n : Nat) : (sum16 (ck16 (s.windowBytes base 0 n))).toNat = refSum (s.windowByte base) n % 65536 := by
    rw [ck16_windowBytes, sum16_ofNat, BitVec.toNat_ofNat]
  have hbad (n i : Nat) : sum16 (ck16 (s.windowBytes base 0 n)) = s.windowBe16 base i ↔
      refSum (s.windowByte base) n % 65536 = refBe16 (s.windowByte base) i := by
    rw [← BitVec.toNat_inj, hcomp, windowBe16_toNat]
  simp only [State.frameChecks, refChecks, minFrame, frLenWord_eq_ofNat, frCsumWord_eq_ofNat, windowBe16_toNat, hcomp,
    ne_eq, hbad, Bool.and_eq_true, decide_eq_true_eq]
  by_cases hlen : len < 2 + refBe16 (s.windowByte base) 2
  · simp only [if_pos hlen]
    split_ifs <;> rfl
  · simp only [Nat.min_eq_left (Nat.le_of_not_lt hlen), if_neg hlen]
    split_ifs
    case neg =>
      simp only [Except.map, frameJob, startJob, frLenWord_eq_ofNat, frCsumWord_eq_ofNat, windowBe16_toNat, hcomp,
        ne_eq, hbad]
    all_goals rfl

end Sys2Proof.Proofs
end

section
/-! SUPPORT. The payload's values as the pipeline's one function computes them: the cell loop and its statistics
(43_fixed_field.md R160 to R165), the fixed fields (R166 to R176), the entries of extra fields
(44_tagged_field.md R197 to R199). -/

namespace Sys2Proof.Proofs

open Sys2Proof.Machine Sys2Proof.Laws

/-! ### The cell block -/

/-- The cell loop on the entry bytes inside the frame is the loop by window offsets: the declared cells lie inside the
`bc` declared bytes, so the next cell is cut off exactly where the frame ends. -/
theorem cellLoop_eq_refCells (c : Config) (b : Nat → Byte) {eff bc left i : Nat} (hbc : 3 * (i + left) ≤ bc) :
    cellLoop c.maxCells left i (refBytes b (13 + 3 * i) (min bc (eff - 13) - 3 * i)) = refCells c b eff left i := by
  induction left generalizing i with
  | zero => rfl
  | succ left ih =>
    unfold cellLoop refCells
    refine if_congr Iff.rfl rfl ?_
    by_cases hcut : eff < 13 + 3 * i + 3
    · rw [if_pos hcut]
      have hlen : min bc (eff - 13) - 3 * i < 3 := by omega
      generalize min bc (eff - 13) - 3 * i = n at hlen
      match n, hlen with
      | 0, _ => rfl
      | 1, _ => rfl
      | 2, _ => rfl
    · rw [if_neg hcut, show min bc (eff - 13) - 3 * i = min bc (eff - 13) - 3 * (i + 1) + 3 by omega, refBytes_succ,
        refBytes_succ, refBytes_succ]
      simp only
      rw [be16Of_eq_ofNat b (13 + 3 * i + 1), ← ih (by omega)]
      rfl

/-! ### The cell statistics -/

theorem trackMaxStep_toNat (m mv : Half) : (trackMaxStep m mv).toNat = max m.toNat mv.toNat := by
  unfold trackMaxStep
  split <;> omega

/-- The maximum tracker holds the maximum of the values it saw. -/
theorem foldl_trackMax_toNat (cells : List CellEntry) (m : Half) :
    (cells.foldl (fun m e => trackMaxStep m e.mv) m).toNat = max m.toNat (refMax cells) := by
  induction cells generalizing m with
  | nil => exact (Nat.max_zero _).symm
  | cons e cells ih =>
    rw [List.foldl_cons, ih, trackMaxStep_toNat, Nat.max_assoc]
    rfl

/-- `vmax` (43_fixed_field.md R164). -/
theorem cellsMax_toNat (cells : List CellEntry) : (cellsMax cells).toNat = refMax cells := by
  rw [cellsMax, foldl_trackMax_toNat]
  exact Nat.zero_max _

/-- The least value above 0 of a list, 0 where there is none (43_fixed_field.md R164). -/
def minPositive (vs : List Nat) : Nat := (vs.filter (fun v => decide (0 < v))).min?.getD 0

theorem minPositive_cons (v : Nat) (vs : List Nat) :
    minPositive (v :: vs) =
      if v = 0 then minPositive vs else if minPositive vs = 0 then v else min v (minPositive vs) := by
  unfold minPositive
  by_cases hv : v = 0
  · simp [hv]
  · rw [if_neg hv, List.filter_cons_of_pos (by simpa using Nat.pos_of_ne_zero hv), List.min?_cons]
    cases hmin : (vs.filter (fun v => decide (0 < v))).min? with
    | none => rfl
    | some m =>
      have hm := List.of_mem_filter (List.min?_mem hmin)
      have hpos : m ≠ 0 := Nat.pos_iff_ne_zero.mp (of_decide_eq_true hm)
      simp [hpos]

/-- The minimum tracker after a cell stands for itself and the cell's value. -/
theorem minPositive_trackMinStep (m mv : Half) (vs : List Nat) :
    minPositive ((trackMinStep m mv).toNat :: vs) = minPositive (m.toNat :: mv.toNat :: vs) := by
  have hzero (v : Half) : v = 0 ↔ v.toNat = 0 := by rw [← BitVec.toNat_inj]; rfl
  simp only [trackMinStep, hzero, minPositive_cons]
  split_ifs <;> omega

theorem foldl_trackMin_toNat (cells : List CellEntry) (m : Half) :
    (cells.foldl (fun m e => trackMinStep m e.mv) m).toNat = minPositive (m.toNat :: refMv cells) := by
  induction cells generalizing m with
  | nil =>
    have hnil : minPositive [] = 0 := rfl
    rw [List.foldl_nil, refMv, List.map_nil, minPositive_cons, if_pos hnil]
    split
    · next hm => exact hm
    · rfl
  | cons e cells ih =>
    rw [List.foldl_cons, ih, minPositive_trackMinStep]
    rfl

/-- `vmin` (43_fixed_field.md R164). -/
theorem cellsMin_toNat (cells : List CellEntry) : (cellsMin cells).toNat = refMin cells := by
  rw [cellsMin, foldl_trackMin_toNat]
  rfl

/-- The least cell above 0 mV is at most the greatest cell. -/
theorem refMin_le_refMax (cells : List CellEntry) : refMin cells ≤ refMax cells := by
  unfold refMin
  cases hmin : ((refMv cells).filter (fun v => decide (0 < v))).min? with
  | none => exact Nat.zero_le _
  | some v =>
    have hv : v ∈ refMv cells := List.mem_of_mem_filter (List.min?_mem hmin)
    rw [Option.getD_some, refMax]
    exact List.le_max_of_le hv le_rfl

theorem cellHeader_eq_ofNat (tag bc : Byte) :
    cellHeader tag bc = BitVec.ofNat 32 (tag.toNat + 256 * bc.toNat + 65536) := by
  apply BitVec.eq_of_toNat_eq
  simp only [cellHeader, toNat_append_eq_add, BitVec.toNat_ofNat]
  omega

/-- The record after the cell block (43_fixed_field.md R160, R161, R164, R165). -/
theorem withStats_eq_refCellRecord (tag bc : Byte) (cells : List CellEntry) :
    Record.withStats
        { Record.default with ncells := BitVec.ofNat 8 cells.length, cellhdr := cellHeader tag bc }
        cells.length (cellsMin cells) (cellsMax cells) =
      refCellRecord tag bc cells := by
  have hmin : cellsMin cells = BitVec.ofNat 16 (refMin cells) := by
    rw [← cellsMin_toNat, BitVec.ofNat_toNat, BitVec.setWidth_eq]
  have hmax : cellsMax cells = BitVec.ofNat 16 (refMax cells) := by
    rw [← cellsMax_toNat, BitVec.ofNat_toNat, BitVec.setWidth_eq]
  have hdelta : cellsMax cells - cellsMin cells = BitVec.ofNat 16 (refMax cells - refMin cells) := by
    rw [hmin, hmax, BitVec.ofNat_sub_ofNat_of_le _ _ _ (refMin_le_refMax cells)]
    rw [← cellsMin_toNat]
    exact (cellsMin cells).isLt
  simp only [Record.withStats, refCellRecord, List.length_eq_zero_iff, cellHeader_eq_ofNat, hdelta]
  rw [hmin, hmax]

/-! ### The fixed fields -/

/-- `temp(raw)` (43_fixed_field.md R173). -/
theorem temp_eq_refTemp (raw : Half) : temp raw = refTemp raw.toNat := rfl

/-- `current(raw, LENF)` (43_fixed_field.md R175): the sign bit is the value's 32768. -/
theorem current_eq_refCurrent (raw lenf : Half) : current raw lenf = refCurrent raw.toNat lenf.toNat := by
  have hsign : raw.getLsbD 15 = true ↔ 32768 ≤ raw.toNat := by
    rw [← BitVec.msb_eq_getLsbD_last, BitVec.msb_eq_decide, decide_eq_true_iff]
  have hmag : (raw.extractLsb' 0 15).toNat = raw.toNat % 32768 := by
    simp
  have hraw := raw.isLt
  simp only [current, refCurrent, curSplit, curZero, hsign, hmag]
  split_ifs <;> omega

/-! ### Extra-field values -/

/-- `bignum(i, w)` (44_tagged_field.md R198). -/
theorem bignum_refBytes (b : Nat → Byte) (i w : Nat) : bignum (refBytes b i w) = refBignum b i w := by
  induction w with
  | zero => rfl
  | succ w ih =>
    have hshift (j : Nat) (hj : j ∈ List.range w) :
        (b (i + j)).toNat * 256 ^ (w + 1 - 1 - j) = (b (i + j)).toNat * 256 ^ (w - 1 - j) * 256 := by
      have hj := List.mem_range.mp hj
      rw [show w + 1 - 1 - j = w - 1 - j + 1 by omega, Nat.pow_succ, Nat.mul_assoc]
    have hstep : bignum (refBytes b i (w + 1)) = bignum (refBytes b i w) * 256 + (b (i + w)).toNat := by
      rw [refBytes_succ_last, bignum, List.foldl_append]
      rfl
    rw [hstep, ih, refBignum, refBignum, List.range_succ, List.map_append, List.sum_append, List.map_congr_left hshift,
      List.sum_map_mul_right]
    simp

/-- The printable run (44_tagged_field.md R199). -/
theorem printableRun_refBytes (b : Nat → Byte) (i w : Nat) : printableRun (refBytes b i w) = refPrintable b i w := by
  have hprint : printable = fun v => decide (0x20 ≤ v.toNat ∧ v.toNat ≤ 0x7E) := by
    funext v
    exact (Bool.decide_and _ _).symm
  rw [printableRun, refPrintable, hprint]

/-- `entry(t, k, OFF)` (44_tagged_field.md R197). -/
theorem xentry_eq_refEntry (c : Config) (b : Nat → Byte) (row : FctRow) (off : Nat) :
    xentry c row (b off) (refBytes b (off + 1) row.width) = refEntry c b row off := by
  simp only [xentry, refEntry, xeValue, bignum_refBytes, textOf, printableRun_refBytes]
  cases row.kind <;> rfl

/-- TXT_TRUNC of a recorded field (44_tagged_field.md R197, R199). -/
theorem xentryCut_refBytes (c : Config) (b : Nat → Byte) (row : FctRow) (off : Nat) :
    xentryCut c row (refBytes b (off + 1) row.width) =
      decide (row.kind = .text ∧ c.textCap < (refPrintable b (off + 1) row.width).length) := by
  simp only [xentryCut, textCut, printableRun_refBytes]
  cases row.kind <;> simp

end Sys2Proof.Proofs
end

section
/-! SUPPORT. Runs of the machine: a decode's moves one after the other, and what they commit together. -/

namespace Sys2Proof.Proofs

open Sys2Proof.Machine Sys2Proof.Laws

/-! ### Runs -/

/-- Some number of steps, at most `n`, takes `s` to `t`. -/
def ReachesWithin (n : Nat) (s t : State) : Prop := ∃ k, k ≤ n ∧ Host.Core.run Sys2Proof.core k s = .next t

theorem ReachesWithin.refl (s : State) : ReachesWithin 0 s s := ⟨0, Nat.le_refl 0, rfl⟩

theorem ReachesWithin.head {n : Nat} {s u t : State} (hstep : step s = .next u) (h : ReachesWithin n u t) :
    ReachesWithin (n + 1) s t := by
  obtain ⟨k, hk, hrun⟩ := h
  refine ⟨k + 1, Nat.succ_le_succ hk, ?_⟩
  have hcore : Sys2Proof.core.step s = .next u := hstep
  simp only [Host.Core.run, hcore]
  exact hrun

theorem ReachesWithin.mono {n m : Nat} {s t : State} (h : ReachesWithin n s t) (hle : n ≤ m) : ReachesWithin m s t := by
  obtain ⟨k, hk, hrun⟩ := h
  exact ⟨k, hk.trans hle, hrun⟩

theorem reachesWithin_of_step {n : Nat} {s t : State} (hstep : step s = .next t) : ReachesWithin (n + 1) s t :=
  (ReachesWithin.head hstep (.refl t)).mono (by omega)

/-! ### Steps of the engine -/

/-- A step with no event pending, where bits stand that are no instruction. -/
theorem step_of_fetch_error {s : State} {r : Reject} (hc : s.cfg.legal = true) (hi : s.inputs = [])
    (hf : s.fetch = some (.error r)) : step s = s.engineMovesOn r := by
  simp [step, nextEvent, engineStep, hc, hi, hf]

/-- A step with no event pending, where the engine stands at no instruction. -/
theorem step_of_fetch_none {s : State} (hc : s.cfg.legal = true) (hi : s.inputs = []) (hf : s.fetch = none) :
    step s = s.engineMovesOn .outsideFrame := by
  simp [step, nextEvent, engineStep, hc, hi, hf]

theorem fetch_cells {s : State} {f : InFlight} {j : Job} (hf : s.inflight = some f) (hp : f.phase = .cells j) :
    s.fetch = some (s.fetchElement .cellBlock j) := by
  simp [State.fetch, hf, hp]

/-- An element is fetched from the bytes of the window, whatever the engine's phase. -/
theorem fetchElement_withPhase (s : State) (f : InFlight) (p : Phase) (sl : Slot) (j : Job) :
    (s.withPhase f p).fetchElement sl j =
      decodeElement s.cfg sl (refBytes (s.windowByte j.base) j.off (j.eff - j.off)) := by
  rw [State.fetchElement, State.elementBytes, windowBytes_eq_refBytes]
  rfl

theorem commitDecode_withPhase (s : State) (f : InFlight) (p : Phase) (ex : Option Extraction) (d : DecodeSet) :
    commitDecode ex d (s.withPhase f p) = commitDecode ex d s := by
  cases ex <;> rfl

/-! ### The fixed fields -/

/-- A decode with another OFF and another record. -/
def withOffRecord (j : Job) (p : Nat × Record) : Job := { j with off := p.1, set := { j.set with record := p.2 } }

/-- The fixed fields of the list attempted one after the other (43_fixed_field.md R166). -/
def fixedRun (c : Config) (b : Nat → Byte) (ks : List FixedField) (j : Job) : Job :=
  withOffRecord j (refFixed c b j.eff j.lenf.toNat ks (j.off, j.set.record))

theorem fixedRun_cons (c : Config) (b : Nat → Byte) (k : FixedField) (ks : List FixedField) (j : Job) :
    fixedRun c b (k :: ks) j = fixedRun c b ks (fixedRun c b [k] j) := by
  simp only [fixedRun, refFixed, withOffRecord]
  split_ifs <;> rfl

/-! The fixed fields' meanings, by the value each stores. -/

theorem exec_fixTmos (raw : Half) (s : State) : exec (.fixTmos raw) s =
    runFixed .tmos (fun j => { j.set.record with tmos := signed32 (temp raw) }) s := rfl

theorem exec_fixTp1 (raw : Half) (s : State) : exec (.fixTp1 raw) s =
    runFixed .tp1 (fun j => { j.set.record with tp1 := signed32 (temp raw) }) s := rfl

theorem exec_fixTp2 (raw : Half) (s : State) : exec (.fixTp2 raw) s =
    runFixed .tp2 (fun j => { j.set.record with tp2 := signed32 (temp raw) }) s := rfl

theorem exec_fixVpack (raw : Half) (s : State) : exec (.fixVpack raw) s =
    runFixed .vpack (fun j => { j.set.record with vpack := vpack raw }) s := rfl

theorem exec_fixIpack (raw : Half) (s : State) : exec (.fixIpack raw) s =
    runFixed .ipack (fun j => { j.set.record with ipack := signed32 (current raw j.lenf) }) s := rfl

theorem exec_fixSoc (raw : Byte) (s : State) : exec (.fixSoc raw) s =
    runFixed .soc (fun j => { j.set.record with soc := soc raw }) s := rfl

/-- A matched fixed field stores its value and its REC_FIXVALID bit, and OFF passes it (43_fixed_field.md R166). -/
theorem runFixed_withPhase {s : State} (f : InFlight) {k : FixedField} {j : Job} {write : Job → Record} {r : Record}
    (hr : { write j with fixvalid := setFixvalid (write j).fixvalid k } = r) :
    runFixed k write (s.withPhase f (.fixed k j)) =
      .next (s.withPhase f (phaseAfterFixed k (withOffRecord j (j.off + 1 + k.width, r)))) := by
  subst hr
  exact runFixed_next.mpr ⟨{ f with phase := .fixed k j }, j, rfl, rfl, rfl⟩

/-- Where a fixed field's value lies inside the frame its instruction is read, and stores the value. -/
theorem exec_fixedInstr {s : State} (f : InFlight) {k : FixedField} {j : Job} {b : Nat → Byte} {n : Nat}
    (hn : k.width ≤ n) :
    ∃ i, fixedInstr k (refBytes b (j.off + 1) n) = some i ∧
      exec i (s.withPhase f (.fixed k j)) =
        .next (s.withPhase f (phaseAfterFixed k (withOffRecord j (j.off + 1 + k.width,
          refFixedWrite k (refRaw b k j.off) j.lenf.toNat j.set.record)))) := by
  have hpair (hw : k.width = 2) : ∃ rest, refBytes b (j.off + 1) n = b (j.off + 1) :: b (j.off + 1 + 1) :: rest := by
    obtain ⟨m, rfl⟩ := Nat.exists_eq_add_of_le' (hw ▸ hn)
    exact ⟨_, by rw [refBytes_succ, refBytes_succ]⟩
  have hraw : (be16Of (b (j.off + 1)) (b (j.off + 1 + 1))).toNat = refBe16 b (j.off + 1) := be16Of_toNat _ _
  have hvpack : vpack (be16Of (b (j.off + 1)) (b (j.off + 1 + 1))) = BitVec.ofNat 16 (refBe16 b (j.off + 1)) :=
    be16Of_eq_ofNat b _
  cases k with
  | tmos | tp1 | tp2 | vpack | ipack =>
    obtain ⟨rest, hbytes⟩ := hpair rfl
    rw [hbytes]
    refine ⟨_, rfl, ?_⟩
    simp only [exec_fixTmos, exec_fixTp1, exec_fixTp2, exec_fixVpack, exec_fixIpack]
    refine runFixed_withPhase f ?_
    simp only [temp_eq_refTemp, current_eq_refCurrent, hraw, hvpack]
    rfl
  | soc =>
    obtain ⟨m, rfl⟩ := Nat.exists_eq_add_of_le' hn
    refine ⟨.fixSoc (b (j.off + 1)), by rw [FixedField.width, refBytes_succ]; rfl, ?_⟩
    rw [exec_fixSoc]
    refine runFixed_withPhase f ?_
    simp [soc, refFixedWrite, refRaw, FixedField.width, setFixvalid]

/-- `ks` are the fixed fields after `k`, in their order (30_encoding.md R88). -/
def FieldsAfter : FixedField → List FixedField → Prop
  | k, [] => nextField k = none
  | k, k' :: ks => nextField k = some k' ∧ FieldsAfter k' ks

/-- The decode that enters the extra-field run, FR_XOFF written (44_tagged_field.md R192). -/
def enterExtra (j : Job) : Job := { j with set := { j.set with frXoff := BitVec.ofNat 32 j.off } }

/-! ### The extra-field run -/

/-- What the extra-field run of a decode holds. -/
def runOf (j : Job) : RefRun where
  off := j.off
  xe := j.set.xe
  flags := j.set.flags

/-- The working registers of a decode agree with its lists: n and X count them, SEEN holds the recorded tags. -/
structure Tracks (j : Job) : Prop where
  pe_lt : j.pe < j.eff
  n_eq : j.n = j.set.cells.length
  x_eq : j.x = j.set.xe.length
  mem_seen : ∀ t, t ∈ j.seen ↔ t ∈ j.set.xe.map (fun e => e.tag)

/-- The loop test as the pipeline writes it (44_tagged_field.md R193). -/
theorem extraGoesOn_iff {j : Job} (h : Tracks j) (c : Config) :
    extraGoesOn c j = true ↔ j.off < j.pe ∧ j.set.xe.length < c.maxExtra := by
  rw [extraGoesOn, Bool.and_eq_true, decide_eq_true_eq, decide_eq_true_eq, h.x_eq]

/-- What a decode commits whose extra-field run ends as `r` (44_tagged_field.md R200, 43_fixed_field.md R177). -/
def committedRun (c : Config) (j : Job) (r : RefRun) : DecodeSet :=
  { j.set with
    record := { j.set.record with nextra := BitVec.ofNat 8 r.xe.length }
    xe := r.xe
    frEoff := BitVec.ofNat 32 r.off
    flags := { r.flags with xcap := decide (r.xe.length = c.maxExtra ∧ r.off < j.pe) }
    result := if j.set.cells = [] then .noCells else .ok
    valid := decide (j.set.cells ≠ []) }

/-- Completion commits the run as it stands. -/
theorem completed_eq_committedRun (c : Config) {j : Job} (h : Tracks j) :
    completed c j = committedRun c j (runOf j) := by
  have hn : 1 ≤ j.n ↔ j.set.cells ≠ [] := by rw [h.n_eq, Nat.one_le_iff_ne_zero, ne_eq, List.length_eq_zero_iff]
  have hresult : (if 1 ≤ j.n then ResultCode.ok else .noCells) = if j.set.cells = [] then .noCells else .ok := by
    simp only [hn, ne_eq, ite_not]
  have hxcap : xcapAtEnd c j = decide (j.set.xe.length = c.maxExtra ∧ j.off < j.pe) := by
    rw [xcapAtEnd, h.x_eq]
    exact (Bool.decide_and _ _).symm
  rw [completed, hresult, hxcap, h.x_eq, decide_eq_decide.mpr hn]
  rfl

/-- The value bytes of the extra field at OFF that lie inside the frame (44_tagged_field.md R193). -/
def valueBytes (c : Config) (b : Nat → Byte) (j : Job) : List Byte :=
  refBytes b (j.off + 1) (min (elementWidth c (b j.off)) (j.eff - (j.off + 1)))

/-! ### The steps of a decode -/

section
variable {s : State} (hc : s.cfg.legal = true) (hi : s.inputs = []) (f : InFlight)
include hc hi

/-- The cell block's step: its tag, its byte count and the entry bytes inside the frame stand at offset 11. -/
theorem step_cells {j : Job} (hoff : j.off = 11) (heff : 13 ≤ j.eff) {b : Nat → Byte} (hb : b = s.windowByte j.base) :
    step (s.withPhase f (.cells j)) =
      .next (s.withPhase f (.fixed .tmos
        (cellStage s.cfg (b 11) (b 12) (refBytes b 13 (min (b 12).toNat (j.eff - 13))) j))) := by
  have hfetch : (s.withPhase f (.cells j)).fetch =
      some (.ok (.cellBlock (b 11) (b 12) (refBytes b 13 (min (b 12).toNat (j.eff - 13))))) := by
    rw [fetch_cells rfl rfl, fetchElement_withPhase, ← hb, hoff, show j.eff - 11 = j.eff - 13 + 1 + 1 by omega,
      refBytes_succ, refBytes_succ, decodeElement, take_refBytes]
  rw [step_of_fetch (s := s.withPhase f _) hc hi hfetch]
  exact execCellBlock_next (s := s.withPhase f _).mpr ⟨{ f with phase := .cells j }, j, rfl, rfl, rfl⟩

/-- The step at a fixed field: the attempt of 43_fixed_field.md R166. -/
theorem step_fixed (k : FixedField) {j : Job} {b : Nat → Byte} (hb : b = s.windowByte j.base) :
    step (s.withPhase f (.fixed k j)) = .next (s.withPhase f (phaseAfterFixed k (fixedRun s.cfg b [k] j))) := by
  have hfetch : (s.withPhase f (.fixed k j)).fetch =
      some (decodeElement s.cfg (.fixed k) (refBytes b j.off (j.eff - j.off))) := by
    rw [fetch_fixed rfl rfl, fetchElement_withPhase, hb]
  by_cases hmatch : j.off + k.width < j.eff ∧ b j.off = s.cfg.fixedTag k
  · obtain ⟨hin, htag⟩ := hmatch
    obtain ⟨i, hread, hexec⟩ := exec_fixedInstr f (j := j) (b := b) (n := j.eff - (j.off + 1)) (k := k) (by omega)
    rw [show j.eff - j.off = j.eff - (j.off + 1) + 1 by omega, refBytes_succ,
      decodeElement_fixed_iff.mpr ⟨htag, hread⟩] at hfetch
    rw [step_of_fetch (s := s.withPhase f _) hc hi hfetch, hexec, fixedRun, refFixed, if_pos ⟨hin, htag⟩, refFixed]
  · have hrun : fixedRun s.cfg b [k] j = j := by
      rw [fixedRun, refFixed, if_neg hmatch]
      rfl
    cases hdec : decodeElement s.cfg (.fixed k) (refBytes b j.off (j.eff - j.off)) with
    | ok i =>
      refine absurd ?_ hmatch
      have hin : j.off < j.eff := by
        by_contra hout
        rw [show j.eff - j.off = 0 by omega] at hdec
        cases hdec
      rw [show j.eff - j.off = j.eff - (j.off + 1) + 1 by omega, refBytes_succ] at hdec
      obtain ⟨htag, hread⟩ := decodeElement_fixed_iff.mp hdec
      have hlen := (fixedInstr_some hread).1
      rw [refBytes_length] at hlen
      exact ⟨by omega, htag⟩
    | error r =>
      rw [hdec] at hfetch
      rw [step_of_fetch_error (s := s.withPhase f _) hc hi hfetch, hrun]
      rfl

/-- The fixed fields from `k` on are attempted in one step each. -/
theorem reaches_of_fixed {t : State} {n : Nat} {b : Nat → Byte} (ks : List FixedField) {k : FixedField} {j : Job} (hk : FieldsAfter k ks)
    (hb : b = s.windowByte j.base)
    (h : ReachesWithin n (s.withPhase f (.extra (enterExtra (fixedRun s.cfg b (k :: ks) j)))) t) :
    ReachesWithin (n + (ks.length + 1)) (s.withPhase f (.fixed k j)) t := by
  induction ks generalizing k j with
  | nil =>
    have hlast : phaseAfterFixed k (fixedRun s.cfg b [k] j) = .extra (enterExtra (fixedRun s.cfg b [k] j)) := by
      rw [phaseAfterFixed, show nextField k = none from hk]
      rfl
    exact .head ((step_fixed hc hi f k hb).trans (by rw [hlast])) h
  | cons k' ks ih =>
    obtain ⟨hnext, hrest⟩ := hk
    rw [fixedRun_cons] at h
    have hphase : phaseAfterFixed k (fixedRun s.cfg b [k] j) = .fixed k' (fixedRun s.cfg b [k] j) := by
      rw [phaseAfterFixed, hnext]
    exact .head ((step_fixed hc hi f k hb).trans (by rw [hphase])) (ih hrest (j := fixedRun s.cfg b [k] j) hb h)

/-- The step of a decode at the end of its run. -/
theorem step_completes {j : Job} (hj : Tracks j) {p : Phase}
    (hp : (p = .extra j ∧ extraGoesOn s.cfg j = false) ∨ p = .finish j) :
    step (s.withPhase f p) = .next (commitDecode j.extraction (committedRun s.cfg j (runOf j)) s) := by
  rw [← completed_eq_committedRun s.cfg hj]
  rcases hp with ⟨rfl, hstop⟩ | rfl
  · have hfetch : (s.withPhase f (.extra j)).fetch = none := by
      rw [fetch_extra rfl rfl]
      exact if_neg (by rw [withPhase_cfg, hstop]; decide)
    rw [step_of_fetch_none (s := s.withPhase f _) hc hi hfetch, ← commitDecode_withPhase s f (.extra j)]
    rfl
  · rw [step_of_fetch_none (s := s.withPhase f _) hc hi rfl, ← commitDecode_withPhase s f (.finish j)]
    rfl

/-- The step of a pass of the extra-field run. -/
theorem step_extra {j : Job} (hj : Tracks j) (hgo : extraGoesOn s.cfg j = true) {b : Nat → Byte}
    (hb : b = s.windowByte j.base) :
    step (s.withPhase f (.extra j)) =
      .next (s.withPhase f (extraPhase s.cfg (b j.off) (valueBytes s.cfg b j) j)) := by
  have hoff : j.off < j.pe := ((extraGoesOn_iff hj s.cfg).mp hgo).1
  have hlt := hj.pe_lt
  have hfetch : (s.withPhase f (.extra j)).fetch = some (.ok (.xfield (b j.off) (valueBytes s.cfg b j))) := by
    rw [fetch_extra rfl rfl, withPhase_cfg, if_pos hgo, fetchElement_withPhase, ← hb,
      show j.eff - j.off = j.eff - (j.off + 1) + 1 by omega, refBytes_succ, decodeElement, take_refBytes]
    rfl
  rw [step_of_fetch (s := s.withPhase f _) hc hi hfetch]
  exact execXfield_next (s := s.withPhase f _).mpr ⟨{ f with phase := .extra j }, j, rfl, rfl, rfl⟩

end

end Sys2Proof.Proofs
end

section
/-! SUPPORT. DECODE and EXTRACT_DECODE, run element by element, commit what the pipeline computes as one function. -/

namespace Sys2Proof.Proofs

open Sys2Proof.Machine Sys2Proof.Laws

/-! ### The extra-field run -/

/-- The width of a tag that has a row (30_encoding.md R89). -/
theorem elementWidth_of_fctLookup {c : Config} {t : Byte} {k : Nat} {row : FctRow}
    (h : fctLookup c t = some (k, row)) : elementWidth c t = row.width := by
  rw [elementWidth, h]

/-- OFF and the flags are no lists. -/
theorem tracks_of_off_flags {j : Job} (h : Tracks j) (off : Nat) (flags : Flags) :
    Tracks { j with off := off, set := { j.set with flags := flags } } :=
  ⟨h.pe_lt, h.n_eq, h.x_eq, h.mem_seen⟩

theorem tracks_recordField {j : Job} (h : Tracks j) (c : Config) (row : FctRow) (t : Byte) (value : List Byte) :
    Tracks (recordField c row t value j) where
  pe_lt := h.pe_lt
  n_eq := h.n_eq
  x_eq := by simp [recordField, h.x_eq]
  mem_seen u := by simp [recordField, h.mem_seen, xentry, or_comm]

section
variable (c : Config) (b : Nat → Byte) (fuel : Nat) {j : Job}

/-- The pipeline's loop where its test fails. -/
theorem refExtra_stops (hgo : ¬ (j.off < j.pe ∧ j.set.xe.length < c.maxExtra)) :
    refExtra c b j.pe j.eff (fuel + 1) (runOf j) = runOf j := by
  simp only [refExtra, runOf, hgo, ↓reduceIte]

variable (hgo : j.off < j.pe ∧ j.set.xe.length < c.maxExtra)
include hgo

/-- The pipeline's pass at an unknown tag (44_tagged_field.md R194). -/
theorem refExtra_unknown (hrow : fctLookup c (b j.off) = none) :
    refExtra c b j.pe j.eff (fuel + 1) (runOf j) = refExtra c b j.pe j.eff fuel (runOf (skipUnknown j)) := by
  simp only [refExtra, runOf, hgo, and_self, hrow, ↓reduceIte]
  rfl

variable (hj : Tracks j) {k : Nat} {row : FctRow} (hrow : fctLookup c (b j.off) = some (k, row))
include hj hrow

/-- The pipeline's pass at a duplicate (44_tagged_field.md R195). -/
theorem refExtra_duplicate (hseen : b j.off ∈ j.seen) :
    refExtra c b j.pe j.eff (fuel + 1) (runOf j) =
      refExtra c b j.pe j.eff fuel (runOf (skipDuplicate row.width j)) := by
  rw [hj.mem_seen] at hseen
  simp only [refExtra, runOf, hgo, and_self, hrow, hseen, ↓reduceIte]
  rfl

/-- The pipeline's pass at a field that reaches the end of the frame (44_tagged_field.md R196). -/
theorem refExtra_overrun (hnew : b j.off ∉ j.seen) (hover : j.eff ≤ j.off + row.width) :
    refExtra c b j.pe j.eff (fuel + 1) (runOf j) = runOf (overrun j) := by
  rw [hj.mem_seen] at hnew
  simp only [refExtra, runOf, hgo, and_self, hrow, hnew, hover, ↓reduceIte]
  rfl

/-- The pipeline's pass at a field that is recorded (44_tagged_field.md R197). -/
theorem refExtra_recorded (hnew : b j.off ∉ j.seen) (hinside : ¬ j.eff ≤ j.off + row.width) :
    refExtra c b j.pe j.eff (fuel + 1) (runOf j) =
      refExtra c b j.pe j.eff fuel
        (runOf (recordField c row (b j.off) (refBytes b (j.off + 1) row.width) j)) := by
  rw [hj.mem_seen] at hnew
  simp only [refExtra, runOf, hgo, and_self, hrow, hnew, hinside, ↓reduceIte, recordField, xentry_eq_refEntry,
    Flags.orTxtTrunc, xentryCut_refBytes]
  rfl

end

/-- The extra-field run from its loop test on commits what the pipeline's loop computes; every pass but an overrun
advances OFF, so the bytes up to PE bound the passes. -/
theorem reaches_of_extra {s : State} (hc : s.cfg.legal = true) (hi : s.inputs = []) (f : InFlight) {b : Nat → Byte}
    {fuel : Nat} {j : Job} (hj : Tracks j) (hb : b = s.windowByte j.base) (hfuel : j.pe - j.off ≤ fuel) :
    ReachesWithin (fuel + 1) (s.withPhase f (.extra j))
      (commitDecode j.extraction (committedRun s.cfg j (refExtra s.cfg b j.pe j.eff fuel (runOf j))) s) := by
  induction fuel generalizing j with
  | zero =>
    have hstop : extraGoesOn s.cfg j = false := by
      rw [← Bool.not_eq_true, extraGoesOn_iff hj]
      omega
    exact reachesWithin_of_step (step_completes hc hi f hj (.inl ⟨rfl, hstop⟩))
  | succ fuel ih =>
    by_cases hgo : j.off < j.pe ∧ j.set.xe.length < s.cfg.maxExtra
    · have hin : j.off + 1 ≤ j.eff := by have := hj.pe_lt; omega
      have hstep := step_extra hc hi f hj ((extraGoesOn_iff hj s.cfg).mpr hgo) hb
      rcases extraPhase_cases s.cfg (b j.off) (valueBytes s.cfg b j) j with ⟨hrow, hphase⟩ |
        ⟨k, row, hrow, hseen, hphase⟩ | ⟨k, row, hrow, hnew, hshort, hphase⟩ | ⟨k, row, hrow, hnew, hwhole, hphase⟩ <;>
        rw [hphase] at hstep
      case inl =>
        rw [refExtra_unknown s.cfg b fuel hgo hrow]
        exact .head hstep (ih (j := skipUnknown j) (tracks_of_off_flags hj ..) hb
          (by simp only [skipUnknown]; omega))
      case inr.inl =>
        rw [refExtra_duplicate s.cfg b fuel hgo hj hrow hseen]
        exact .head hstep (ih (j := skipDuplicate row.width j) (tracks_of_off_flags hj ..) hb
          (by simp only [skipDuplicate]; omega))
      case inr.inr.inl =>
        rw [valueBytes, refBytes_length, elementWidth_of_fctLookup hrow] at hshort
        rw [refExtra_overrun s.cfg b fuel hgo hj hrow hnew (by omega)]
        exact .head hstep (reachesWithin_of_step (step_completes hc hi f
          (j := overrun j) (tracks_of_off_flags hj ..) (.inr rfl)))
      case inr.inr.inr =>
        rw [valueBytes, refBytes_length, elementWidth_of_fctLookup hrow] at hwhole
        have hinside : ¬ j.eff ≤ j.off + row.width := by omega
        have htake : (valueBytes s.cfg b j).take row.width = refBytes b (j.off + 1) row.width := by
          rw [valueBytes, take_refBytes, elementWidth_of_fctLookup hrow, Nat.min_eq_left hwhole]
        rw [htake] at hstep
        rw [refExtra_recorded s.cfg b fuel hgo hj hrow hnew hinside]
        exact .head hstep (ih (tracks_recordField hj ..) hb (by simp only [recordField]; omega))
    · have hstop : extraGoesOn s.cfg j = false := by rwa [← Bool.not_eq_true, extraGoesOn_iff hj]
      rw [refExtra_stops s.cfg b fuel hgo]
      exact reachesWithin_of_step (step_completes hc hi f hj (.inl ⟨rfl, hstop⟩))

/-! ### The payload -/

/-- A decode after its cell block, in the pipeline's terms (43_fixed_field.md R160 to R165). -/
def afterCells (c : Config) (b : Nat → Byte) (j : Job) : Job :=
  let run := refCells c b j.eff ((b 12).toNat / 3) 0
  { j with
    off := 13 + (b 12).toNat
    n := run.cells.length
    trackMin := cellsMin run.cells
    trackMax := cellsMax run.cells
    set := { j.set with
      record := refCellRecord (b 11) (b 12) run.cells
      cells := run.cells
      flags := { j.set.flags with
        celltagBad := decide (b 11 ≠ c.cellTag), cellCap := run.cap, cellShort := run.short } } }

/-- The cell block read from the window, of a decode whose record is still the default. -/
theorem cellStage_eq_afterCells (c : Config) (b : Nat → Byte) {j : Job} (hrec : j.set.record = Record.default) :
    cellStage c (b 11) (b 12) (refBytes b 13 (min (b 12).toNat (j.eff - 13))) j = afterCells c b j := by
  have hrun : cellLoop c.maxCells ((b 12).toNat / 3) 0 (refBytes b 13 (min (b 12).toNat (j.eff - 13))) =
      refCells c b j.eff ((b 12).toNat / 3) 0 :=
    cellLoop_eq_refCells c b (i := 0) (by omega)
  simp only [cellStage, hrun, hrec, withStats_eq_refCellRecord]
  rfl

/-- A decode that enters its extra-field run, the cell block and the fixed fields behind it. -/
def afterFields (c : Config) (b : Nat → Byte) (j : Job) : Job :=
  enterExtra (fixedRun c b fixedOrder (afterCells c b j))

/-- The pipeline's payload is what the extra-field run behind the fields commits. -/
theorem refPayload_eq_committedRun (c : Config) (b : Nat → Byte) {j : Job} (hpe : j.pe = j.eff - 9)
    (hxe : j.set.xe = []) :
    refPayload c b j.lenf.toNat j.eff j.set =
      committedRun c (afterFields c b j) (refExtra c b j.pe j.eff (j.eff - 9) (runOf (afterFields c b j))) := by
  simp only [refPayload, committedRun, afterFields, enterExtra, fixedRun, withOffRecord, afterCells, runOf, hpe, hxe]

/-- The cell block and the fixed fields count the cells, and leave X and SEEN with the entries. -/
theorem tracks_afterFields (c : Config) (b : Nat → Byte) {j : Job} (hpe : j.pe < j.eff)
    (hx : j.x = j.set.xe.length) (hseen : ∀ t, t ∈ j.seen ↔ t ∈ j.set.xe.map (fun e => e.tag)) :
    Tracks (afterFields c b j) :=
  ⟨hpe, rfl, hx, hseen⟩

/-- A decode whose frame checks passed commits what the pipeline computes from the payload (40_commands.md R107). -/
theorem reaches_of_cells {s : State} (hc : s.cfg.legal = true) (hi : s.inputs = []) (f : InFlight) {j : Job}
    (hmin : 21 ≤ j.eff) (hpe : j.pe = j.eff - 9) (hoff : j.off = 11) (hx : j.x = 0) (hseen : j.seen = [])
    (hrec : j.set.record = Record.default) (hxe : j.set.xe = []) {b : Nat → Byte} (hb : b = s.windowByte j.base) :
    ReachesWithin j.eff (s.withPhase f (.cells j))
      (commitDecode j.extraction (refPayload s.cfg b j.lenf.toNat j.eff j.set) s) := by
  have hcells := step_cells hc hi f hoff (by omega) hb
  rw [cellStage_eq_afterCells s.cfg b hrec] at hcells
  have hfields : FieldsAfter .tmos [.tp1, .tp2, .vpack, .ipack, .soc] := ⟨rfl, rfl, rfl, rfl, rfl, rfl⟩
  have htracks : Tracks (afterFields s.cfg b j) := tracks_afterFields s.cfg b (by omega) (by rw [hx, hxe]; rfl)
    (by simp [hseen, hxe])
  have hrun := reaches_of_extra hc hi f (fuel := j.eff - 9) htracks hb
    (Nat.le_trans (Nat.sub_le _ _) (Nat.le_of_eq hpe))
  rw [refPayload_eq_committedRun s.cfg b hpe hxe]
  exact (ReachesWithin.head hcells (reaches_of_fixed hc hi f _ hfields hb hrun)).mono
    (by simp only [List.length_cons, List.length_nil]; omega)

/-- The checks hand on the default record and an empty XE, for a frame that lies inside the window. -/
theorem refChecks_ok {c : Config} {b : Nat → Byte} {len : Nat} {ctrl : Ctrl} {d : DecodeSet}
    (h : refChecks c b len ctrl = .ok d) :
    21 ≤ 2 + refBe16 b 2 ∧ 2 + refBe16 b 2 ≤ len ∧ d.record = Record.default ∧ d.xe = [] := by
  simp only [refChecks] at h
  split_ifs at h
  cases h
  exact ⟨by omega, by omega, rfl, rfl⟩

/-- A decode begun on a window commits the pipeline's result on the window's bytes. -/
theorem reaches_of_startDecode {s : State} (hc : s.cfg.legal = true) (hi : s.inputs = []) (f : InFlight)
    (ex : Option Extraction) (base len : Nat) :
    ReachesWithin len (s.startDecode f ex base len)
      (commitDecode ex (refDecode s.cfg (s.windowByte base) len f.snap.ctrl) s) := by
  rw [State.startDecode, frameChecks_eq, refDecode_eq]
  cases hchecks : refChecks s.cfg (s.windowByte base) len f.snap.ctrl with
  | error d => exact (ReachesWithin.refl _).mono (Nat.zero_le len)
  | ok d =>
    obtain ⟨hmin, hlen, hrec, hxe⟩ := refChecks_ok hchecks
    have hlenf : (frameJob s ex base d).lenf.toNat = refBe16 (s.windowByte base) 2 := windowBe16_toNat s base 2
    have hrun := reaches_of_cells hc hi f (j := frameJob s ex base d) hmin rfl rfl rfl rfl hrec hxe rfl
    rw [hlenf] at hrun
    exact hrun.mono hlen

/-- Settles O59: the step that begins the decode, then the run of the decode. -/
theorem decodeRefinesPipeline : Obligations.DecodeRefinesPipeline := by
  intro s f hc hi hf hp hw
  have hfetch : s.fetch = some (.ok .decode) := by rw [fetch_accepted hf hp, hw]; decide
  have hstep : step s = .next (s.startDecode f none f.snap.winBase.toNat f.snap.winLen.toNat) :=
    (step_of_fetch hc hi hfetch).trans (runCommand_accepted _ hf hp)
  exact (ReachesWithin.head hstep (reaches_of_startDecode hc hi f none _ _)).mono (by omega)

/-! ### EXTRACT_DECODE -/

/-- The extractor strips one leading copy of the command (41_frame_boundary.md R130). -/
theorem extraction_of_echo {s : State} {len : Word} (hlen : 21 < len.toNat) (heq : ∀ i, i < 21 → s.rx i = s.cb i) :
    s.extraction len = { base := 21, len := len - 21, echo := true } := by
  have hmatch : s.echoMatches 0 cmdLen = true := (echoMatches_iff s _ _).mpr fun k hk => by
    rw [Nat.zero_add]
    exact heq k hk
  have hsub : BitVec.ofNat 32 (len.toNat - cmdLen) = len - 21 := by
    apply BitVec.eq_of_toNat_eq
    simp only [cmdLen]
    bv_omega
  have hcond : cmdLen ≤ len.toNat ∧ 0 < len.toNat - cmdLen := by
    simp only [cmdLen]
    omega
  simp only [State.extraction, hmatch, hcond, hsub, decide_true, Bool.and_self, if_true]
  rfl

/-- Without such a copy, or with nothing behind it, the window is the whole buffer (41_frame_boundary.md R130). -/
theorem extraction_of_no_echo {s : State} {len : Word}
    (h : ¬ (21 < len.toNat ∧ ∀ i, i < 21 → s.rx i = s.cb i)) :
    s.extraction len = { base := 0, len := len, echo := false } := by
  unfold State.extraction
  refine if_neg fun hcond => h ?_
  simp only [Bool.and_eq_true, decide_eq_true_eq, echoMatches_iff, Nat.zero_add] at hcond
  obtain ⟨⟨-, heq⟩, hbehind⟩ := hcond
  simp only [cmdLen] at heq hbehind
  exact ⟨by omega, heq⟩

/-- Settles O60: the step that begins the decode on the extractor's window, then the run of the decode. -/
theorem extractDecodeRefinesPipeline : Obligations.ExtractDecodeRefinesPipeline := by
  intro s f hc hi hf hp hw n echoes
  have hfetch : s.fetch = some (.ok .extractDecode) := by rw [fetch_accepted hf hp, hw]; decide
  have hstep : step s = .next (s.startDecode f (some (s.extraction f.snap.rxLen))
      (s.extraction f.snap.rxLen).base.toNat (s.extraction f.snap.rxLen).len.toNat) :=
    (step_of_fetch hc hi hfetch).trans (runCommand_accepted _ hf hp)
  have hrun := ReachesWithin.head hstep (reaches_of_startDecode hc hi f _ _ _)
  refine ⟨fun hecho => ?_, fun hecho => ?_⟩
  · rw [extraction_of_echo hecho.1 hecho.2] at hrun
    have hlen : (f.snap.rxLen - 21).toNat = n - 21 := by
      have hn : 21 < f.snap.rxLen.toNat := hecho.1
      bv_omega
    rw [hlen] at hrun
    exact hrun.mono (by omega)
  · rw [extraction_of_no_echo hecho] at hrun
    have hwindow : s.windowByte 0 = s.rx := funext fun i => by rw [State.windowByte, Nat.zero_add]
    have hbase : BitVec.toNat (0 : Word) = 0 := rfl
    rw [hbase, hwindow] at hrun
    exact hrun.mono (Nat.add_le_add_left (by decide) n)

end Sys2Proof.Proofs
end

section
/-! SUPPORT. The commands: what each commits, what a soft failure commits, what LOOKUP finds. -/

namespace Sys2Proof.Proofs

open Sys2Proof.Machine Sys2Proof.Laws

/-! ### Out of turn -/

theorem runCommand_refused {s : State} (body : InFlight → State)
    (h : ∀ f, s.inflight = some f → f.phase ≠ .accepted) : runCommand s body = .refused .noAcceptedCommand := by
  have hnone : s.acceptedCommand = none := Option.eq_none_iff_forall_ne_some.mpr fun f hf => by
    obtain ⟨hin, hp⟩ := acceptedCommand_eq_some.mp hf
    exact h f hin hp
  rw [runCommand, hnone]

theorem runFixed_refused {s : State} {k : FixedField} (write : Job → Record)
    (h : ∀ f, s.inflight = some f → ∀ j, f.phase ≠ .fixed k j) : runFixed k write s = .refused .notAtElement := by
  have hnone : s.atFixed k = none := Option.eq_none_iff_forall_ne_some.mpr fun ⟨f, j⟩ hf => by
    obtain ⟨hin, hp⟩ := atFixed_eq_some.mp hf
    exact h f hin j hp
  rw [runFixed, hnone]

theorem execCellBlock_refused {s : State} (tag bc : Byte) (entries : List Byte)
    (h : ∀ f, s.inflight = some f → ∀ j, f.phase ≠ .cells j) :
    execCellBlock tag bc entries s = .refused .notAtElement := by
  have hnone : s.atCells = none := Option.eq_none_iff_forall_ne_some.mpr fun ⟨f, j⟩ hf => by
    obtain ⟨hin, hp⟩ := atCells_eq_some.mp hf
    exact h f hin j hp
  rw [execCellBlock, hnone]

theorem execXfield_refused {s : State} (tag : Byte) (value : List Byte)
    (h : ∀ f, s.inflight = some f → ∀ j, f.phase ≠ .extra j) : execXfield tag value s = .refused .notAtElement := by
  have hnone : s.atExtra = none := Option.eq_none_iff_forall_ne_some.mpr fun ⟨f, j⟩ hf => by
    obtain ⟨hin, hp⟩ := atExtra_eq_some.mp hf
    exact h f hin j hp
  rw [execXfield, hnone]

/-- Settles O44: each meaning asks first where the engine stands. -/
theorem outOfTurnIsRefused : Obligations.OutOfTurnIsRefused := by
  refine ⟨fun i s hi hs h => ?_, fun i s sl hsl h => ?_⟩
  · cases i with
    | sreset => exact absurd rfl hs
    | nop | extract | decode | extractDecode | csum16 | lookup => exact runCommand_refused _ h
    | _ => cases hi
  · cases i with
    | cellBlock tag bc entries => cases hsl; exact execCellBlock_refused tag bc entries h
    | fixTmos | fixTp1 | fixTp2 | fixVpack | fixIpack | fixSoc => cases hsl; exact runFixed_refused _ h
    | xfield tag value => cases hsl; exact execXfield_refused tag value h
    | _ => cases hsl

/-! ### Elements -/

/-- An element that answers a next state moves the decode in flight to another phase. -/
theorem exec_element_next {i : Instr} {s t : State} (hi : i.slot ≠ none) (h : exec i s = .next t) :
    ∃ f p, s.inflight = some f ∧ t = s.withPhase f p := by
  cases i with
  | cellBlock tag bc entries =>
    obtain ⟨f, j, hf, -, rfl⟩ := execCellBlock_next.mp h
    exact ⟨f, _, hf, rfl⟩
  | fixTmos | fixTp1 | fixTp2 | fixVpack | fixIpack | fixSoc =>
    obtain ⟨f, j, hf, -, rfl⟩ := runFixed_next.mp h
    exact ⟨f, _, hf, rfl⟩
  | xfield tag value =>
    obtain ⟨f, j, hf, -, rfl⟩ := execXfield_next.mp h
    exact ⟨f, _, hf, rfl⟩
  | _ => exact absurd rfl hi

/-- Settles O43: a move to another phase keeps what a host reads. -/
theorem elementsChangeOnlyTheEngine : Obligations.ElementsChangeOnlyTheEngine := by
  intro i s t hi h
  obtain ⟨f, p, hf, rfl⟩ := exec_element_next hi h
  exact ⟨rfl, (busy_iff s).mpr ⟨f, hf⟩, rfl, bufByte_congr rfl rfl rfl, readWord_withPhase hf p, rfl⟩

/-! ### Steps -/

/-- Settles O7: the engine fetches what the decoder reads at its place. -/
theorem stepRunsTheInstruction : Obligations.StepRunsTheInstruction := by
  intro s f i hc hi hf
  refine ⟨fun hp hdec => ?_, fun j hp hdec => ?_, fun k j hp hdec => ?_, fun j hp hoff hroom hdec => ?_⟩
  · exact step_of_fetch hc hi ((fetch_accepted hf hp).trans (congrArg some hdec))
  · exact step_of_fetch hc hi ((fetch_cells hf hp).trans (congrArg some hdec))
  · exact step_of_fetch hc hi ((fetch_fixed hf hp).trans (congrArg some hdec))
  · have hgo : extraGoesOn s.cfg j = true := by
      rw [extraGoesOn, Bool.and_eq_true]
      exact ⟨decide_eq_true hoff, decide_eq_true hroom⟩
    exact step_of_fetch hc hi ((fetch_extra hf hp).trans ((if_pos hgo).trans (congrArg some hdec)))

/-! ### Commits -/

/-- Settles O23: NOP's body is the commit. -/
theorem nopOnlyCommits : Obligations.NopOnlyCommits :=
  fun _ _ hf hp => runCommand_accepted _ hf hp

/-- Settles O27: the accumulator is the sum of the bytes, each at most 255. -/
theorem csum16SumsTheBytes : Obligations.Csum16SumsTheBytes := by
  intro s f src hf hp sum
  refine ⟨(runCommand_accepted _ hf hp).trans ?_, fun hn => ?_⟩
  · rw [ck16_bufBytes, sum16_ofNat]
    rfl
  · have hle : sum ≤ 255 * f.snap.csCount.toNat := refSum_le _ _
    omega

/-! ### LOOKUP -/

/-- The scan of a code stops at its row where the rows' codes are distinct (44_tagged_field.md R191). -/
theorem fctLookupFrom_of_getElem? {rows : List FctRow} (hnodup : (rows.map (fun r => r.code)).Nodup) {k : Nat}
    {row : FctRow} (h : rows[k]? = some row) (i : Nat) : fctLookupFrom row.code i rows = some (i + k, row) := by
  induction rows generalizing i k with
  | nil => cases h
  | cons r rows ih =>
    rw [List.map_cons, List.nodup_cons] at hnodup
    obtain ⟨hfresh, hrest⟩ := hnodup
    cases k with
    | zero =>
      cases h
      rw [fctLookupFrom, if_pos rfl]
      rfl
    | succ k =>
      rw [List.getElem?_cons_succ] at h
      have hne : r.code ≠ row.code := fun heq => hfresh (heq ▸ List.mem_map_of_mem (List.mem_of_getElem? h))
      rw [fctLookupFrom, if_neg hne, ih hrest h, Nat.add_assoc, Nat.add_comm 1 k]

/-- `lookup(t)` answers the row with that code (44_tagged_field.md R191). -/
theorem fctLookup_of_getElem? {c : Config} (hc : c.legal = true) {k : Nat} {row : FctRow}
    (h : c.fct[k]? = some row) : fctLookup c row.code = some (k, row) := by
  simp only [Config.legal, Config.fctLegal, Bool.and_eq_true, decide_eq_true_eq] at hc
  obtain ⟨-, -, hnodup⟩ := hc
  rw [fctLookup, fctLookupFrom_of_getElem? hnodup h, Nat.zero_add]

/-- `lookup(t)` answers none where no row has the code (44_tagged_field.md R191). -/
theorem fctLookup_eq_none {c : Config} {t : Byte} (h : ∀ r, r ∈ c.fct → r.code ≠ t) : fctLookup c t = none := by
  cases hl : fctLookup c t with
  | none => rfl
  | some p =>
    obtain ⟨hrow, hcode⟩ := fctLookup_some (c := c) (t := t) (k := p.1) (row := p.2) hl
    exact absurd hcode (h _ (List.mem_of_getElem? hrow))

/-- LKRES of a code that has a row, as a number (10_state.md R32). -/
theorem lookupWord_of_getElem? {c : Config} (hc : c.legal = true) {k : Nat} {row : FctRow}
    (h : c.fct[k]? = some row) :
    lookupWord c row.code =
      BitVec.ofNat 32
        (row.code.toNat + 256 + (if row.kind = .text then 512 else 0) + 65536 * row.width + 16777216 * k) := by
  obtain ⟨-, hrows⟩ := legal_sizes hc
  obtain ⟨-, hwidth⟩ := legal_width hc (List.mem_of_getElem? h)
  obtain ⟨hk, -⟩ := List.getElem?_eq_some_iff.mp h
  have hcode := row.code.isLt
  apply BitVec.eq_of_toNat_eq
  simp only [lookupWord, fctLookup_of_getElem? hc h, toNat_append_eq_add, kindBit_toNat, BitVec.toNat_ofNat]
  split <;> omega

/-- Settles O28: the two answers of the scan, as LKRES words. -/
theorem lookupFindsTheRow : Obligations.LookupFindsTheRow := by
  intro s f tag hf hp hc
  refine ⟨fun k r hrow hcode => (runCommand_accepted _ hf hp).trans ?_, fun hnone =>
    (runCommand_accepted _ hf hp).trans ?_⟩
  · subst hcode
    rw [lookupWord_of_getElem? hc hrow]
    rfl
  · have hword : lookupWord s.cfg tag = BitVec.ofNat 32 tag.toNat := by
      rw [lookupWord, fctLookup_eq_none hnone]
      apply BitVec.eq_of_toNat_eq
      simp only [toNat_append_eq_add, BitVec.toNat_ofNat]
      omega
    rw [hword]
    rfl

/-! ### Result sets -/

/-- What no command but SRESET writes: the configuration, CTRL, CMD, ERR, ECODE, the operands that are no result, the
buffers and the environment (40_commands.md R103). -/
abbrev KeepsOperands (s t : State) : Prop :=
  t.cfg = s.cfg ∧ t.ctrl = s.ctrl ∧ t.cmd = s.cmd ∧ t.status.err = s.status.err ∧
    t.status.ecode = s.status.ecode ∧ t.rxLen = s.rxLen ∧ t.csStart = s.csStart ∧ t.csCount = s.csCount ∧
    (∀ b k, t.bufByte b k = s.bufByte b k) ∧ t.epoch = s.epoch ∧ t.inputs = s.inputs ∧ t.reply = s.reply

/-- The result registers, DONE, ECHO and the engine are no operands. -/
theorem keepsOperands_of_results (s : State) (inflight : Option InFlight) (done echo : Bool) (winBase winLen : Word)
    (csum : Half) (csacc lkres : Word) (dec : DecodeSet) :
    KeepsOperands s
      { s with
        inflight := inflight, winBase := winBase, winLen := winLen, csum := csum, csacc := csacc, lkres := lkres
        dec := dec, status := { s.status with done := done, echo := echo } } :=
  ⟨rfl, rfl, rfl, rfl, rfl, rfl, rfl, rfl, bufByte_congr rfl rfl rfl, rfl, rfl, rfl⟩

theorem keepsOperands_commitDecode (s : State) (ex : Option Extraction) (d : DecodeSet) :
    KeepsOperands s (commitDecode ex d s) := by
  cases ex <;> exact keepsOperands_of_results ..

/-- What a decode begun leaves: its commit writes its own result set, and without one the engine alone has moved. -/
theorem startDecode_writes (s : State) (f : InFlight) (ex : Option Extraction) (base len : Nat) :
    let t := s.startDecode f ex base len
    KeepsOperands s t ∧
      (ex = none → t.winBase = s.winBase ∧ t.winLen = s.winLen ∧ t.status.echo = s.status.echo) ∧
      (t.csum = s.csum ∧ t.csacc = s.csacc) ∧ t.lkres = s.lkres ∧
      (t.busy = true → t = { s with inflight := t.inflight }) ∧ (t.busy = false → t.status.done = true) := by
  intro t
  rcases startDecode_cases s f ex base len with ⟨d, -, ht⟩ | ⟨j, -, ht⟩ <;> rw [show t = _ from ht]
  · have hidle : (commitDecode ex d s).busy = false := (not_busy_iff _).mpr (commitDecode_inflight ex d s)
    refine ⟨keepsOperands_commitDecode s ex d, ?_, ⟨commitDecode_csum ex d s, commitDecode_csacc ex d s⟩,
      commitDecode_lkres ex d s, fun hb => ?_, fun _ => commitDecode_done ex d s⟩
    · rintro rfl
      exact ⟨rfl, rfl, rfl⟩
    · rw [hidle] at hb
      cases hb
  · exact ⟨keepsOperands_of_results .., fun _ => ⟨rfl, rfl, rfl⟩,
      ⟨rfl, rfl⟩, rfl, fun _ => rfl, fun hb => nomatch hb⟩

/-- A commit ends the command. -/
theorem commit_ends (s : State) {p : Prop} :
    ((commit s).busy = true → p) ∧ ((commit s).busy = false → (commit s).status.done = true) :=
  ⟨fun hb => (nomatch hb), fun _ => rfl⟩

/-- Settles O30: command by command, from what its body writes. -/
theorem resultSetsAreExact : Obligations.ResultSetsAreExact := by
  intro i s t hi hs h
  cases i with
  | sreset => exact absurd rfl hs
  | nop =>
    obtain ⟨f, -, -, rfl⟩ := runCommand_next.mp h
    exact ⟨keepsOperands_of_results ..,
      fun _ _ => ⟨rfl, rfl, rfl⟩, fun _ _ => rfl, fun _ => ⟨rfl, rfl⟩, fun _ => rfl, commit_ends _⟩
  | extract =>
    obtain ⟨f, -, -, rfl⟩ := runCommand_next.mp h
    exact ⟨keepsOperands_of_results ..,
      fun hne => absurd rfl hne, fun _ _ => rfl, fun _ => ⟨rfl, rfl⟩, fun _ => rfl, commit_ends _⟩
  | csum16 src =>
    obtain ⟨f, -, -, rfl⟩ := runCommand_next.mp h
    exact ⟨keepsOperands_of_results ..,
      fun _ _ => ⟨rfl, rfl, rfl⟩, fun _ _ => rfl, fun hne => absurd rfl (hne src), fun _ => rfl, commit_ends _⟩
  | lookup tag =>
    obtain ⟨f, -, -, rfl⟩ := runCommand_next.mp h
    exact ⟨keepsOperands_of_results ..,
      fun _ _ => ⟨rfl, rfl, rfl⟩, fun _ _ => rfl, fun _ => ⟨rfl, rfl⟩, fun hne => absurd rfl (hne tag),
      commit_ends _⟩
  | decode =>
    obtain ⟨f, -, -, rfl⟩ := runCommand_next.mp h
    obtain ⟨hkeep, hwin, hsum, hlk, hbusy, hdone⟩ := startDecode_writes s f none f.snap.winBase.toNat f.snap.winLen.toNat
    exact ⟨hkeep, fun _ _ => hwin rfl, fun hne => absurd rfl hne, fun _ => hsum, fun _ => hlk, hbusy, hdone⟩
  | extractDecode =>
    obtain ⟨f, -, -, rfl⟩ := runCommand_next.mp h
    obtain ⟨hkeep, -, hsum, hlk, hbusy, hdone⟩ := startDecode_writes s f (some (s.extraction f.snap.rxLen))
      (s.extraction f.snap.rxLen).base.toNat (s.extraction f.snap.rxLen).len.toNat
    exact ⟨hkeep, fun _ hne => absurd rfl hne, fun _ hne => absurd rfl hne, fun _ => hsum, fun _ => hlk, hbusy, hdone⟩
  | _ => cases hi

/-! ### The frame checks of a decode -/

/-- An accepted DECODE begins its decode on the window of its snapshot (40_commands.md R106). -/
theorem exec_decode {s : State} {f : InFlight} (hf : s.inflight = some f) (hp : f.phase = .accepted) :
    exec .decode s = .next (s.startDecode f none f.snap.winBase.toNat f.snap.winLen.toNat) :=
  runCommand_accepted _ hf hp

/-- Settles O25: the checks of the pipeline, stage by stage. -/
theorem decodeReportsFirstFailure : Obligations.DecodeReportsFirstFailure := by
  intro s f hf hp b len lenf total comp stored commits short badStart incomplete csumFatal noPayload badEnd frLen frCsum
    flags
  have hexec := exec_decode hf hp
  have hfail {d : DecodeSet} (h : refChecks s.cfg b len f.snap.ctrl = .error d) : commits d := by
    rw [State.startDecode, frameChecks_eq, h] at hexec
    exact hexec
  refine ⟨fun hshort => hfail (if_pos hshort),
    fun hlong hstart => hfail ((if_neg hlong).trans (if_pos hstart)),
    fun hlong hstart hpart => hfail ((if_neg hlong).trans ((if_neg hstart).trans (if_pos hpart))),
    fun hlong hstart hpart hsum =>
      hfail ((if_neg hlong).trans ((if_neg hstart).trans ((if_neg hpart).trans (if_pos hsum)))),
    fun hlong hstart hpart hsum hpay =>
      hfail ((if_neg hlong).trans ((if_neg hstart).trans ((if_neg hpart).trans ((if_neg hsum).trans (if_pos hpay))))),
    fun hlong hstart hpart hsum hpay hend =>
      hfail ((if_neg hlong).trans ((if_neg hstart).trans ((if_neg hpart).trans ((if_neg hsum).trans
        ((if_neg hpay).trans (if_pos hend)))))),
    fun hlong hstart hpart hsum hpay hend => ?_⟩
  have hpass : refChecks s.cfg b len f.snap.ctrl = .ok _ :=
    (if_neg hlong).trans ((if_neg hstart).trans ((if_neg hpart).trans ((if_neg hsum).trans
      ((if_neg hpay).trans (if_neg hend)))))
  rw [State.startDecode, frameChecks_eq, hpass] at hexec
  exact ⟨_, hexec, rfl, rfl, windowBe16_toNat s _ 2, rfl, rfl, rfl, rfl, rfl, rfl, rfl, rfl⟩

/-- The command in flight with the extractor's window for its own. -/
def onWindow (f : InFlight) (e : Extraction) : InFlight :=
  { f with snap := { f.snap with winBase := e.base, winLen := e.len } }

/-- The state in which DECODE is to decode the extractor's window: the extraction committed, the command in flight. -/
def extracted (s : State) (f : InFlight) (e : Extraction) : State :=
  { installExtraction e s with inflight := some (onWindow f e) }

/-- The frame checks look at RXBUF and the configuration only, which an extraction keeps. -/
theorem frameChecks_extracted (s : State) (f : InFlight) (e : Extraction) (ctrl : Ctrl) (ex : Option Extraction)
    (base len : Nat) : (extracted s f e).frameChecks ctrl ex base len = s.frameChecks ctrl ex base len :=
  frameChecks_congr (s := s) (t := extracted s f e) rfl (fun _ => rfl) ctrl ex base len

/-- Settles O26: both decodes are begun by the same frame checks, which only carry the extractor's result along. -/
theorem extractDecodeIsExtractThenDecode : Obligations.ExtractDecodeIsExtractThenDecode := by
  intro s f hf hp
  let e := s.extraction f.snap.rxLen
  have hextract : exec .extract s = .next (commit (installExtraction e s)) := runCommand_accepted _ hf hp
  have hdecode : exec .decode (extracted s f e) =
      .next ((extracted s f e).startDecode (onWindow f e) none e.base.toNat e.len.toNat) := exec_decode rfl hp
  have hboth : exec .extractDecode s = .next (s.startDecode f (some e) e.base.toNat e.len.toNat) :=
    runCommand_accepted _ hf hp
  rw [State.startDecode, frameChecks_extracted, show (onWindow f e).snap.ctrl = f.snap.ctrl from rfl] at hdecode
  rw [State.startDecode, frameChecks_extraction] at hboth
  cases hchecks : s.frameChecks f.snap.ctrl none e.base.toNat e.len.toNat with
  | error d =>
    rw [hchecks] at hboth
    rw [hchecks] at hdecode
    exact ⟨_, _, hextract, hdecode, .inl ⟨rfl, hboth⟩⟩
  | ok j =>
    rw [hchecks] at hboth
    rw [hchecks] at hdecode
    exact ⟨_, _, hextract, hdecode, .inr ⟨rfl, j, rfl, hboth⟩⟩

end Sys2Proof.Proofs
end

section
/-! SUPPORT. EXTRACT (41_frame_boundary.md): the window it commits. -/

namespace Sys2Proof.Proofs

open Sys2Proof.Machine Sys2Proof.Laws

/-- EXTRACT commits the extraction at the snapshot's RX_LEN (40_commands.md R105). -/
theorem exec_extract {s : State} {f : InFlight} (hf : s.inflight = some f) (hp : f.phase = .accepted) :
    exec .extract s = .next (commit (installExtraction (s.extraction f.snap.rxLen) s)) :=
  runCommand_accepted _ hf hp

/-- Settles O24: the commit of the extraction, with the extractor's two cases for what it holds. -/
theorem extractStripsOneEcho : Obligations.ExtractStripsOneEcho := by
  intro s f hf hp
  have hexec := exec_extract hf hp
  refine ⟨fun ⟨_, heq, hbehind⟩ => ?_, fun hno => ?_⟩
  · rw [extraction_of_echo (Nat.lt_of_sub_pos hbehind) heq] at hexec
    exact hexec
  · have hnone : ¬ (21 < f.snap.rxLen.toNat ∧ ∀ i, i < 21 → s.rx i = s.cb i) :=
      fun ⟨hlen, heq⟩ => hno ⟨hlen.le, heq, Nat.sub_pos_of_lt hlen⟩
    rw [extraction_of_no_echo hnone] at hexec
    exact hexec

end Sys2Proof.Proofs
end

section
/-! SUPPORT. The Checksum-16 adder (42_checksum16.md): its arithmetic laws (R150, R151), and the frame that carries its
own checksum (R155). -/

namespace Sys2Proof.Proofs

open Sys2Proof.Machine Sys2Proof.Laws

/-! ### The adder -/

/-- A sum of bytes is at most 255 for each. -/
theorem sum_toNat_le (bytes : List Byte) : (bytes.map (fun v => v.toNat)).sum ≤ 255 * bytes.length := by
  induction bytes with
  | nil => rfl
  | cons v bytes ih =>
    have hv := v.isLt
    rw [List.map_cons, List.sum_cons, List.length_cons]
    omega

/-- 16843009 bytes sum to less than 2^32, so the accumulator has not wrapped (42_checksum16.md R151). -/
theorem ck16_toNat_of_length_le {bytes : List Byte} (h : bytes.length ≤ 16843009) :
    (ck16 bytes).toNat = (bytes.map (fun v => v.toNat)).sum := by
  have hle := sum_toNat_le bytes
  rw [ck16_eq_sum, BitVec.toNat_ofNat, Nat.mod_eq_of_lt (by omega)]

/-- Bytes can be summed in any order (42_checksum16.md R151). -/
theorem ck16_perm {a b : List Byte} (h : a.Perm b) : ck16 a = ck16 b := by
  rw [ck16_eq_sum, ck16_eq_sum, (h.map _).sum_eq]

/-- Bytes can be summed piece by piece (42_checksum16.md R151). -/
theorem ck16_append (a b : List Byte) : ck16 (a ++ b) = ck16 a + ck16 b := by
  rw [ck16_eq_sum, ck16_eq_sum, ck16_eq_sum, List.map_append, List.sum_append, BitVec.ofNat_add]

@[simp] theorem ck16_replicate_zero (n : Nat) : ck16 (List.replicate n 0) = 0 := by
  simp [ck16_eq_sum]

/-- Truncating at the end or before the addition gives the same 16 bits (42_checksum16.md R151). -/
theorem sum16_add (x y : Word) : sum16 (x + y) = sum16 x + sum16 y :=
  BitVec.setWidth_add x y (by decide)

/-- `sum16` is the sum of the bytes mod 2^16, however many there are (42_checksum16.md R151). -/
theorem sum16_ck16_toNat (bytes : List Byte) :
    (sum16 (ck16 bytes)).toNat = (bytes.map (fun v => v.toNat)).sum % 65536 := by
  rw [ck16_eq_sum, sum16_ofNat, BitVec.toNat_ofNat]

/-! ### How many bytes are summed -/

/-- No buffer is longer than 131072 bytes (00_scope.md R7, R8). -/
theorem bufferSize_le {c : Config} (hc : c.legal = true) (b : Buffer) : bufferSize c b ≤ 131072 := by
  cases b with
  | rxbuf => exact (legal_sizes hc).1
  | cmdbuf => exact (by decide : cmdLen ≤ 131072)

/-- The range of an accepted CSUM16 lies inside its buffer (20_memory.md R76, 40_commands.md R100). -/
theorem csumRange_of_inv {s : State} (hs : s.Inv) {f : InFlight} {src : Buffer} (hf : s.inflight = some f)
    (hp : f.phase = .accepted) (hw : decodeCommand f.word = .ok (.csum16 src)) :
    f.snap.csStart.toNat + f.snap.csCount.toNat ≤ bufferSize s.cfg src := by
  obtain ⟨-, -, -, -, -, hengine⟩ := hs
  obtain ⟨-, -, -, hrange, -, -⟩ := hengine f hf
  simpa only [InFlight.rangeOk, hp, hw, decide_eq_true_eq] using hrange

/-- A big-endian field has 16 bits. -/
theorem refBe16_lt (b : Nat → Byte) (i : Nat) : refBe16 b i < 65536 := by
  rw [refBe16, ← be16Of_toNat]
  exact BitVec.isLt _

/-- Settles O45: the accumulator is the sum of the bytes mod 2^32, and a sum of naturals has these laws. -/
theorem adderLaws : Obligations.AdderLaws := by
  refine ⟨sum16_ck16_toNat, fun _ => ck16_toNat_of_length_le, fun _ _ => ck16_perm, fun a b => ?_, fun bytes n => ?_,
    fun s f src hs hf hp hw => ?_, fun b => ?_⟩
  · rw [ck16_append, sum16_add]
  · rw [ck16_append, ck16_replicate_zero]
    exact BitVec.add_zero _
  · have hrange := csumRange_of_inv hs hf hp hw
    obtain ⟨hc, -⟩ := hs
    have hsize := bufferSize_le hc src
    omega
  · have hlenf := refBe16_lt b 2
    omega

/-! ### A frame that carries its own checksum -/

/-- A field written big-endian is read back as the value written (20_memory.md R64). -/
theorem refBe16_of_bytes {b : Nat → Byte} {i : Nat} {v : Half} (hhi : b i = v.extractLsb' 8 8)
    (hlo : b (i + 1) = v.extractLsb' 0 8) : refBe16 b i = v.toNat := by
  rw [refBe16, ← be16Of_toNat, hhi, hlo, be16Of_bytes]

/-- The checksum over the window's first `n` bytes, as the frame checks compute it (42_checksum16.md R152). -/
theorem sum16_refBytes_toNat (b : Nat → Byte) (n : Nat) :
    (sum16 (ck16 (refBytes b 0 n))).toNat = refSum b n % 65536 := by
  simp only [sum16_ck16_toNat, refBytes, refSum, List.map_map, Function.comp_def, Nat.zero_add]

/-- Where the sum computed is the sum stored, no stage of the frame checks reports a bad checksum, whatever CTRL says
(42_checksum16.md R153): a stage before the sum leaves CSUM_BAD at 0, every later one copies the comparison. -/
theorem refChecks_of_sum_stored {c : Config} {b : Nat → Byte} {len : Nat} {ctrl : Ctrl} {d : DecodeSet}
    (hsum : refSum b (2 + refBe16 b 2 - 4) % 65536 = refBe16 b (2 + refBe16 b 2 - 2))
    (h : refChecks c b len ctrl = .error d ∨ refChecks c b len ctrl = .ok d) :
    d.flags.csumBad = false ∧ d.result ≠ .csumFatal := by
  have hstrict : ¬ (refSum b (2 + refBe16 b 2 - 4) % 65536 ≠ refBe16 b (2 + refBe16 b 2 - 2) ∧
      ctrl.csumStrict = true) := fun ⟨hbad, _⟩ => hbad hsum
  have hflag : decide (refSum b (2 + refBe16 b 2 - 4) % 65536 ≠ refBe16 b (2 + refBe16 b 2 - 2)) = false :=
    decide_eq_false (not_not.mpr hsum)
  simp only [refChecks, if_neg hstrict, hflag] at h
  split_ifs at h <;> rcases h with h | h <;> cases h <;> exact ⟨rfl, nofun⟩

/-- A decode whose checks fail commits the result set of the first stage that fails (40_commands.md R113). -/
theorem startDecode_of_error {s : State} {f : InFlight} {base len : Nat} {d : DecodeSet} (ex : Option Extraction)
    (h : refChecks s.cfg (s.windowByte base) len f.snap.ctrl = .error d) :
    s.startDecode f ex base len = commitDecode ex d s := by
  rw [State.startDecode, frameChecks_eq, h]
  rfl

/-- A decode whose checks pass goes on to the cell block (40_commands.md R107). -/
theorem startDecode_of_ok {s : State} {f : InFlight} {base len : Nat} {d : DecodeSet} (ex : Option Extraction)
    (h : refChecks s.cfg (s.windowByte base) len f.snap.ctrl = .ok d) :
    s.startDecode f ex base len = s.withPhase f (.cells (frameJob s ex base d)) := by
  rw [State.startDecode, frameChecks_eq, h]
  rfl

/-- Settles O46: the sum computed is the sum stored, and CSUM_BAD is their comparison. -/
theorem checksumRoundTrip : Obligations.ChecksumRoundTrip := by
  intro s f hf hp b eff sum hmin _ hhi hlo
  have hstored : refBe16 b (eff - 2) = sum.toNat :=
    refBe16_of_bytes hhi (by rwa [show eff - 2 + 1 = eff - 1 by omega])
  have hsum : refSum b (eff - 4) % 65536 = refBe16 b (eff - 2) :=
    (sum16_refBytes_toNat b (eff - 4)).symm.trans hstored.symm
  refine ⟨_, exec_decode hf hp, ?_⟩
  cases hchecks : refChecks s.cfg b f.snap.winLen.toNat f.snap.ctrl with
  | error d =>
    rw [startDecode_of_error none hchecks]
    exact ⟨fun _ => refChecks_of_sum_stored hsum (.inl hchecks), fun _ _ hin => nomatch hin⟩
  | ok d =>
    obtain ⟨hgood, -⟩ := refChecks_of_sum_stored hsum (.inr hchecks)
    rw [startDecode_of_ok none hchecks]
    refine ⟨fun hidle => (nomatch hidle), fun g j hg hcells => ?_⟩
    cases hg
    cases hcells
    exact hgood

end Sys2Proof.Proofs
end

section
/-! SUPPORT. The cell block: where the cell loop stops and what it leaves (43_fixed_field.md R160 to R163), the
statistics over the decoded cells (R164, R165). -/

namespace Sys2Proof.Proofs

open Sys2Proof.Machine Sys2Proof.Laws

/-! ### The cell loop -/

/-- The cells decoded are those that are declared, fit in CELL and lie whole among the bytes; CELL_CAP tells that
the room ran out first, CELL_SHORT that the bytes did (43_fixed_field.md R161). -/
theorem cellLoop_stops {maxCells k n : Nat} {bytes : List Byte} (hn : n ≤ maxCells) :
    (cellLoop maxCells k n bytes).cells.length = min (min k (maxCells - n)) (bytes.length / 3) ∧
      ((cellLoop maxCells k n bytes).cap = true ↔ maxCells - n < k ∧ maxCells - n ≤ bytes.length / 3) ∧
      ((cellLoop maxCells k n bytes).short = true ↔ bytes.length / 3 < min k (maxCells - n)) := by
  fun_induction cellLoop maxCells k n bytes with
  | case1 n bytes => simp
  | case2 n bytes => simp
  | case3 k n hroom info hi lo rest ih =>
    obtain ⟨hlen, hcap, hshort⟩ := ih (by omega)
    simp only [CellRun.push, List.length_cons, hlen, hcap, hshort]
    omega
  | case4 k n bytes hroom hcut =>
    have hlen : bytes.length < 3 := by
      match bytes, hcut with
      | [], _ | [_], _ | [_, _], _ => simp
      | info :: hi :: lo :: rest, hcut => exact absurd rfl (hcut info hi lo rest)
    simp only [List.length_nil, Bool.false_eq_true, true_iff, false_iff]
    omega

/-- Cell `i` stands in bytes `3 * i` to `3 * i + 2`: its info byte and its big-endian millivolts
(43_fixed_field.md R162). -/
theorem cellLoop_getElem? {maxCells k n : Nat} {bytes : List Byte} {i : Nat} {e : CellEntry}
    (h : (cellLoop maxCells k n bytes).cells[i]? = some e) :
    ∃ hi lo, bytes[3 * i]? = some e.info ∧ bytes[3 * i + 1]? = some hi ∧ bytes[3 * i + 2]? = some lo ∧
      e.mv = be16Of hi lo := by
  fun_induction cellLoop maxCells k n bytes generalizing i with
  | case1 n bytes => cases h
  | case2 n bytes => cases h
  | case3 k n hroom info hi lo rest ih =>
    cases i with
    | zero =>
      cases h
      exact ⟨hi, lo, rfl, rfl, rfl, rfl⟩
    | succ i => exact ih h
  | case4 k n bytes hroom hcut => cases h

/-! ### The statistics -/

theorem le_cellsMax {cells : List CellEntry} {e : CellEntry} (he : e ∈ cells) :
    e.mv.toNat ≤ (cellsMax cells).toNat := by
  rw [cellsMax_toNat]
  exact List.le_max_of_le (List.mem_map_of_mem he) le_rfl

/-- The maximum is a cell's value. -/
theorem exists_mv_eq_cellsMax {cells : List CellEntry} (h : cells ≠ []) : ∃ e ∈ cells, e.mv = cellsMax cells := by
  have hmem : refMax cells ∈ refMv cells :=
    List.maximum_mem (List.foldr_max_of_ne_nil (by simpa [refMv] using h)).symm
  obtain ⟨e, he, hmv⟩ := List.mem_map.mp hmem
  exact ⟨e, he, BitVec.eq_of_toNat_eq (hmv.trans (cellsMax_toNat cells).symm)⟩

/-- The values above 0 mV, those the minimum is over (43_fixed_field.md R164). -/
theorem mem_positive_refMv {cells : List CellEntry} {v : Nat} :
    v ∈ (refMv cells).filter (fun v => decide (0 < v)) ↔ ∃ e ∈ cells, e.mv ≠ 0 ∧ e.mv.toNat = v := by
  have hpos (e : CellEntry) : 0 < e.mv.toNat ↔ e.mv ≠ 0 := by
    rw [Nat.pos_iff_ne_zero, ne_eq, ne_eq, ← BitVec.toNat_inj]
    rfl
  simp only [refMv, List.mem_filter, List.mem_map, decide_eq_true_eq]
  constructor
  · rintro ⟨⟨e, he, rfl⟩, hv⟩
    exact ⟨e, he, (hpos e).mp hv, rfl⟩
  · rintro ⟨e, he, hne, rfl⟩
    exact ⟨⟨e, he, rfl⟩, (hpos e).mpr hne⟩

/-- Without a cell above 0 mV the minimum is 0 (43_fixed_field.md R164). -/
theorem cellsMin_eq_zero {cells : List CellEntry} (h : ∀ e ∈ cells, e.mv = 0) : cellsMin cells = 0 := by
  have hnone : (refMv cells).filter (fun v => decide (0 < v)) = [] := List.eq_nil_iff_forall_not_mem.mpr fun v hv => by
    obtain ⟨e, he, hne, -⟩ := mem_positive_refMv.mp hv
    exact hne (h e he)
  apply BitVec.eq_of_toNat_eq
  rw [cellsMin_toNat, refMin, hnone]
  rfl

/-- With one the minimum is the least of them. -/
theorem cellsMin_least {cells : List CellEntry} (h : ∃ e ∈ cells, e.mv ≠ 0) :
    (∃ e ∈ cells, e.mv ≠ 0 ∧ e.mv = cellsMin cells) ∧
      ∀ e ∈ cells, e.mv ≠ 0 → (cellsMin cells).toNat ≤ e.mv.toNat := by
  obtain ⟨e₀, he₀, hne₀⟩ := h
  have hsome := List.isSome_min?_of_mem (mem_positive_refMv.mpr ⟨e₀, he₀, hne₀, rfl⟩)
  obtain ⟨m, hm⟩ := Option.isSome_iff_exists.mp hsome
  have hmin : (cellsMin cells).toNat = m := by rw [cellsMin_toNat, refMin, hm, Option.getD_some]
  obtain ⟨hmem, hle⟩ := List.min?_eq_some_iff.mp hm
  obtain ⟨e, he, hne, hmv⟩ := mem_positive_refMv.mp hmem
  exact ⟨⟨e, he, hne, BitVec.eq_of_toNat_eq (hmv.trans hmin.symm)⟩,
    fun e he hne => hmin ▸ hle _ (mem_positive_refMv.mpr ⟨e, he, hne, rfl⟩)⟩

/-- The difference does not wrap: the minimum is at most the maximum. -/
theorem cellsMax_sub_cellsMin (cells : List CellEntry) :
    (cellsMax cells - cellsMin cells).toNat + (cellsMin cells).toNat = (cellsMax cells).toNat := by
  have hle : (cellsMin cells).toNat ≤ (cellsMax cells).toNat := by
    rw [cellsMin_toNat, cellsMax_toNat]
    exact refMin_le_refMax cells
  rw [BitVec.toNat_sub_of_le hle, Nat.sub_add_cancel hle]

/-! ### The record -/

/-- Without a cell the statistics are kept (43_fixed_field.md R165). -/
theorem withStats_zero (r : Record) (lo hi : Half) : r.withStats 0 lo hi = r := rfl

theorem withStats_of_ne_zero (r : Record) {n : Nat} (hn : n ≠ 0) (lo hi : Half) :
    r.withStats n lo hi = { r with vmin := lo, vmax := hi, vdelta := hi - lo } := if_neg hn

/-- The cell block writes REC_NCELLS, REC_CELLHDR and the statistics of the record, nothing else of it. -/
theorem cellStage_record (c : Config) (tag bc : Byte) (entries : List Byte) (j : Job) :
    let r := (cellStage c tag bc entries j).set.record
    r =
      { j.set.record with
        ncells := r.ncells, vmin := r.vmin, vmax := r.vmax, vdelta := r.vdelta, cellhdr := r.cellhdr } := by
  simp only [cellStage]
  by_cases hn : (cellLoop c.maxCells (bc.toNat / 3) 0 entries).cells.length = 0
  · rw [hn, withStats_zero]
  · rw [withStats_of_ne_zero _ hn]

/-! ### The instruction -/

/-- CELL_BLOCK where a decode stands before its cell block. -/
theorem exec_cellBlock {s : State} {f : InFlight} {j : Job} (hf : s.inflight = some f) (hp : f.phase = .cells j)
    (tag bc : Byte) (entries : List Byte) :
    exec (.cellBlock tag bc entries) s = .next (s.withPhase f (.fixed .tmos (cellStage s.cfg tag bc entries j))) :=
  execCellBlock_next.mpr ⟨f, j, hf, hp, rfl⟩

/-- Settles O31: the cell loop from cell 0 on, and the frame of the record's statistics. -/
theorem cellBlockDecodes : Obligations.CellBlockDecodes := by
  intro s f j tag bc entries hf hp
  refine ⟨_, exec_cellBlock hf hp tag bc entries, ?_⟩
  obtain ⟨hlen, hcap, hshort⟩ :=
    cellLoop_stops (k := bc.toNat / 3) (bytes := entries) (Nat.zero_le s.cfg.maxCells)
  rw [Nat.sub_zero] at hlen hcap hshort
  refine ⟨rfl, hlen, hlen, fun i e he => ?_, ?_, ?_, ?_, ?_⟩
  · obtain ⟨hi, lo, hinfo, hhi, hlo, hmv⟩ := cellLoop_getElem? he
    exact ⟨hi, lo, hinfo, hhi, hlo, hmv ▸ be16Of_toNat hi lo⟩
  · rw [cellStage, withStats_ncells, hlen]
  · rw [cellStage, withStats_cellhdr, cellHeader_eq_ofNat]
  · simp only [cellStage, celltagBad, ← hcap, ← hshort, Bool.decide_eq_true]
  · rw [← cellStage_record]
    rfl

/-- Settles O32: the record's statistics are those of the cells. -/
theorem cellStatistics : Obligations.CellStatistics := by
  intro s f j tag bc entries hf hp
  refine ⟨_, exec_cellBlock hf hp tag bc entries, ?_⟩
  simp only [cellStage]
  generalize (cellLoop s.cfg.maxCells (bc.toNat / 3) 0 entries).cells = cells
  refine ⟨fun hcells => ?_, fun hnone => ?_⟩
  · rw [withStats_of_ne_zero _ (mt List.length_eq_zero_iff.mp hcells)]
    exact ⟨fun e he => le_cellsMax he, exists_mv_eq_cellsMax hcells, cellsMin_eq_zero, cellsMin_least,
      cellsMax_sub_cellsMin cells⟩
  · subst hnone
    exact ⟨rfl, rfl, rfl⟩

end Sys2Proof.Proofs
end

section
/-! SUPPORT. The fixed fields: the value rules (43_fixed_field.md R173 to R176) and what each instruction records
(R166 to R172). -/

namespace Sys2Proof.Proofs

open Sys2Proof.Machine Sys2Proof.Laws

/-! ### Values -/

/-- `temp(raw)` below and above its threshold, and its range (43_fixed_field.md R173). -/
theorem temp_cases (raw : Half) :
    (raw.toNat ≤ 100 → temp raw = raw.toNat) ∧ (100 < raw.toNat → temp raw = 100 - (raw.toNat : Int)) ∧
      -65435 ≤ temp raw ∧ temp raw ≤ 100 := by
  have hraw := raw.isLt
  rw [temp_eq_refTemp, refTemp]
  split <;> omega

/-- `current(raw, LENF)` in each encoding, and its range (43_fixed_field.md R175). -/
theorem current_cases (raw lenf : Half) :
    (lenf.toNat < 260 → raw.toNat < 32768 → current raw lenf = -(raw.toNat : Int)) ∧
      (lenf.toNat < 260 → 32768 ≤ raw.toNat → current raw lenf = (raw.toNat : Int) - 32768) ∧
      (260 ≤ lenf.toNat → current raw lenf = 10000 - (raw.toNat : Int)) ∧
      -55535 ≤ current raw lenf ∧ current raw lenf ≤ 32767 := by
  have hraw := raw.isLt
  rw [current_eq_refCurrent, refCurrent]
  split_ifs <;> omega

/-- A 32-bit register gives back a value that 32 bits hold (00_scope.md R10). -/
theorem signed32_toInt {v : Int} (hlo : -2147483648 ≤ v) (hhi : v < 2147483648) : (signed32 v).toInt = v :=
  BitVec.toInt_ofInt_eq_self (by decide) hlo hhi

/-- Settles O48: the range lies inside that of 32 bits. -/
theorem temperatureRule : Obligations.TemperatureRule := by
  intro raw
  obtain ⟨hpos, hneg, hlo, hhi⟩ := temp_cases raw
  exact ⟨hpos, hneg, hlo, hhi, signed32_toInt (by omega) (by omega)⟩

/-! ### Instructions -/

/-- A fixed field's meaning where the engine tries the field (43_fixed_field.md R166). -/
theorem runFixed_at {s : State} {f : InFlight} {k : FixedField} {j : Job} (hf : s.inflight = some f)
    (hp : f.phase = .fixed k j) (write : Job → Record) :
    runFixed k write s = .next (s.withPhase f (phaseAfterFixed k (fixedStage k (write j) j))) :=
  runFixed_next.mpr ⟨f, j, hf, hp, rfl⟩

/-- Settles O33: each stores `temp(raw)`. -/
theorem temperaturesAreRead : Obligations.TemperaturesAreRead :=
  fun _ _ _ _ hf => ⟨fun hp => runFixed_at hf hp _, fun hp => runFixed_at hf hp _, fun hp => runFixed_at hf hp _⟩

/-- Settles O34: `vpack(raw)` is `raw`. -/
theorem packVoltageIsRead : Obligations.PackVoltageIsRead :=
  fun _ _ _ _ hf hp => runFixed_at hf hp _

/-- Settles O35: `current(raw, LENF)` is stored, in each of its encodings. -/
theorem packCurrentIsRead : Obligations.PackCurrentIsRead :=
  fun _ _ j raw hf hp => ⟨current raw j.lenf, runFixed_at hf hp _, current_cases raw j.lenf⟩

/-- Settles O36: `soc(raw)` is `raw`, and the field is the last. -/
theorem stateOfChargeIsRead : Obligations.StateOfChargeIsRead :=
  fun _ _ _ _ hf hp => runFixed_at hf hp _

/-! ### The attempt -/

/-- A state whose engine stands at a phase is that state moved to the phase. -/
theorem withPhase_self {s : State} {f : InFlight} (hf : s.inflight = some f) {p : Phase} (hp : f.phase = p) :
    s.withPhase f p = s := by
  subst hp
  rw [State.withPhase, ← hf]

/-- One attempt in the terms of the pipeline: a field that matches is recorded and passed, another leaves the decode as
it is. -/
theorem fixedRun_singleton (c : Config) (b : Nat → Byte) (k : FixedField) (j : Job) :
    fixedRun c b [k] j =
      if j.off + k.width < j.eff ∧ b j.off = c.fixedTag k then
        withOffRecord j (j.off + 1 + k.width, refFixedWrite k (refRaw b k j.off) j.lenf.toNat j.set.record)
      else j := by
  simp only [fixedRun, refFixed]
  split <;> rfl

/-- Settles O37: the step of the attempt, and the phase after each field. -/
theorem fixedFieldAttempt : Obligations.FixedFieldAttempt := by
  intro s f k j hc hi hf hp b j'
  have hstep := step_fixed hc hi f k (j := j) (b := b) rfl
  rw [withPhase_self hf hp, fixedRun_singleton] at hstep
  refine hstep.trans ?_
  cases k <;> rfl

end Sys2Proof.Proofs
end

section
/-! SUPPORT. The extra-field run: XE_VALUE (44_tagged_field.md R198), the four outcomes of a pass (R194 to R199) and the
commit behind the run (R200). -/

namespace Sys2Proof.Proofs

open Sys2Proof.Machine Sys2Proof.Laws

/-! ### Values -/

/-- A list of bytes as a run read from offset 0. -/
theorem refBytes_getD (bytes : List Byte) : refBytes (fun i => bytes.getD i 0) 0 bytes.length = bytes := by
  refine List.ext_getElem (refBytes_length ..) fun i hi hi' => ?_
  simp [refBytes, hi']

theorem bignum_eq_refBignum (bytes : List Byte) :
    bignum bytes = refBignum (fun i => bytes.getD i 0) 0 bytes.length := by
  rw [← bignum_refBytes, refBytes_getD]

/-- The big-endian value is that of the reversed bytes as digits to base 256. -/
theorem bignum_eq_ofDigits (bytes : List Byte) :
    bignum bytes = Nat.ofDigits 256 (bytes.map (fun v => v.toNat)).reverse := by
  simp only [bignum, Nat.ofDigits_eq_foldr, List.foldr_reverse, List.foldl_map, Nat.cast_id, Nat.mul_comm 256,
    Nat.add_comm]

/-- Bytes in front weigh more than all the bytes behind them (44_tagged_field.md R198). -/
theorem bignum_append (front last : List Byte) :
    bignum (front ++ last) = bignum last + 256 ^ last.length * bignum front := by
  simp only [bignum_eq_ofDigits, List.map_append, List.reverse_append, Nat.ofDigits_append, List.length_reverse,
    List.length_map]

theorem bignum_lt (bytes : List Byte) : bignum bytes < 256 ^ bytes.length := by
  have hdigits : ∀ d ∈ (bytes.map (fun v => v.toNat)).reverse, d < 256 := fun d hd => by
    obtain ⟨v, -, rfl⟩ := List.mem_map.mp (List.mem_reverse.mp hd)
    exact v.isLt
  have hlt := Nat.ofDigits_lt_base_pow_length (by decide) hdigits
  rwa [← bignum_eq_ofDigits, List.length_reverse, List.length_map] at hlt

theorem xeValue_toNat (bytes : List Byte) : (xeValue bytes).toNat = bignum bytes % 4294967296 := BitVec.toNat_ofNat _ _

/-- At most four bytes lose nothing (44_tagged_field.md R198). -/
theorem xeValue_toNat_of_length_le {bytes : List Byte} (h : bytes.length ≤ 4) :
    (xeValue bytes).toNat = bignum bytes := by
  have hpow : 256 ^ bytes.length ≤ 256 ^ 4 := Nat.pow_le_pow_right (by decide) h
  rw [xeValue_toNat]
  exact Nat.mod_eq_of_lt (Nat.lt_of_lt_of_le (bignum_lt bytes) hpow)

/-- Bytes in front of the last four weigh multiples of `2 ^ 32` (44_tagged_field.md R198). -/
theorem xeValue_append {front last : List Byte} (h : last.length = 4) : xeValue (front ++ last) = xeValue last := by
  apply BitVec.eq_of_toNat_eq
  rw [xeValue_toNat, xeValue_toNat, bignum_append, h]
  exact Nat.add_mul_mod_self_left ..

/-- Settles O47: the value is the bytes' big-endian number, cut to 32 bits. -/
theorem wideValueIsLastFourBytes : Obligations.WideValueIsLastFourBytes := by
  refine ⟨fun bytes => ?_, fun bytes hlen => ?_, fun front last => xeValue_append⟩
  · rw [xeValue_toNat, bignum_eq_refBignum]
  · rw [xeValue_toNat_of_length_le hlen, bignum_eq_refBignum]

/-! ### Entries -/

/-- The printable run in the terms of the range 0x20 to 0x7E (44_tagged_field.md R199). -/
theorem printableRun_eq (bytes : List Byte) :
    printableRun bytes = bytes.takeWhile (fun v => decide (0x20 ≤ v.toNat ∧ v.toNat ≤ 0x7E)) := by
  have hrun := printableRun_refBytes (fun i => bytes.getD i 0) 0 bytes.length
  rwa [refPrintable, refBytes_getD] at hrun

/-- The entry of a field whose value bytes are all there (44_tagged_field.md R197). -/
theorem xentry_of_length_eq (c : Config) {row : FctRow} (t : Byte) {value : List Byte}
    (hlen : value.length = row.width) :
    xentry c row t value =
      { tag := t
        kind := row.kind
        width := BitVec.ofNat 5 row.width
        value := BitVec.ofNat 32 (refBignum (fun i => value.getD i 0) 0 row.width)
        text := if row.kind = .text then (printableRun value).take c.textCap else [] } := by
  rw [xentry, xeValue, bignum_eq_refBignum, hlen]
  cases row.kind <;> rfl

/-- TXT_TRUNC is set by a text that was cut, by nothing else (44_tagged_field.md R199). -/
theorem xentryCut_eq (c : Config) (row : FctRow) (value : List Byte) :
    xentryCut c row value = decide (row.kind = .text ∧ c.textCap < (printableRun value).length) := by
  rw [xentryCut]
  cases row.kind <;> simp [textCut]

/-! ### A pass of the run -/

/-- A row of a legal configuration is the one its code is looked up to (44_tagged_field.md R191). -/
theorem fctLookup_of_mem {c : Config} (hc : c.legal = true) {row : FctRow} (h : row ∈ c.fct) :
    ∃ k, fctLookup c row.code = some (k, row) := by
  obtain ⟨k, hk⟩ := List.mem_iff_getElem?.mp h
  exact ⟨k, fctLookup_of_getElem? hc hk⟩

theorem extraPhase_unknown {c : Config} {t : Byte} (hrow : ∀ r, r ∈ c.fct → r.code ≠ t) (value : List Byte) (j : Job) :
    extraPhase c t value j = .extra (skipUnknown j) := by
  rw [extraPhase, fctLookup_eq_none hrow]

section
variable {c : Config} (hc : c.legal = true) {row : FctRow} (hrow : row ∈ c.fct) {value : List Byte} {j : Job}
include hc hrow

theorem extraPhase_duplicate (hseen : row.code ∈ j.seen) :
    extraPhase c row.code value j = .extra (skipDuplicate row.width j) := by
  obtain ⟨k, hk⟩ := fctLookup_of_mem hc hrow
  simp only [extraPhase, hk, if_pos hseen]

theorem extraPhase_overrun (hnew : row.code ∉ j.seen) (hshort : value.length < row.width) :
    extraPhase c row.code value j = .finish (overrun j) := by
  obtain ⟨k, hk⟩ := fctLookup_of_mem hc hrow
  simp only [extraPhase, hk, if_neg hnew, if_pos hshort]

theorem extraPhase_recorded (hnew : row.code ∉ j.seen) (hlen : value.length = row.width) :
    extraPhase c row.code value j = .extra (recordField c row row.code value j) := by
  obtain ⟨k, hk⟩ := fctLookup_of_mem hc hrow
  simp only [extraPhase, hk, if_neg hnew, if_neg (Nat.not_lt.mpr hlen.ge), List.take_of_length_le hlen.le]

end

/-- XFIELD at the loop test of the run is one pass of it. -/
theorem exec_xfield {s : State} {f : InFlight} {j : Job} (hf : s.inflight = some f) (hp : f.phase = .extra j)
    (t : Byte) (value : List Byte) :
    exec (.xfield t value) s = .next (s.withPhase f (extraPhase s.cfg t value j)) :=
  execXfield_next.mpr ⟨f, j, hf, hp, rfl⟩

/-- Settles O38: `lookup(t)` answers no row. -/
theorem unknownTagIsSkipped : Obligations.UnknownTagIsSkipped := by
  intro s f j t value hf hp hnone
  rw [exec_xfield hf hp, extraPhase_unknown hnone]
  rfl

/-- Settles O39: SEEN is asked before the value bytes are counted. -/
theorem duplicateTagIsConsumed : Obligations.DuplicateTagIsConsumed := by
  rintro s f j t value r hc hf hp hr rfl hseen
  rw [exec_xfield hf hp, extraPhase_duplicate hc hr hseen]
  rfl

/-- Settles O40: too few value bytes are the overrun. -/
theorem overrunEndsTheRun : Obligations.OverrunEndsTheRun := by
  rintro s f j t value r hc hf hp hr rfl hnew hshort
  rw [exec_xfield hf hp, extraPhase_overrun hc hr hnew hshort]
  rfl

/-- Settles O41: the entry recorded, and the cut of its text. -/
theorem knownFieldIsRecorded : Obligations.KnownFieldIsRecorded := by
  rintro s f j t value r hc hf hp hr rfl hnew hlen run
  have hrun : printableRun value = run := printableRun_eq value
  rw [exec_xfield hf hp, extraPhase_recorded hc hr hnew hlen, recordField, xentry_of_length_eq s.cfg r.code hlen,
    xentryCut_eq, hrun]
  rfl

/-! ### The end of the run -/

/-- The loop test fails at the payload end and at the capacity (44_tagged_field.md R193). -/
theorem extraGoesOn_eq_false {c : Config} {j : Job} (h : j.pe ≤ j.off ∨ c.maxExtra ≤ j.x) :
    extraGoesOn c j = false := by
  rw [extraGoesOn, ← Bool.decide_and]
  exact decide_eq_false (by omega)

/-- With no event pending a decode at the end of its run commits its completed result set (40_commands.md R102). -/
theorem step_at_run_end {s : State} {f : InFlight} {j : Job} (hc : s.cfg.legal = true) (hi : s.inputs = [])
    (hf : s.inflight = some f)
    (hend : f.phase = .finish j ∨ (f.phase = .extra j ∧ (j.pe ≤ j.off ∨ s.cfg.maxExtra ≤ j.x))) :
    step s = .next (commitDecode j.extraction (completed s.cfg j) s) := by
  have hfetch : s.fetch = none := by
    rcases hend with hp | ⟨hp, hstop⟩
    · simp [State.fetch, hf, hp]
    · rw [fetch_extra hf hp, extraGoesOn_eq_false hstop, if_neg Bool.false_ne_true]
  rw [step_of_fetch_none hc hi hfetch]
  rcases hend with hp | ⟨hp, -⟩ <;> simp only [State.engineMovesOn, hf, hp]

/-- XCAP at the end of the run (44_tagged_field.md R200). -/
theorem xcapAtEnd_eq (c : Config) (j : Job) : xcapAtEnd c j = decide (j.x = c.maxExtra ∧ j.off < j.pe) :=
  (Bool.decide_and _ _).symm

/-- Settles O42: the step is the commit, which writes the extractor's registers where there is an extraction. -/
theorem runEndCommits : Obligations.RunEndCommits := by
  intro s f j hc hi hf hend
  refine ⟨_, step_at_run_end hc hi hf hend, (not_busy_iff _).mpr (commitDecode_inflight ..), commitDecode_done ..,
    ?_, ?_⟩
  · rw [commitDecode_dec, completed, xcapAtEnd_eq]
  · cases j.extraction with
    | none => exact ⟨fun _ => ⟨rfl, rfl, rfl⟩, nofun, rfl⟩
    | some e => exact ⟨nofun, fun _ he => Option.some.inj he ▸ ⟨rfl, rfl, rfl⟩, rfl⟩

end Sys2Proof.Proofs
end

section
/-! SUPPORT. The issue of a command: each outcome of a CMD write by the check that gives it (40_commands.md R100,
60_exceptions.md R225). -/

namespace Sys2Proof.Proofs

open Sys2Proof.Machine Sys2Proof.Laws

/-! ### The words of the range checks -/

/-- Two legal words are the same exactly when they are the same command (30_encoding.md R81). -/
theorem word_eq_iff_of_decodeCommand {w w' : Word} {i i' : Instr} (h : decodeCommand w = .ok i)
    (h' : decodeCommand w' = .ok i') : w = w' ↔ i = i' := by
  constructor
  · rintro rfl
    exact Except.ok.inj (h.symm.trans h')
  · rintro rfl
    have henc := encode_of_decodeCommand h Config.default
    exact Code.word.inj (henc.symm.trans (encode_of_decodeCommand h' Config.default))

/-- The range checks of 40_commands.md R100 by the command's word. -/
theorem rangeFail_iff_word {w : Word} {i : Instr} (hw : decodeCommand w = .ok i) (s : State) :
    rangeFail i s = true ↔
      ((w = 0x1 ∨ w = 0x3) ∧ s.cfg.rxbufSize < s.rxLen.toNat) ∨
      (w = 0x2 ∧ s.cfg.rxbufSize < s.winBase.toNat + s.winLen.toNat) ∨
      (w = 0x4 ∧ s.cfg.rxbufSize < s.csStart.toNat + s.csCount.toNat) ∨
      (w = 0x00010004 ∧ 21 < s.csStart.toNat + s.csCount.toNat) := by
  have hextract : decodeCommand 0x1 = .ok .extract := by decide
  have hboth : decodeCommand 0x3 = .ok .extractDecode := by decide
  have hdecode : decodeCommand 0x2 = .ok .decode := by decide
  have hsumRx : decodeCommand 0x4 = .ok (.csum16 .rxbuf) := by decide
  have hsumCmd : decodeCommand 0x00010004 = .ok (.csum16 .cmdbuf) := by decide
  rw [word_eq_iff_of_decodeCommand hw hextract, word_eq_iff_of_decodeCommand hw hboth,
    word_eq_iff_of_decodeCommand hw hdecode, word_eq_iff_of_decodeCommand hw hsumRx,
    word_eq_iff_of_decodeCommand hw hsumCmd]
  cases i with
  | csum16 src =>
    rw [rangeFail, decide_eq_true_iff]
    cases src <;> simp [bufferSize, cmdLen]
  | _ => simp [rangeFail]

/-! ### The outcomes -/

theorem issue_busy {s : State} (hb : s.busy = true) (w : Word) : issue w s = .next (refuse .busy s) := if_pos hb

section
variable {s : State} (hb : s.busy = false) {w : Word}
include hb

theorem issue_illegal (hw : ∀ i, decodeCommand w ≠ .ok i) :
    issue w s = .next (refuse .illegalCmd { s with cmd := w }) := by
  cases hd : decodeCommand w with
  | ok i => exact absurd hd (hw i)
  | error r => simp [issue, hb, hd]

/-- A legal word written while IDLE goes on to the checks of its command. -/
theorem issue_legal {i : Instr} (hw : decodeCommand w = .ok i) :
    issue w s = issueLegal i w { s with cmd := w } := by
  simp [issue, hb, hw]

theorem issue_sreset (hw : w = 0xF) : issue w s = exec .sreset { s with cmd := w } := by
  have hd : decodeCommand w = .ok .sreset := by rw [hw]; decide
  rw [issue_legal hb hd]
  exact if_pos rfl

variable {i : Instr} (hw : decodeCommand w = .ok i) (hi : i ≠ .sreset)
include hw hi

theorem issue_out_of_range (hr : rangeFail i { s with cmd := w } = true) :
    issue w s = .next (refuse .range { s with cmd := w }) := by
  rw [issue_legal hb hw, issueLegal, if_neg hi, if_pos hr]

theorem issue_accepted (hr : ¬ rangeFail i { s with cmd := w } = true) :
    issue w s = .next (accept w { s with cmd := w }) := by
  rw [issue_legal hb hw, issueLegal, if_neg hi, if_neg hr]

end

/-- Settles O9: a write to CMD is the issue of its word, check by check; an access that is no word access never gets
there. -/
theorem issuePriority : Obligations.IssuePriority := by
  intro s w
  have hcmd : writeWord 0x008 w s = issue w s := writeWord_reg s .cmd w
  rw [hcmd]
  refine ⟨fun hb => issue_busy hb w, fun hb => issue_illegal hb, fun hb => issue_sreset hb,
    fun hb i hw hne => ?_, fun addr bytes hsel hbad => ?_⟩
  · have hi : i ≠ .sreset := fun h => hne (eq_of_decodeCommand_sreset (h ▸ hw))
    have hrange := rangeFail_iff_word hw { s with cmd := w }
    exact ⟨fun hr => issue_out_of_range hb hw hi (hrange.mpr hr),
      fun hr => issue_accepted hb hw hi (mt hrange.mp hr)⟩
  · obtain ⟨hlo, hhi⟩ := (selects_iff s.cfg addr).mp hsel
    exact (badAccessIsABusError s addr bytes w hlo hhi hbad).2

end Sys2Proof.Proofs
end

section
/-! SUPPORT. Progress: from every state with the invariant the next event has a next state (60_exceptions.md R221,
R227). -/

namespace Sys2Proof.Proofs

open Sys2Proof.Machine Sys2Proof.Laws

/-! ### What the engine fetches it executes -/

/-- A command is executed from an accepted word. -/
theorem exec_command_completes {s : State} {f : InFlight} {i : Instr} (hi : i.slot = none) (hf : s.inflight = some f)
    (hp : f.phase = .accepted) : ∃ t, exec i s = .next t := by
  cases i with
  | nop | extract | decode | extractDecode | csum16 | lookup => exact ⟨_, runCommand_accepted _ hf hp⟩
  | sreset => exact ⟨_, rfl⟩
  | _ => cases hi

/-- The phase in which the engine tries the element of a slot (40_commands.md R107). -/
def slotPhase : Slot → Job → Phase
  | .cellBlock, j => .cells j
  | .fixed k, j => .fixed k j
  | .extra, j => .extra j

/-- An element is executed in the phase of its slot. -/
theorem exec_element_completes {s : State} {f : InFlight} {j : Job} {i : Instr} {sl : Slot} (hi : i.slot = some sl)
    (hf : s.inflight = some f) (hp : f.phase = slotPhase sl j) : ∃ t, exec i s = .next t := by
  cases i with
  | cellBlock tag bc entries => cases hi; exact ⟨_, exec_cellBlock hf hp tag bc entries⟩
  | fixTmos | fixTp1 | fixTp2 | fixVpack | fixIpack | fixSoc => cases hi; exact ⟨_, runFixed_at hf hp _⟩
  | xfield tag value => cases hi; exact ⟨_, exec_xfield hf hp tag value⟩
  | _ => cases hi

/-- What the engine fetches it can execute: the place it fetches from is the place of the instruction. -/
theorem exec_fetched_completes {s : State} {i : Instr} (h : s.fetch = some (.ok i)) : ∃ t, exec i s = .next t := by
  cases hf : s.inflight with
  | none => simp [State.fetch, hf] at h
  | some f =>
    cases hp : f.phase with
    | accepted =>
      rw [fetch_accepted hf hp] at h
      have henc := encode_of_decodeCommand (Option.some.inj h) Config.default
      exact exec_command_completes ((slot_eq_none_iff_word _ i).mpr ⟨_, henc⟩) hf hp
    | cells j =>
      rw [fetch_cells hf hp] at h
      exact exec_element_completes (slot_of_decodeElement (Option.some.inj h)) hf hp
    | fixed k j =>
      rw [fetch_fixed hf hp] at h
      exact exec_element_completes (slot_of_decodeElement (Option.some.inj h)) hf hp
    | extra j =>
      rw [fetch_extra hf hp] at h
      split at h
      · exact exec_element_completes (slot_of_decodeElement (Option.some.inj h)) hf hp
      · cases h
    | finish j => simp [State.fetch, hf, hp] at h

/-! ### Where the invariant promises an instruction -/

/-- The word of an accepted command is a command (40_commands.md R100). -/
theorem fetch_accepted_of_inv {s : State} (hs : s.Inv) {f : InFlight} (hf : s.inflight = some f)
    (hp : f.phase = .accepted) : ∃ i, s.fetch = some (.ok i) := by
  obtain ⟨-, -, -, -, -, hengine⟩ := hs
  obtain ⟨-, -, hword, -⟩ := hengine f hf
  simp only [InFlight.wordOk, hp, Phase.job, Bool.and_eq_true, Option.isSome_iff_exists] at hword
  obtain ⟨⟨i, hi⟩, -⟩ := hword
  exact ⟨i, (fetch_accepted hf hp).trans (congrArg some (eq_ok_of_toOption hi))⟩

/-- A frame whose checks passed holds the two bytes that a cell block begins with (41_frame_boundary.md R136). -/
theorem fetch_cells_of_inv {s : State} (hs : s.Inv) {f : InFlight} (hf : s.inflight = some f) {j : Job}
    (hp : f.phase = .cells j) : ∃ i, s.fetch = some (.ok i) := by
  have hplace := placeOk_of_inv hs hf
  obtain ⟨-, -, -, hmin, -⟩ := decode_of_inv hs hf (j := j) (by rw [hp]; rfl)
  simp only [hp, Phase.placeOk, decide_eq_true_eq] at hplace
  have hoff : j.off = 11 := hplace.1
  rw [fetch_cells hf hp, State.fetchElement, State.elementBytes, windowBytes_cons s j.base (by omega),
    windowBytes_cons s j.base (by omega)]
  exact ⟨_, rfl⟩

/-- Where the engine has no instruction it moves on: the places that must hold one do. -/
theorem engineMovesOn_completes {s : State} (hs : s.Inv) (hnone : ∀ i, s.fetch ≠ some (.ok i)) (r : Reject) :
    ∃ t, s.engineMovesOn r = .next t := by
  unfold State.engineMovesOn
  cases hf : s.inflight with
  | none => exact ⟨_, rfl⟩
  | some f =>
    cases hp : f.phase with
    | accepted =>
      obtain ⟨i, hi⟩ := fetch_accepted_of_inv hs hf hp
      exact absurd hi (hnone i)
    | cells j =>
      obtain ⟨i, hi⟩ := fetch_cells_of_inv hs hf hp
      exact absurd hi (hnone i)
    | fixed k j => exact ⟨s.withPhase f (phaseAfterFixed k j), by simp only [hp]⟩
    | extra j => exact ⟨commitDecode j.extraction (completed s.cfg j) s, by simp only [hp]⟩
    | finish j => exact ⟨commitDecode j.extraction (completed s.cfg j) s, by simp only [hp]⟩

/-- The engine's move from a state with the invariant answers a next state. -/
theorem engineStep_completes {s : State} (hs : s.Inv) : ∃ t, engineStep s = .next t := by
  rcases engineStep_cases s with ⟨i, hi, he⟩ | ⟨r, hr, he⟩ | ⟨hn, he⟩ <;> rw [he]
  · exact exec_fetched_completes hi
  · exact engineMovesOn_completes hs (by simp [hr]) r
  · exact engineMovesOn_completes hs (by simp [hn]) _

/-- Settles O53: by the head of the events; the poll of STATUS that ends a WAIT is a word read inside the block. -/
theorem stepAlwaysCompletes : Obligations.StepAlwaysCompletes := by
  intro s hs hinside
  have hstep : step s = nextEvent s := if_pos hs.1
  rw [hstep, nextEvent]
  split
  · exact engineStep_completes hs
  · next rest _ => exact engineStep_completes (inv_environment hs rest s.reply)
  · exact ⟨_, rfl⟩
  · next a rest hi => exact hostAccess_next (hinside a rest hi)
  · next rest _ =>
    split
    · exact engineStep_completes hs
    · exact ⟨_, hostAccess_readWord { s with inputs := rest } (off := Reg.status.offset) (by decide) (by decide)⟩

end Sys2Proof.Proofs
end

section
/-! SUPPORT. Every command in flight commits: a bound on the engine's moves before the commit, which every move that
does not commit lowers (40_commands.md R101, 70_reset_and_hazards.md R262). -/

namespace Sys2Proof.Proofs

open Sys2Proof.Machine Sys2Proof.Laws

/-! ### The measure -/

/-- The attempts at a fixed field from field `k` on (30_encoding.md R88). -/
def attemptsFrom : FixedField → Nat
  | .tmos => 6
  | .tp1 => 5
  | .tp2 => 4
  | .vpack => 3
  | .ipack => 2
  | .soc => 1

theorem attemptsFrom_next {k k' : FixedField} (h : nextField k = some k') :
    attemptsFrom k = attemptsFrom k' + 1 := by
  cases k <;> cases h <;> rfl

/-- How many moves a phase is from the commit at most: the cell block, the attempts, and for each byte below PE a pass
of the extra-field run. A command just accepted is before any of them (log 6). -/
def movesBeforeCommit (c : Config) : Phase → Nat
  | .accepted => c.rxbufSize + 9
  | .cells j => j.pe - j.off + 7
  | .fixed k j => j.pe - j.off + attemptsFrom k
  | .extra j => j.pe - j.off
  | .finish _ => 0

/-- A decode in flight, whose frame lies inside RXBUF, is closer to its commit than a command just accepted. -/
theorem movesBeforeCommit_lt {c : Config} {p : Phase} {j : Job} (hj : p.job = some j) (hok : j.ok c) :
    movesBeforeCommit c p < c.rxbufSize + 9 := by
  obtain ⟨-, -, -, hpe, hwin, -⟩ := hok
  cases p with
  | accepted => cases hj
  | fixed k =>
    cases hj
    have hk : attemptsFrom k ≤ 6 := by cases k <;> decide
    simp only [movesBeforeCommit]
    omega
  | _ => cases hj; simp only [movesBeforeCommit]; omega

theorem movesBeforeCommit_le {s : State} (hs : s.Inv) {f : InFlight} (hf : s.inflight = some f) :
    movesBeforeCommit s.cfg f.phase ≤ s.cfg.rxbufSize + 9 := by
  cases hj : f.phase.job with
  | none =>
    cases hp : f.phase with
    | accepted => exact Nat.le_refl _
    | _ => rw [hp] at hj; cases hj
  | some j => exact (movesBeforeCommit_lt hj (decode_of_inv hs hf hj).2).le

/-- An attempt at a fixed field made, the next phase is one move closer. -/
theorem movesBeforeCommit_phaseAfterFixed (c : Config) (k : FixedField) (j : Job) :
    movesBeforeCommit c (phaseAfterFixed k j) + 1 = movesBeforeCommit c (.fixed k j) := by
  rcases phaseAfterFixed_cases k j with ⟨k', hnext, hp⟩ | ⟨rfl, hp⟩ <;> rw [hp]
  · rw [movesBeforeCommit, movesBeforeCommit, attemptsFrom_next hnext, Nat.add_assoc]
  · rfl

/-- Every pass of the extra-field run moves OFF forward or leaves the run (44_tagged_field.md R193 to R197). -/
theorem movesBeforeCommit_extraPhase (c : Config) (t : Byte) (value : List Byte) {j : Job} (hoff : j.off < j.pe) :
    movesBeforeCommit c (extraPhase c t value j) < movesBeforeCommit c (.extra j) := by
  rcases extraPhase_cases c t value j with ⟨-, hp⟩ | ⟨k, row, -, -, hp⟩ | ⟨k, row, -, -, -, hp⟩ |
    ⟨k, row, -, -, -, hp⟩ <;> rw [hp]
  · simp only [movesBeforeCommit, skipUnknown]; omega
  · simp only [movesBeforeCommit, skipDuplicate]; omega
  · simp only [movesBeforeCommit]; omega
  · simp only [movesBeforeCommit, recordField]; omega

/-! ### One move -/

/-- `t` is a commit of the command in flight in `s`: BUSY 0 and DONE 1, ERR, ECODE and the buffers as they were
(40_commands.md R102, 60_exceptions.md R221). -/
abbrev EndsCommand (s t : State) : Prop :=
  t.busy = false ∧ t.status.done = true ∧ t.status.err = s.status.err ∧ t.status.ecode = s.status.ecode ∧
    t.rxbuf = s.rxbuf ∧ t.cmdbuf = s.cmdbuf

theorem endsCommand_commitDecode (ex : Option Extraction) (d : DecodeSet) (s : State) :
    EndsCommand s (commitDecode ex d s) :=
  ⟨(not_busy_iff _).mpr (commitDecode_inflight ex d s), commitDecode_done ex d s, commitDecode_err ex d s,
    commitDecode_ecode ex d s, commitDecode_rxbuf ex d s, commitDecode_cmdbuf ex d s⟩

/-- A move of the engine ends the command in flight or brings it closer to its commit. -/
theorem engineMove_progress {s t : State} (hs : s.Inv) {f : InFlight} (hf : s.inflight = some f)
    (h : EngineMove s t) :
    EndsCommand s t ∨
      ∃ p, t = s.withPhase f p ∧ movesBeforeCommit s.cfg p < movesBeforeCommit s.cfg f.phase := by
  have hsame : ∀ {g}, s.inflight = some g → g = f := fun hg => Option.some.inj (hg.symm.trans hf)
  have hplace := placeOk_of_inv hs hf
  have hinv := inv_engineMove hs h
  cases h with
  | idle hi => rw [hf] at hi; cases hi
  | sreset g hg hp hw => exact absurd hw (not_sreset_of_inv hs hg hp)
  | nop => exact .inl ⟨rfl, rfl, rfl, rfl, rfl, rfl⟩
  | extract => exact .inl ⟨rfl, rfl, rfl, rfl, rfl, rfl⟩
  | csum16 => exact .inl ⟨rfl, rfl, rfl, rfl, rfl, rfl⟩
  | lookup => exact .inl ⟨rfl, rfl, rfl, rfl, rfl, rfl⟩
  | frameFails => exact .inl (endsCommand_commitDecode ..)
  | completes => exact .inl (endsCommand_commitDecode ..)
  | framePasses g hg hp _ _ =>
    cases hsame hg
    refine .inr ⟨_, rfl, ?_⟩
    rw [hp]
    exact movesBeforeCommit_lt rfl (decode_of_inv hinv rfl rfl).2
  | cellBlock g j hg hp tag bc entries =>
    cases hsame hg
    simp only [hp, Phase.placeOk, decide_eq_true_eq] at hplace
    refine .inr ⟨_, rfl, ?_⟩
    simp only [hp, movesBeforeCommit, cellStage, attemptsFrom]
    omega
  | fixedMatches g k j hg hp _ r =>
    cases hsame hg
    refine .inr ⟨_, rfl, ?_⟩
    have hle : movesBeforeCommit s.cfg (.fixed k (fixedStage k r j)) ≤ movesBeforeCommit s.cfg (.fixed k j) := by
      simp only [movesBeforeCommit, fixedStage]
      omega
    rw [hp]
    exact Nat.lt_of_succ_le ((movesBeforeCommit_phaseAfterFixed ..).trans_le hle)
  | fixedPassed g k j hg hp =>
    cases hsame hg
    refine .inr ⟨_, rfl, ?_⟩
    rw [hp]
    exact Nat.lt_of_succ_le (movesBeforeCommit_phaseAfterFixed ..).le
  | extraField g j hg hp hgo tag value =>
    cases hsame hg
    simp only [extraGoesOn, Bool.and_eq_true, decide_eq_true_eq] at hgo
    refine .inr ⟨_, rfl, ?_⟩
    rw [hp]
    exact movesBeforeCommit_extraPhase s.cfg tag value hgo.1

/-! ### The run -/

/-- A step with no event pending is the engine's move (log 5). -/
theorem step_of_no_event {s : State} (hc : s.cfg.legal = true) (hi : s.inputs = []) : step s = engineStep s := by
  rw [step, if_pos hc, nextEvent, hi]

/-- With no event pending a step ends the command in flight or brings it closer to its commit. -/
theorem step_progress {s : State} (hs : s.Inv) (hi : s.inputs = []) {f : InFlight} (hf : s.inflight = some f) :
    ∃ t, step s = .next t ∧
      (EndsCommand s t ∨
        ∃ p, t = s.withPhase f p ∧ movesBeforeCommit s.cfg p < movesBeforeCommit s.cfg f.phase) := by
  obtain ⟨t, ht⟩ := engineStep_completes hs
  exact ⟨t, (step_of_no_event hs.1 hi).trans ht, engineMove_progress hs hf (engineMove_of_engineStep ht)⟩

/-- With no event pending the command in flight commits within its bound and the commit's own move. -/
theorem reaches_endsCommand {n : Nat} {s : State} {f : InFlight} (hs : s.Inv) (hi : s.inputs = [])
    (hf : s.inflight = some f) (hn : movesBeforeCommit s.cfg f.phase ≤ n) :
    ∃ t, ReachesWithin (n + 1) s t ∧ EndsCommand s t := by
  induction n generalizing s f with
  | zero =>
    obtain ⟨t, hstep, hend | ⟨p, -, hlt⟩⟩ := step_progress hs hi hf
    · exact ⟨t, reachesWithin_of_step hstep, hend⟩
    · exact absurd (hlt.trans_le hn) (Nat.not_lt_zero _)
  | succ n ih =>
    obtain ⟨t, hstep, hend | ⟨p, rfl, hlt⟩⟩ := step_progress hs hi hf
    · exact ⟨t, reachesWithin_of_step hstep, hend⟩
    · obtain ⟨t, hrun, hend⟩ := ih (stepKeepsInvariant s _ hs hstep) hi rfl (Nat.le_of_lt_succ (hlt.trans_le hn))
      exact ⟨t, .head hstep hrun, hend⟩

/-- Settles O58: the measure of a command in flight is at most RXBUF_SIZE + 9. -/
theorem acceptedCommandCommits : Obligations.AcceptedCommandCommits := by
  intro s hs hb hi
  obtain ⟨f, hf⟩ := (busy_iff s).mp hb
  obtain ⟨t, ⟨k, hk, hrun⟩, hend⟩ := reaches_endsCommand hs hi hf (movesBeforeCommit_le hs hf)
  exact ⟨k, t, hk, hrun, hend⟩

end Sys2Proof.Proofs
end

section
/-! SUPPORT. The reset state (70_reset_and_hazards.md R250 to R252): RESET and power-on as soft resets, what
a host reads of it. -/

namespace Sys2Proof.Proofs

open Sys2Proof.Machine Sys2Proof.Laws

/-! ### Offsets below the FCT -/

/-- The window of the FCT starts at offset 0x1000 (20_memory.md R61). -/
theorem le_of_locate_fct {off k : Nat} (h : locate off = .fct k) : 0x1000 ≤ off := by
  unfold locate at h
  repeat' split at h
  all_goals cases h
  all_goals omega

/-- What an offset below the FCT addresses (20_memory.md R61). -/
theorem locate_below_fct {off : Nat} (h : off < 0x1000) :
    (∃ r, locate off = .reg r ∧ off = r.offset) ∨ (∃ i, locate off = .cell i) ∨ (∃ j w, locate off = .xe j w) ∨
      locate off = .reserved := by
  cases hl : locate off with
  | reg r => exact .inl ⟨r, rfl, offset_of_locate hl⟩
  | cell i => exact .inr (.inl ⟨i, rfl⟩)
  | xe j w => exact .inr (.inr (.inl ⟨j, w, rfl⟩))
  | reserved => exact .inr (.inr (.inr rfl))
  | fct k => exact absurd (le_of_locate_fct hl) (Nat.not_le.mpr h)
  | buffer b k => exact absurd (le_of_locate_buffer hl) (by omega)

/-! ### One form of reset -/

/-- Power-on is a fixed point of the soft reset. -/
theorem softReset_resetOf (c : Config) : softReset (State.resetOf c) = State.resetOf c := rfl

/-- RESET is a soft reset that also forgets the buffers (70_reset_and_hazards.md R251). -/
theorem hardReset_eq_softReset (s : State) :
    hardReset s = softReset { s with rxbuf := [], cmdbuf := [], epoch := s.epoch + 1 } := rfl

/-! ### Reads after a reset -/

/-- The registers from RX_LEN up read 0 after a reset, CFG0 to CFG4 and REC_VMIN apart (70_reset_and_hazards.md
R250). -/
theorem readReg_softReset_eq_zero (s : State) {r : Reg}
    (h : (0x010 ≤ r.offset ∧ r.offset ≤ 0x040) ∨ 0x080 ≤ r.offset) (hmin : r ≠ .recVmin) :
    (softReset s).readReg r = 0 := by
  cases r with
  | recVmin => exact absurd rfl hmin
  | id | ctrl | cmd | status | cfg0 | cfg1 | cfg2 | cfg3 | cfg4 => exact absurd h (by decide)
  | _ => rfl

/-- The same by offset, with CELL and XE, of which no entry is decoded. -/
theorem readWord_softReset_eq_zero (s : State) {off : Nat}
    (h : (0x010 ≤ off ∧ off ≤ 0x040) ∨ (0x080 ≤ off ∧ off < 0x1000)) (hmin : off ≠ 0x084) :
    (softReset s).readWord off = 0 := by
  rcases locate_below_fct (show off < 0x1000 by omega) with ⟨r, -, rfl⟩ | ⟨i, hl⟩ | ⟨j, w, hl⟩ | hl
  · rw [readWord_reg]
    exact readReg_softReset_eq_zero s (h.imp_right And.left) (fun hr => hmin (hr ▸ rfl))
  · rw [State.readWord, hl]
    exact readCell_beyond (.inr (Nat.zero_le i))
  · rw [State.readWord, hl]
    exact readXe_beyond (.inr (Nat.zero_le j)) w
  · rw [State.readWord, hl, State.readLoc]

/-- STATUS reads 0 after a reset (70_reset_and_hazards.md R250). -/
theorem statusWord_softReset (s : State) : (softReset s).statusWord = 0 := by
  rw [State.statusWord, State.busy, softReset_dec, softReset_status, softReset_inflight]
  decide

/-- The table of 70_reset_and_hazards.md R250. -/
theorem registersAtReset_softReset (s : State) : (softReset s).registersAtReset := by
  have hreg := readWord_reg (softReset s)
  refine ⟨hreg .id, (hreg .ctrl).trans (show Ctrl.reset.toWord = 4 by decide), hreg .cmd,
    (hreg .status).trans (statusWord_softReset s), fun off _ hlo hhi => ?_, ?_, hreg .recVmin,
    fun off _ hlo hhi => ?_, fun off _ hlo hhi => ?_, rfl, rfl⟩
  · exact readWord_softReset_eq_zero s (.inl ⟨hlo, hhi⟩) (by omega)
  · exact readWord_softReset_eq_zero s (off := 0x080) (by decide) (by decide)
  · exact readWord_softReset_eq_zero s (by omega) (by omega)
  · exact readWord_softReset_eq_zero s (by omega) (by omega)

theorem registersAtReset_hardReset (s : State) : (hardReset s).registersAtReset :=
  hardReset_eq_softReset s ▸ registersAtReset_softReset _

theorem registersAtReset_resetOf (c : Config) : (State.resetOf c).registersAtReset :=
  softReset_resetOf c ▸ registersAtReset_softReset _

/-- Settles O29: the reset state is what `exec` of SRESET answers, its buffers and epoch those before. -/
theorem softResetKeepsBuffers : Obligations.SoftResetKeepsBuffers := fun s =>
  ⟨softReset s, rfl, registersAtReset_softReset s, softReset_cfg s, rfl,
    bufByte_congr (softReset_rxbuf s) (softReset_cmdbuf s) (softReset_epoch s), softReset_inputs s, softReset_reply s⟩

/-- Settles O49: the step at a RESET is the hard reset, whatever the engine was doing. -/
theorem hardResetInAnyPhase : Obligations.HardResetInAnyPhase := by
  refine ⟨fun s rest hc hi => ?_, registersAtReset_resetOf, registersAtReset_resetOf Config.default⟩
  have hstep : step s = .next (hardReset { s with inputs := rest }) := by
    rw [step, if_pos hc, nextEvent, hi]
  exact ⟨_, hstep, registersAtReset_hardReset _, hardReset_cfg _, hardReset_inputs _⟩

/-! ### Buffers and invariant -/

/-- A buffer that the host has not written reads as the epoch's draw (70_reset_and_hazards.md R251). -/
theorem bufByte_unwritten {s : State} {b : Buffer} (h : s.bufferOf b = []) (i : Nat) :
    s.bufByte b i = Config.powerOnByte s.epoch b i := by
  rw [State.bufByte, h]
  rfl

/-- Settles O50: both buffers are empty after a RESET and after power-on. -/
theorem buffersAreDrawnAfterReset : Obligations.BuffersAreDrawnAfterReset :=
  ⟨fun s b => bufByte_unwritten (s := hardReset s) (by cases b <;> rfl),
    fun c b => bufByte_unwritten (s := State.resetOf c) (by cases b <;> rfl)⟩

theorem inv_resetOf {c : Config} (hc : c.legal = true) : (State.resetOf c).Inv :=
  softReset_resetOf c ▸ inv_softReset hc ⟨.nil, by simp [State.resetOf], .nil, by simp [State.resetOf]⟩

/-- Settles O51: the invariant of a soft reset, with empty buffers. -/
theorem invariantAtReset : Obligations.InvariantAtReset :=
  ⟨fun _ => inv_resetOf, inv_resetOf (by decide)⟩

end Sys2Proof.Proofs
end

section
/-! SUPPORT. The hazards of a command in flight (70_reset_and_hazards.md R253, R255, R256): writes refused, stale
results, and how it ends. -/

namespace Sys2Proof.Proofs

open Sys2Proof.Machine Sys2Proof.Laws

/-! ### Writes while BUSY -/

theorem refuseIfBusy_busy {s : State} (h : s.busy = true) (t : State) : refuseIfBusy s t = refuse .busyWrite s :=
  if_pos h

/-- CTRL and the five operand registers refuse a write while BUSY (60_exceptions.md R223). -/
theorem writeReg_busy {s : State} (hb : s.busy = true) {r : Reg}
    (hr : r ∈ [Reg.ctrl, .rxLen, .winBase, .winLen, .csStart, .csCount]) (v : Word) :
    writeReg r v s = .next (refuse .busyWrite s) := by
  cases r with
  | ctrl | rxLen | winBase | winLen | csStart | csCount => rw [writeReg, refuseIfBusy_busy hb]
  | _ => exact absurd hr (by decide)

/-- A word that holds a byte of a buffer refuses a write while BUSY (60_exceptions.md R223). -/
theorem writeBuffer_busy {s : State} (hb : s.busy = true) {b : Buffer} {k : Nat} (hk : k < bufferSize s.cfg b)
    (v : Word) : writeBuffer b k v s = refuse .busyWrite s := by
  rw [writeBuffer, if_pos hk, refuseIfBusy_busy hb]

/-- Settles O10: the issue, the registers by name and the buffers by index, each with its refusal. -/
theorem writesWhileBusyAreLost : Obligations.WritesWhileBusyAreLost := by
  intro s v hb
  refine ⟨?_, fun off hoff => ?_, fun k _ hk => ?_, fun k _ hk => ?_⟩
  · exact (writeWord_reg s .cmd v).trans (issue_busy hb v)
  · obtain ⟨r, hr, rfl⟩ := List.mem_map.mp
      (show off ∈ [Reg.ctrl, .rxLen, .winBase, .winLen, .csStart, .csCount].map Reg.offset from hoff)
    exact (writeWord_reg s r v).trans (writeReg_busy hb hr v)
  · rw [writeWord_cmdbuf (by omega), writeBuffer_busy hb hk]
    rfl
  · rw [writeWord_rxbuf, writeBuffer_busy hb hk]
    rfl

/-! ### A command that stays in flight -/

/-- While BUSY a host write changes nothing but DONE, ERR and ECODE: it is ignored, refused or the acknowledgement. -/
theorem writeMove_of_busy {s t : State} {off : Nat} {v : Word} (h : WriteMove s off v t) (hb : s.busy = true) :
    ∃ done err ecode, t = { s with status := { s.status with done := done, err := err, ecode := ecode } } := by
  cases h with
  | ignored => exact ⟨_, _, _, rfl⟩
  | refused code _ cmd hcmd => rw [hcmd hb]; exact ⟨_, _, _, rfl⟩
  | acknowledged => exact ⟨_, _, _, rfl⟩
  | ctrl _ hidle => simp [hb] at hidle
  | operand hidle => simp [hb] at hidle
  | buffer hidle => simp [hb] at hidle
  | sreset _ hidle => simp [hb] at hidle
  | accepted _ hidle => simp [hb] at hidle

/-- A move of the engine after which a command is in flight changed nothing but the engine (40_commands.md R102). -/
theorem engineMove_of_busy {s t : State} (h : EngineMove s t) (hb : t.busy = true) :
    t = { s with inflight := t.inflight } := by
  rcases engineMove_outcome h with ht | ⟨-, hidle, -⟩ | ⟨rfl, -⟩
  · exact ht
  · simp [hb] at hidle
  · cases hb

/-- A step from BUSY to BUSY changes nothing but the engine, DONE, ERR, ECODE and the environment. -/
theorem step_of_busy {s t : State} (hs : s.busy = true) (h : step s = .next t) (ht : t.busy = true) :
    ∃ inflight inputs reply done err ecode,
      t = { s with
        inflight := inflight, inputs := inputs, reply := reply
        status := { s.status with done := done, err := err, ecode := ecode } } := by
  cases stepMove_of_step h with
  | engine inputs he => exact ⟨t.inflight, inputs, _, _, _, _, engineMove_of_busy he ht⟩
  | reset => cases ht
  | answered => exact ⟨_, _, _, _, _, _, rfl⟩
  | write _ _ rest _ hw =>
    obtain ⟨done, err, ecode, rfl⟩ := writeMove_of_busy hw hs
    exact ⟨_, _, _, _, _, _, rfl⟩

/-- A read of a result, record, CELL or XE offset depends on the result registers and the configuration alone. -/
theorem readWord_result_congr {s t : State} (hcfg : t.cfg = s.cfg) (hdec : t.dec = s.dec) (hcsum : t.csum = s.csum)
    (hcsacc : t.csacc = s.csacc) (hlkres : t.lkres = s.lkres) {off : Nat}
    (h : (0x024 ≤ off ∧ off ≤ 0x040) ∨ (0x080 ≤ off ∧ off < 0x1000)) : t.readWord off = s.readWord off := by
  rcases locate_below_fct (show off < 0x1000 by omega) with ⟨r, -, rfl⟩ | ⟨i, hl⟩ | ⟨j, w, hl⟩ | hl
  · rw [readWord_reg, readWord_reg]
    cases r with
    | csum | csacc | lkres => simp only [State.readReg, hcsum, hcsacc, hlkres]
    | id | ctrl | cmd | status | rxLen | winBase | winLen | csStart | csCount | cfg0 | cfg1 | cfg2 | cfg3 | cfg4 =>
      exact absurd h (by decide)
    | _ => simp only [State.readReg, hdec]
  · simp only [State.readWord, hl, State.readLoc, State.readCell, hcfg, hdec]
  · simp only [State.readWord, hl, State.readLoc, State.readXe, hcfg, hdec]
  · simp only [State.readWord, hl, State.readLoc]

/-- Settles O55: the frame of a step from BUSY to BUSY, and what a read of the results depends on. -/
theorem staleUntilCommit : Obligations.StaleUntilCommit := by
  intro s t hs hstep ht
  obtain ⟨_, _, _, _, _, _, rfl⟩ := step_of_busy hs hstep ht
  refine ⟨rfl, rfl, rfl, rfl, rfl, rfl, rfl, fun off hoff => ?_⟩
  refine readWord_result_congr ?_ ?_ ?_ ?_ ?_ hoff <;> rfl

/-! ### A command that ends -/

/-- The engine ends a command by its commit alone, since the invariant keeps SRESET out of flight (40_commands.md R102,
R111). -/
theorem engineMove_ends {s t : State} (hs : s.Inv) (h : EngineMove s t) (hb : s.busy = true) (ht : t.busy = false) :
    t.status.done = true ∧ KeepsOperands s t := by
  cases h with
  | idle => simp [hb] at ht
  | sreset f hf hp hw => exact absurd hw (not_sreset_of_inv hs hf hp)
  | nop => exact ⟨rfl, keepsOperands_of_results ..⟩
  | extract => exact ⟨rfl, keepsOperands_of_results ..⟩
  | csum16 => exact ⟨rfl, keepsOperands_of_results ..⟩
  | lookup => exact ⟨rfl, keepsOperands_of_results ..⟩
  | frameFails => exact ⟨commitDecode_done .., keepsOperands_commitDecode ..⟩
  | completes => exact ⟨commitDecode_done .., keepsOperands_commitDecode ..⟩
  | _ => cases ht

/-- Settles O56: a host access leaves the command in flight, so the step is a RESET or the engine's commit. -/
theorem onlyResetAbandonsACommand : Obligations.OnlyResetAbandonsACommand := by
  intro s t hs hb hstep ht
  have hgoes : t.inflight ≠ s.inflight := fun h => by
    rw [State.busy, h, ← State.busy, hb] at ht
    cases ht
  cases stepMove_of_step hstep with
  | engine inputs h =>
    obtain ⟨hdone, -, hctrl, hcmd, herr, hecode, hrxLen, hcsStart, hcsCount, hbuf, -⟩ :=
      engineMove_ends (inv_environment hs inputs s.reply) h hb ht
    exact .inr ⟨hdone, herr, hecode, hctrl, hcmd, hrxLen, hcsStart, hcsCount, hbuf⟩
  | reset rest hi => exact .inl ⟨rest, hi⟩
  | answered => exact absurd rfl hgoes
  | write _ _ _ _ h => exact absurd (writeMove_inflight_of_busy h hb) hgoes

end Sys2Proof.Proofs
end
